-- ==== Sys2Proof/Word.lean ====
section
/-! DEFINITION. The word types of the block: bytes, and the words of the four formats of
30_encoding.md rule R70. -/

namespace Sys2Proof

/-- A byte: an unsigned number in `0..255` (rule R10). Samples, glyph codes and compact bytes are bytes. -/
abbrev Byte := BitVec 8

/-- One word of one of the four formats of rule R70. `CB`, `GT` and `ST` have the fixed widths 8, 10 and 9. A `PT` word
is `10 + CNT_W` bits wide, where `CNT_W` is a parameter (rules R8, R84), so it is held as the number its bits make;
the decoder rejects a number that does not fit the width. -/
inductive PortWord where
  /-- `ST`, port `S` of `PIPE` (rule R82). -/
  | st (w : BitVec 9)
  /-- `GT`, port `G` of `CORE` (rule R80). -/
  | gt (w : BitVec 10)
  /-- `PT`, the hand-over from the run-length stage to the compact encoder (rule R84). -/
  | pt (w : Nat)
  /-- `CB`, a compact byte (rule R71). -/
  | cb (b : Byte)
deriving DecidableEq, Repr

end Sys2Proof
end

