-- ==== Sys2Proof/Config.lean ====
section
/-! DEFINITION. The parameters of rule R8, the check of rule R9, and the one free value of the model (the contents of a
frame-buffer cell that nothing has written since reset). -/

namespace Sys2Proof

/-- Which of the two nested blocks of rule R6 the machine is. -/
inductive Block where
  /-- Run-length stage and compact encoder; tokens come in on port `G`. -/
  | core
  /-- Front end in front of one `CORE`; tokens come in on port `S`. -/
  | pipe
deriving DecidableEq, Repr

/-- The parameters rule R8 marks as arguments, and the choice of block (rule R6). Fixed when the machine is built. -/
structure Config where
  /-- `CORE` or `PIPE`. -/
  block : Block
  /-- `W`, frame width in pixels. -/
  w : Nat
  /-- `H`, frame height in pixels. -/
  h : Nat
  /-- `THRESH`: a sample of at least this is an on pixel. Eight bits, so the constraint `0..255` of R8 holds by type. -/
  thresh : Byte
  /-- `CNT_W`, bits of the run counter. -/
  cntW : Nat
deriving DecidableEq, Repr

/-- `GW = W / 2`. -/
def Config.gw (c : Config) : Nat := c.w / 2

/-- `GH = H / 3`. -/
def Config.gh (c : Config) : Nat := c.h / 3

/-- `NPIX = W * H`. -/
def Config.npix (c : Config) : Nat := c.w * c.h

/-- `CELLS = GW * GH`. -/
def Config.cells (c : Config) : Nat := c.gw * c.gh

/-- `CNT_MAX = 2^CNT_W - 1`. -/
def Config.cntMax (c : Config) : Nat := 2 ^ c.cntW - 1

/-- `ceil(log2 n)`, the width rule of `WP_W`, `sy` and `sx` (rules R8, R20). -/
def ceilLog2 (n : Nat) : Nat := if n ≤ 1 then 0 else Nat.log2 (n - 1) + 1

/-- `WP_W = ceil(log2(NPIX))`. -/
def Config.wpW (c : Config) : Nat := ceilLog2 c.npix

/-- Rules R8 and R9: a configuration that fails this is no configuration of the hardware. The bound on `CELLS` is asked
of `PIPE` only. -/
def Config.wf (c : Config) : Bool :=
  decide (2 ≤ c.w) && decide (c.w % 2 = 0) && decide (3 ≤ c.h) && decide (c.h % 3 = 0) && decide (1 ≤ c.cntW)
    && (decide (c.block = .core) || decide (c.cells ≤ c.cntMax))

/-- The reference values of rule R8, as the complete pipeline `PIPE`. -/
def Config.reference : Config := { block := .pipe, w := 128, h := 48, thresh := 186, cntW := 11 }

/-- `BLANK = BASE = 128`, the all-off glyph. -/
def glyphBlank : Byte := 0x80

/-- `FULL = BASE + 63 = 191`, the all-on glyph. -/
def glyphFull : Byte := 0xBF

/-- `MAXRUN = 63`, the largest run-length field. -/
def maxRun : Nat := 63

/-- FREE VALUE (rules R37, R53; 93_implementation_defined.md U2; assumption 3): what cell `a` of the frame buffer holds
when nothing has written it since the reset counted by the first argument. No body: no proof can see a value of it. -/
opaque Config.unwrittenCell : Nat → Nat → Bool

end Sys2Proof
end

