-- ==== Sys2Proof/Syntax.lean ====
section
/-! DEFINITION. `Instr`: one constructor per row of spec/opcode_table.json (rule R90). -/

namespace Sys2Proof

/-- The words the spec lists in place of an instruction set (rule R2). Fields that a rule calls ignored are not kept. -/
inductive Instr where
  /-- `S d`: one intensity sample (R82, R105). -/
  | s (d : Byte)
  /-- `FIN`: end of the sample stream (R82, R107). -/
  | fin
  /-- `G v`: one glyph (R80, R123). -/
  | g (v : Byte)
  /-- `EOF`: end of frame (R80, R124). -/
  | eof
  /-- `EOS`: end of stream (R80, R125). -/
  | eos
  /-- The reserved token kind 3 on port `G` (R80, R126). -/
  | grsv
  /-- `PAIR v c`: one RLE pair (R84, R141). -/
  | pair (v : Byte) (c : Nat)
  /-- `MEOF`: end of frame, internal (R84, R147). -/
  | meof
  /-- `MEOS`: end of stream, internal (R84, R148). -/
  | meos
  /-- `END`: the byte `0x00` (R72, R161). -/
  | endByte
  /-- `BLK n`: a run of the blank glyph (R72, R162). -/
  | blk (n : BitVec 6)
  /-- `RSV1`: a reserved byte `0x40..0x7F` (R72, R165). -/
  | rsv1
  /-- `LIT v`: one literal glyph (R72, R163). -/
  | lit (v : Byte)
  /-- `RSVF0`: the reserved byte `0xC0` (R72, R165). -/
  | rsvf0
  /-- `FUL n`: a run of the full glyph (R72, R164). -/
  | ful (n : BitVec 6)
deriving DecidableEq, Repr

end Sys2Proof
end

