-- ==== Sys2Proof/WellFormed.lean ====
section
/-! DEFINITION. Which terms of `Instr` are words of the encoding: the operand ranges of rules R72 and R84. -/

namespace Sys2Proof

/-- `cntW` is the parameter `CNT_W`, the width of a `PAIR`'s count (rule R84). A run byte's length is not 0 (rule R72), and
a literal byte has the tag `0b10` (rule R72). Every other field is as wide as its type. -/
def Instr.wf (cntW : Nat) : Instr → Bool
  | .pair _ c => decide (c < 2 ^ cntW)
  | .blk n => decide (n ≠ 0)
  | .ful n => decide (n ≠ 0)
  | .lit v => decide (v.extractLsb' 6 2 = 2)
  | .s _ | .fin | .g _ | .eof | .eos | .grsv | .meof | .meos | .endByte | .rsv1 | .rsvf0 => true

end Sys2Proof
end

