-- ==== Sys2Proof/Decode.lean ====
section
/-! DEFINITION. The decoder of the four formats (30_encoding.md), total, rejecting by name, and after it the encoder. -/

namespace Sys2Proof

/-- Why a word is no instruction. -/
inductive DecodeError where
  /-- A `PT` word of kind 3: "never generated by `RLE`; `CE` has no rule for it" (rule R84). -/
  | pKind3
  /-- A number that does not fit the `10 + CNT_W` bits of a `PT` word (rule R70). -/
  | wordTooWide
deriving DecidableEq, Repr

/-- The tag of a compact byte, `b[7:6]` (rule R71). -/
def cbTag (b : Byte) : BitVec 2 := b.extractLsb' 6 2

/-- The length field of a compact byte, `b[5:0]` (rule R71). -/
def cbLen (b : Byte) : BitVec 6 := b.extractLsb' 0 6

/-- An S token: `kind = t[8]`, `data = t[7:0]` (rule R82). -/
def decodeST (w : BitVec 9) : Instr := if w.extractLsb' 8 1 = 0 then .s (w.extractLsb' 0 8) else .fin

/-- A G token: `kind = t[9:8]`, `data = t[7:0]` (rule R80). -/
def decodeGT (w : BitVec 10) : Instr :=
  if w.extractLsb' 8 2 = 0 then .g (w.extractLsb' 0 8)
  else if w.extractLsb' 8 2 = 1 then .eof
  else if w.extractLsb' 8 2 = 2 then .eos
  else .grsv

/-- A P token: `kind[CNT_W+9 : CNT_W+8]`, `val[CNT_W+7 : CNT_W]`, `cnt[CNT_W-1 : 0]` (rules R70, R84). -/
def decodePT (cntW w : Nat) : Except DecodeError Instr :=
  if 2 ^ (cntW + 10) ≤ w then .error .wordTooWide
  else if w / 2 ^ (cntW + 8) = 0 then .ok (.pair (BitVec.ofNat 8 (w / 2 ^ cntW)) (w % 2 ^ cntW))
  else if w / 2 ^ (cntW + 8) = 1 then .ok .meof
  else if w / 2 ^ (cntW + 8) = 2 then .ok .meos
  else .error .pKind3

/-- The class of a compact byte, in the order rule R72 tests them: `END` and `RSVF0` before `BLK` and `FUL`. -/
def decodeCB (b : Byte) : Instr :=
  if b = 0x00 then .endByte
  else if b = 0xC0 then .rsvf0
  else if cbTag b = 0 then .blk (cbLen b)
  else if cbTag b = 1 then .rsv1
  else if cbTag b = 2 then .lit b
  else .ful (cbLen b)

/-- The decoder. Each channel carries one format, so a word comes with its format (rule R70); `cntW` is `CNT_W`. -/
def decode (cntW : Nat) : PortWord → Except DecodeError Instr
  | .st w => .ok (decodeST w)
  | .gt w => .ok (decodeGT w)
  | .pt w => decodePT cntW w
  | .cb b => .ok (decodeCB b)

/-- The encoder, from the match column of rule R90. The canonical form of a token without operand has `data = 0`
(rules R80, R82), and the canonical reserved byte of tag `0b01` is `0x40`. -/
def encode (cntW : Nat) : Instr → PortWord
  | .s d => .st (0#1 ++ d)
  | .fin => .st 0x100
  | .g v => .gt (0#2 ++ v)
  | .eof => .gt 0x100
  | .eos => .gt 0x200
  | .grsv => .gt 0x300
  | .pair v c => .pt (v.toNat * 2 ^ cntW + c)
  | .meof => .pt (2 ^ (cntW + 8))
  | .meos => .pt (2 * 2 ^ (cntW + 8))
  | .endByte => .cb 0x00
  | .blk n => .cb (0#2 ++ n)
  | .rsv1 => .cb 0x40
  | .lit v => .cb v
  | .rsvf0 => .cb 0xC0
  | .ful n => .cb (3#2 ++ n)

/-- The format of a word of spec/opcode_table.json, told by its width: 8 bits `CB`, 9 `ST`, 10 `GT`, 21 `PT` (the
reference `CNT_W = 11`). The host counts whole bytes, so 16 and 24 bits come too: 24 is `PT`; 16 cannot tell `ST` from
`GT`, and there a word that fits 9 bits is taken as port `S`'s, the port of the machine `State.reset` is, and a wider
one as port `G`'s (assumption 8). -/
def tableFormat (nbits w : Nat) : Option PortWord :=
  if nbits = 8 ∧ w < 256 then some (.cb (BitVec.ofNat 8 w))
  else if nbits = 9 ∧ w < 512 then some (.st (BitVec.ofNat 9 w))
  else if nbits = 10 ∧ w < 1024 then some (.gt (BitVec.ofNat 10 w))
  else if nbits = 16 ∧ w < 512 then some (.st (BitVec.ofNat 9 w))
  else if nbits = 16 ∧ w < 1024 then some (.gt (BitVec.ofNat 10 w))
  else if nbits = 21 ∨ nbits = 24 then some (.pt w)
  else none

/-- The instruction the decoder reads from a row's word of spec/opcode_table.json. -/
def decodeTableWord (nbits w : Nat) : Option Instr :=
  match tableFormat nbits w with
  | some p => (decode Config.reference.cntW p).toOption
  | none => none

end Sys2Proof
end

