-- ==== Sys2Proof/Machine/State.lean ====
section
/-! DEFINITION. The state of the block (rule R20), as plain data; why a step can stop; and the state right after reset
(rule R37). -/

namespace Sys2Proof.Machine

/-- Why a step stops with a fault. The faults of the spec itself (`INV`, `OVF`, `PROTO`) are NOT here: raising one is an
effect the spec gives (rule R204), so it is a next state with `st = FAULT`. -/
inductive Fault where
  /-- Raised by `S` when `wp` names no cell of the frame buffer (`wp` at least `NPIX`). Rule R50: no address outside
  `0..NPIX - 1` exists. Rules R25, R38 (c): no run reaches such a state. SAFE. -/
  | noSuchCell
deriving DecidableEq, Repr

/-- Why a step is refused. -/
inductive Refusal where
  /-- Answered only by arms of `exec` that have no meaning yet. SAFE. -/
  | notModelled (mnemonic : String)
  /-- Answered by `State.build`, by every step and by every token of the block when the configuration fails the check of
  rule R9: "the model refuses it when the configuration is built", and "no rule of this spec gives it a meaning". SAFE. -/
  | badConfiguration
  /-- Answered by `S` and `FIN` on a `CORE`, which has no port `S` (rules R6, R192). SAFE. -/
  | noPortS
  /-- Answered by `step` when the word on the `P` hand-over is no P token (rule R84). SAFE. -/
  | noSuchWord (e : DecodeError)
deriving DecidableEq, Repr

/-- The run state `st` (rule R21). -/
inductive RunState where
  /-- Accepts tokens. -/
  | run
  /-- The stream has ended. -/
  | done
  /-- A fault was raised. -/
  | fault
deriving DecidableEq, Repr

/-- The fault code `fc` (rules R22, R200). -/
inductive FaultCode where
  /-- No fault. -/
  | none
  /-- Invariant violation (rule R201). -/
  | inv
  /-- Run counter overflow (rule R202). -/
  | ovf
  /-- Protocol violation (rule R203). -/
  | proto
deriving DecidableEq, Repr

/-- An open run: the pair (`rv`, `rc`) of rule R23. -/
structure OpenRun where
  /-- `rv`, 8 bits: the value of the run. -/
  rv : Byte
  /-- `rc`, a count of at most `CNT_MAX`: the length of the run so far. -/
  rc : Nat
deriving DecidableEq, Repr

/-- Where the reference decoder of 43_byte_records.md stands. -/
inductive Verdict where
  /-- It takes bytes. -/
  | running
  /-- It met the end of the stream and returned its frames (rule R167). -/
  | complete
  /-- It met a reserved byte (rule R165). -/
  | invalid
  /-- Its bytes ran out before the end of the stream (rule R166). -/
  | truncated
deriving DecidableEq, Repr

/-- The reference decoder (rule R160: "A decoder state is a pair: the sequence `cells` of glyph codes produced so far in
the current frame and the remaining input bytes"), with the frames it has completed (rule R167). It is no part of the
hardware; it stands in the state because the compact-byte rows of the opcode table have their meaning there
(assumption 6). -/
structure RefDecoder where
  /-- The bytes not yet read; `none` until the host hands a byte sequence over. -/
  input : Option (List Byte)
  /-- `cells`: the glyph codes of the current frame so far. -/
  cells : List Byte
  /-- `frames`: the frames completed so far. -/
  frames : List (List Byte)
  /-- Whether it still takes bytes, and if not, why. -/
  verdict : Verdict
deriving DecidableEq, Repr

/-- The state. Registers of rule R20 under their own names; the two histories a claim may speak of (rule R191); the words
the host offers on the ports (rules R65, R193); the `rst` input (rule R192); the configuration the machine was built with
(rule R8); the reference decoder (rule R160). -/
structure State where
  /-- The configuration (rule R8). No step changes it (assumption 1). -/
  cfg : Config
  /-- The level of the `rst` input (rules R192, R230). The host drives it. -/
  rst : Bool
  /-- `st` (rule R21). -/
  st : RunState
  /-- `fc` (rule R22). -/
  fc : FaultCode
  /-- The run register (`rvalid`, `rv`, `rc`) as the optional pair rule R23 asks for: `none` is `rvalid = 0`. -/
  openRun : Option OpenRun
  /-- `cv`: the value of the pair being serialised (rule R27). -/
  cv : Byte
  /-- `crem`: repetitions not yet cut into chunks (rule R27). -/
  crem : Nat
  /-- `clit`: literal bytes of the current chunk still owed (rule R27). -/
  clit : Nat
  /-- `wp`: the frame-buffer cell the next sample is written to (rule R25). -/
  wp : Nat
  /-- `fb`: the frame buffer (rule R26), one cell an entry, its bit held as the byte 0 or 1 (assumption 4). -/
  fb : List Host.Cell
  /-- `sy`: grid row of the packer scan (rule R28). -/
  sy : Nat
  /-- `sx`: grid column of the packer scan (rule R28). -/
  sx : Nat
  /-- `out`: every byte emitted on port `B` since reset, in order (rule R31). -/
  out : List Byte
  /-- Every token consumed from the block's port since reset, in order (rules R191, R12): the other history a claim may
  speak of. No hardware, like `out` (assumption 20). -/
  consumed : List Instr
  /-- Words offered on port `S` and not yet taken, first first (rules R65, R193). -/
  sIn : List (BitVec 9)
  /-- Words offered on port `G` and not yet taken (rules R65, R193). -/
  gIn : List (BitVec 10)
  /-- Words on the hand-over from `RLE` to `CE` (rule R65); no token leaves one there (rule R140). -/
  pIn : List Nat
  /-- The reference decoder (rule R160). -/
  dec : RefDecoder
  /-- The model's own counter of resets: a cell nothing has written since reset number `epoch` holds the free value
  `Config.unwrittenCell epoch` (assumption 3). -/
  epoch : Nat
deriving DecidableEq, Repr

/-- The reference decoder before any byte is handed to it. -/
def RefDecoder.fresh : RefDecoder := { input := none, cells := [], frames := [], verdict := .running }

/-- What a machine of configuration `c` holds right after reset (rules R37, R230). Whether there is such a machine is for
`State.build` to say (rule R9). `cv`, `sy` and `sx` are
unspecified there: their zeros are the model's (assumption 2). Nothing in `fb` is listed: no cell's value is known. -/
def State.resetWith (c : Config) : State :=
  { cfg := c, rst := false, st := .run, fc := .none, openRun := none, cv := 0, crem := 0, clit := 0, wp := 0, fb := [],
    sy := 0, sx := 0, out := [], consumed := [], sIn := [], gIn := [], pIn := [], dec := RefDecoder.fresh, epoch := 0 }

/-- The state right after reset of the reference machine: `PIPE` with the reference parameters of rule R8. -/
def State.reset : State := State.resetWith Config.reference

end Sys2Proof.Machine
end

