-- ==== Sys2Proof/Machine/Flags.lean ====
section
/-! DEFINITION. What behaves like a flag (rule R29), the status outputs (rule R30), and the handshake signals (rule R192). -/

namespace Sys2Proof.Machine

/-- The 2-bit code of `st` (rule R20). -/
def RunState.code : RunState → BitVec 2
  | .run => 0
  | .done => 1
  | .fault => 2

/-- The 2-bit code of `fc` (rules R20, R200). -/
def FaultCode.code : FaultCode → BitVec 2
  | .none => 0
  | .inv => 1
  | .ovf => 2
  | .proto => 3

/-- `rvalid` (rules R23, R29). -/
def State.rvalid (s : State) : Bool := s.openRun.isSome

/-- The compact encoder is idle (rules R27, R140). -/
def State.ceIdle (s : State) : Bool := decide (s.crem = 0) && decide (s.clit = 0)

/-- The block takes a token: it is in `RUN` (rule R21), `rst` is 0 (rule R230), and the compact encoder is idle, as it is
at every token boundary (rules R38 (a), R140). No signal of the spec: `gReady` and `sReady` are the outputs. That it is 0
while `rst` is 1 or the compact encoder is busy is DEDUCED (assumption 9); it does not look at the hand-over, whose word is
itself taken under it (DESIGN CHOICE, assumption 10). -/
def State.ready (s : State) : Bool := !s.rst && decide (s.st = .run) && s.ceIdle

/-- Output `done` (rule R30). -/
def State.doneOut (s : State) : Bool := decide (s.st = .done)

/-- Output `fault` (rule R30). -/
def State.faultOut (s : State) : BitVec 2 := s.fc.code

/-- The block takes a word of its port in this step: it takes tokens, and no word stands on the hand-over, which would be
served first. DESIGN CHOICE (assumption 10): rule R140 has no step that begins with a word there. -/
def State.portReady (s : State) : Bool := s.ready && s.pIn.isEmpty

/-- Output `g_ready` of `CORE`: "the block takes the offered token at this clock edge" (rule R192). 0 while a word stands on
the hand-over (DESIGN CHOICE, assumption 10). -/
def State.gReady (s : State) : Bool := decide (s.cfg.block = .core) && s.portReady

/-- Output `s_ready` of `PIPE`: as `g_ready` (rule R192; DESIGN CHOICE, assumption 10). -/
def State.sReady (s : State) : Bool := decide (s.cfg.block = .pipe) && s.portReady

/-- Input `g_valid`: the host offers a G token (rule R192). -/
def State.gValid (s : State) : Bool := !s.gIn.isEmpty

/-- Input `s_valid`: the host offers an S token (rule R192). -/
def State.sValid (s : State) : Bool := !s.sIn.isEmpty

end Sys2Proof.Machine
end

