-- ==== Sys2Proof/Machine/Operands.lean ====
section
/-! DEFINITION. What the rules compute from operands: threshold, addresses, glyph codes, and the bytes of a chunk. -/

namespace Sys2Proof.Machine

/-- `thr(d)`: unsigned, inclusive (rule R100). -/
def thr (thresh d : Byte) : Bool := decide (thresh.toNat ≤ d.toNat)

/-- The cell of the pixel at row `r`, column `c` (rule R51). -/
def cellAddr (cfg : Config) (r c : Nat) : Nat := r * cfg.w + c

/-- `A(y, x, r, c)`: the cell the packer reads for lane `2*r + c` of grid cell `(y, x)` (rule R52). -/
def blockAddr (cfg : Config) (y x r c : Nat) : Nat := cellAddr cfg (3 * y + r) (2 * x + c)

/-- A pixel's weight in a glyph code. -/
def lane (p : Bool) (weight : Nat) : Nat := if p then weight else 0

/-- `glyph(F, y, x)`, the frame given as the pixel at each cell (rules R102, R108). -/
def glyph (cfg : Config) (px : Nat → Bool) (y x : Nat) : Byte :=
  BitVec.ofNat 8 (128
    + lane (px (blockAddr cfg y x 0 0)) 1 + lane (px (blockAddr cfg y x 0 1)) 2
    + lane (px (blockAddr cfg y x 1 0)) 4 + lane (px (blockAddr cfg y x 1 1)) 8
    + lane (px (blockAddr cfg y x 2 0)) 16 + lane (px (blockAddr cfg y x 2 1)) 32)

/-- The grid positions in row-major order, `y` outer and `x` inner (rules R103, R106). -/
def gridCells (cfg : Config) : List (Nat × Nat) :=
  (List.range cfg.gh).flatMap fun y => (List.range cfg.gw).map fun x => (y, x)

/-- `v[7:6] = 0b10`: `v` is a glyph code, in `128..191` (rules R86, R141). -/
def isGlyph (v : Byte) : Bool := decide (cbTag v = 2)

/-- `v` is one of the two special glyphs (rule R142). -/
def isSpecial (v : Byte) : Bool := decide (v = glyphBlank) || decide (v = glyphFull)

/-- The length of the next chunk, `min(count, 63)` (rule R142). -/
def chunkLen (count : Nat) : Nat := min count maxRun

/-- The run byte of `n` special cells: `n` for blank, `n | 0xC0` for full (rules R73, R142). -/
def runByte (v : Byte) (n : Nat) : Byte :=
  if v = glyphBlank then BitVec.ofNat 8 n else BitVec.ofNat 8 n ||| 0xC0

/-- A chunk of `n` is sent as literals (rule R142). -/
def isLiteralChunk (v : Byte) (n : Nat) : Bool := decide (n = 1) || !isSpecial v

end Sys2Proof.Machine
end

