-- ==== Sys2Proof/Machine/Ops.lean ====
section
/-! DEFINITION. The named operations over registers, the frame buffer, the output and the reference decoder; raising a
fault (rule R204); reset (rule R230). -/

namespace Sys2Proof.Machine

/-! ## The frame buffer (rules R50, R53) -/

/-- What memory `m` lists at address `a`; an address nothing has written since reset is not listed. -/
def Memory.get? : List Host.Cell → Nat → Option Byte
  | [], _ => none
  | (k, b) :: m, a => if a = k then some b else Memory.get? m a

/-- Write byte `b` at address `a`, keeping addresses strictly rising. -/
def Memory.set : List Host.Cell → Nat → Byte → List Host.Cell
  | [], a, b => [(a, b)]
  | (k, c) :: m, a, b =>
    if a < k then (a, b) :: (k, c) :: m
    else if a = k then (a, b) :: m
    else (k, c) :: Memory.set m a b

/-- The entries of `m` lie at strictly rising addresses in `lo..n - 1`, and each holds one bit (0 or 1). -/
def Memory.wfFrom (n : Nat) : Nat → List Host.Cell → Bool
  | _, [] => true
  | lo, (a, b) :: m => decide (lo ≤ a) && decide (a < n) && decide (b.toNat < 2) && Memory.wfFrom n (a + 1) m

/-- The canonical form of a frame buffer of `n` cells. -/
def Memory.wf (n : Nat) (m : List Host.Cell) : Bool := Memory.wfFrom n 0 m

/-- `fb[a]` (rule R53): the bit last written to cell `a`; the free value where nothing has been written since reset. -/
def State.readCell (s : State) (a : Nat) : Bool :=
  match Memory.get? s.fb a with
  | some b => b.getLsbD 0
  | none => Config.unwrittenCell s.epoch a

/-- A pixel as the byte its cell is held as. -/
def pixelByte (p : Bool) : Byte := if p then 1 else 0

/-- `fb[a] <- p` (rule R53). -/
def State.writeCell (s : State) (a : Nat) (p : Bool) : State := { s with fb := Memory.set s.fb a (pixelByte p) }

/-! ## Registers -/

/-- `emit(b)` (rules R11, R31). -/
def State.emit (s : State) (b : Byte) : State := { s with out := s.out ++ [b] }

/-- `st <- x`. -/
def State.setSt (s : State) (x : RunState) : State := { s with st := x }

/-- The run register (rule R23). -/
def State.setRun (s : State) (r : Option OpenRun) : State := { s with openRun := r }

/-- The compact-encoder registers `cv`, `crem`, `clit` (rule R27). -/
def State.setCe (s : State) (v : Byte) (rem lit : Nat) : State := { s with cv := v, crem := rem, clit := lit }

/-- `wp <- a` (rule R25). -/
def State.setWp (s : State) (a : Nat) : State := { s with wp := a }

/-- The scan counters `sy`, `sx` (rule R28). -/
def State.setScan (s : State) (y x : Nat) : State := { s with sy := y, sx := x }

/-- The reference decoder. -/
def State.setDec (s : State) (d : RefDecoder) : State := { s with dec := d }

/-! ## Sequencing and faults (rules R11, R204) -/

/-- How a statement of a rule ends: the next statement follows, or a fault was raised and the step ends there. -/
inductive Flow where
  /-- The next statement follows, in state `s`. -/
  | goes (s : State)
  /-- `raise` ended the step, in state `s`. -/
  | raised (s : State)
deriving DecidableEq, Repr

/-- One statement after another; nothing follows a `raise`. -/
def Flow.andThen : Flow → (State → Flow) → Flow
  | .goes s, k => k s
  | .raised s, _ => .raised s

/-- The state in which a rule ended, either way: "Everything the step did before the `raise` stands" (rule R204). -/
def Flow.state : Flow → State
  | .goes s => s
  | .raised s => s

/-- TAKING AN EXCEPTION: `raise F` (rule R204). `fc <- F`, `st <- FAULT`, the step ends. There is no return (rule R205). -/
def raise (f : FaultCode) (s : State) : Flow := .raised { s with fc := f, st := .fault }

/-- The outcome of a rule run to its end. -/
def finish (f : Flow) : Host.Outcome State Fault Refusal := .next f.state

/-- The guard of every token of the block: refused under a configuration rule R9 refuses; not taken, with no state
changed, when the block is not ready (rules R21, R233); else `r`. -/
def accept (s : State) (r : Host.Outcome State Fault Refusal) : Host.Outcome State Fault Refusal :=
  if s.cfg.wf then (if s.ready then r else .next s) else .refused .badConfiguration

/-- The guard of the tokens of port `S`, which only `PIPE` has (rules R6, R192). -/
def onPortS (s : State) (r : Host.Outcome State Fault Refusal) : Host.Outcome State Fault Refusal :=
  if s.cfg.block = .pipe then r else .refused .noPortS

/-! ## Building a machine (rule R9), and reset (rule R230) -/

/-- A machine of configuration `c`, right after reset; refused when `c` fails the check of rule R9. -/
def State.build (c : Config) : Host.Outcome State Fault Refusal :=
  if c.wf then .next (State.resetWith c) else .refused .badConfiguration

/-- What a clock edge with `rst = 1` does: every register takes its reset value, what is in the block is dropped, a token
offered is not taken, and the model starts a new `out` and a new `consumed`. What the host holds (its offered words, the pin, the reference
decoder) stays; `epoch` counts the reset, so that the frame buffer holds nothing known. -/
def State.applyReset (s : State) : State :=
  { State.resetWith s.cfg with rst := s.rst, sIn := s.sIn, gIn := s.gIn, dec := s.dec, epoch := s.epoch + 1 }

/-! ## The reference decoder (rules R160 to R167) -/

/-- `cells <- cells ++ bs`. -/
def RefDecoder.append (d : RefDecoder) (bs : List Byte) : RefDecoder := { d with cells := d.cells ++ bs }

/-- `END` (rule R161): the end of the stream where a frame would begin, else the end of the frame. -/
def RefDecoder.endFrame (d : RefDecoder) : RefDecoder :=
  if d.cells = [] then { d with verdict := .complete }
  else { d with frames := d.frames ++ [d.cells], cells := [] }

/-- Stop with a verdict that returns no frame (rules R165, R166). -/
def RefDecoder.stop (d : RefDecoder) (v : Verdict) : RefDecoder := { d with verdict := v, cells := [], frames := [] }

/-- A byte is read only while the decoder runs: it has returned otherwise (rule R167). -/
def decoderTakes (s : State) (d : RefDecoder) : Host.Outcome State Fault Refusal :=
  if s.dec.verdict = .running then .next (s.setDec d) else .next s

end Sys2Proof.Machine
end

