-- ==== Sys2Proof/Machine/ByteRecords.lean ====
section
/-! DEFINITION. The compact-byte classes as the reference decoder reads them (43_byte_records.md). -/

namespace Sys2Proof.Machine

/-- `END` (rule R161). -/
def execEndByte (s : State) : Host.Outcome State Fault Refusal := decoderTakes s s.dec.endFrame

/-- `BLK n` (rule R162). -/
def execBlk (n : BitVec 6) (s : State) : Host.Outcome State Fault Refusal :=
  decoderTakes s (s.dec.append (List.replicate n.toNat glyphBlank))

/-- `LIT v` (rule R163). -/
def execLit (v : Byte) (s : State) : Host.Outcome State Fault Refusal := decoderTakes s (s.dec.append [v])

/-- `FUL n` (rule R164). -/
def execFul (n : BitVec 6) (s : State) : Host.Outcome State Fault Refusal :=
  decoderTakes s (s.dec.append (List.replicate n.toNat glyphFull))

/-- `RSV1` (rule R165). -/
def execRsv1 (s : State) : Host.Outcome State Fault Refusal := decoderTakes s (s.dec.stop .invalid)

/-- `RSVF0` (rule R165). -/
def execRsvf0 (s : State) : Host.Outcome State Fault Refusal := decoderTakes s (s.dec.stop .invalid)

end Sys2Proof.Machine
end

