-- ==== Sys2Proof/Machine/CompactEncoder.lean ====
section
/-! DEFINITION. The compact-encoder stage (42_compact.md): micro-steps, `send_P`, and the tokens `PAIR`, `MEOF`, `MEOS`. -/

namespace Sys2Proof.Machine

/-- The micro-step that starts a chunk (rule R143), enabled when `clit = 0` and `crem > 0`. -/
def startChunk (s : State) : State :=
  if isLiteralChunk s.cv (chunkLen s.crem) then
    (s.setCe s.cv (s.crem - chunkLen s.crem) (chunkLen s.crem - 1)).emit s.cv
  else
    (s.setCe s.cv (s.crem - chunkLen s.crem) s.clit).emit (runByte s.cv (chunkLen s.crem))

/-- The micro-step that continues a literal chunk (rule R144), enabled when `clit > 0`. -/
def continueChunk (s : State) : State := (s.setCe s.cv s.crem (s.clit - 1)).emit s.cv

/-- `micro_step()`: R144 when `clit > 0`, R143 when `clit = 0` and `crem > 0`; nothing is enabled when idle. -/
def microStep (s : State) : State :=
  if 0 < s.clit then continueChunk s else if 0 < s.crem then startChunk s else s

/-- `while crem > 0 or clit > 0: micro_step()`, on fuel: every micro-step lowers `crem + clit`. -/
def drain : Nat → State → State
  | 0, s => s
  | n + 1, s => if s.ceIdle then s else drain n (microStep s)

/-- Rule R141, `PAIR v c`. -/
def cePair (v : Byte) (c : Nat) (s : State) : Flow :=
  if isGlyph v then .goes (drain c (s.setCe v c 0)) else raise .inv s

/-- Rule R147, `MEOF`. -/
def ceMeof (s : State) : Flow := .goes (s.emit 0x00)

/-- Rule R148, `MEOS`: `st <- DONE` after the `emit`. -/
def ceMeos (s : State) : Flow := .goes ((s.emit 0x00).setSt .done)

/-- A P token as the three-way sum of rule R84. -/
inductive PToken where
  /-- An RLE pair. -/
  | pair (v : Byte) (c : Nat)
  /-- End of frame. -/
  | meof
  /-- End of stream. -/
  | meos
deriving DecidableEq, Repr

/-- `send_P(t)` (rule R140). -/
def sendP : PToken → State → Flow
  | .pair v c, s => cePair v c s
  | .meof, s => ceMeof s
  | .meos, s => ceMeos s

/-- `PAIR v c` handed to the compact encoder (rule R141). -/
def execPair (v : Byte) (c : Nat) (s : State) : Host.Outcome State Fault Refusal := accept s (finish (sendP (.pair v c) s))

/-- `MEOF` (rule R147). -/
def execMeof (s : State) : Host.Outcome State Fault Refusal := accept s (finish (sendP .meof s))

/-- `MEOS` (rule R148). -/
def execMeos (s : State) : Host.Outcome State Fault Refusal := accept s (finish (sendP .meos s))

end Sys2Proof.Machine
end

