-- ==== Sys2Proof/Machine/RunLength.lean ====
section
/-! DEFINITION. The run-length stage (41_rle.md): `send_G`, and the tokens `G`, `EOF`, `EOS` and the reserved kind. -/

namespace Sys2Proof.Machine

/-- Rule R123, `G v`. -/
def rleG (v : Byte) (s : State) : Flow :=
  match s.openRun with
  | some r =>
    if v = r.rv then
      if r.rc = s.cfg.cntMax then raise .ovf s
      else .goes (s.setRun (some { rv := r.rv, rc := r.rc + 1 }))
    else
      (sendP (.pair r.rv r.rc) s).andThen fun t => .goes (t.setRun (some { rv := v, rc := 1 }))
  | none => .goes (s.setRun (some { rv := v, rc := 1 }))

/-- Rule R124, `EOF`. -/
def rleEof (s : State) : Flow :=
  match s.openRun with
  | some r => (sendP (.pair r.rv r.rc) s).andThen fun t => sendP .meof (t.setRun none)
  | none => sendP .meof s

/-- Rule R125, `EOS`. -/
def rleEos (s : State) : Flow :=
  match s.openRun with
  | some _ => raise .proto s
  | none => sendP .meos s

/-- Rule R126, a token of kind 3. -/
def rleReserved (s : State) : Flow := raise .proto s

/-- A G token as a sum (rule R80). -/
inductive GToken where
  /-- One glyph. -/
  | g (v : Byte)
  /-- End of frame. -/
  | eof
  /-- End of stream. -/
  | eos
  /-- The reserved kind 3. -/
  | reserved
deriving DecidableEq, Repr

/-- `step_core`, and so `send_G(t)` (rule R181). -/
def sendG : GToken → State → Flow
  | .g v, s => rleG v s
  | .eof, s => rleEof s
  | .eos, s => rleEos s
  | .reserved, s => rleReserved s

/-- `G v` (rule R123). -/
def execG (v : Byte) (s : State) : Host.Outcome State Fault Refusal := accept s (finish (sendG (.g v) s))

/-- `EOF` (rule R124). -/
def execEof (s : State) : Host.Outcome State Fault Refusal := accept s (finish (sendG .eof s))

/-- `EOS` (rule R125). -/
def execEos (s : State) : Host.Outcome State Fault Refusal := accept s (finish (sendG .eos s))

/-- The reserved G token (rule R126). -/
def execGrsv (s : State) : Host.Outcome State Fault Refusal := accept s (finish (sendG .reserved s))

end Sys2Proof.Machine
end

