-- ==== Sys2Proof/Machine/FrontEnd.lean ====
section
/-! DEFINITION. The front end (40_front_end.md): loading a sample, the packer scan, and the tokens `S` and `FIN`. -/

namespace Sys2Proof.Machine

/-- The glyph of grid cell `(y, x)` of the frame in `fb` (rules R102, R106). -/
def State.glyphAt (s : State) (y x : Nat) : Byte := glyph s.cfg s.readCell y x

/-- The two loops of `SCAN()` over the grid cells left: read the cell's glyph, send it (rule R106). -/
def scanCells : List (Nat × Nat) → State → Flow
  | [], s => .goes s
  | (y, x) :: rest, s => (sendG (.g (s.glyphAt y x)) (s.setScan y x)).andThen (scanCells rest)

/-- `SCAN()` (rule R106). -/
def scan (s : State) : Flow := (scanCells (gridCells s.cfg) s).andThen (sendG .eof)

/-- The body of rule R105, `S d`, for `wp` a cell of the frame buffer. -/
def loadSample (d : Byte) (s : State) : Flow :=
  if s.wp = s.cfg.npix - 1 then scan ((s.writeCell s.wp (thr s.cfg.thresh d)).setWp 0)
  else .goes ((s.writeCell s.wp (thr s.cfg.thresh d)).setWp (s.wp + 1))

/-- The body of rule R107, `FIN`. -/
def endSamples (s : State) : Flow := if s.wp ≠ 0 then raise .proto s else sendG .eos s

/-- `S d` (rule R105). -/
def execS (d : Byte) (s : State) : Host.Outcome State Fault Refusal :=
  onPortS s (accept s (if s.wp < s.cfg.npix then finish (loadSample d s) else .fault .noSuchCell))

/-- `FIN` (rule R107). -/
def execFin (s : State) : Host.Outcome State Fault Refusal := onPortS s (accept s (finish (endSamples s)))

end Sys2Proof.Machine
end

