-- ==== Sys2Proof/Machine/Dispatch.lean ====
section
/-! DEFINITION. One arm per constructor of `Instr`, each a direct call of the instruction's meaning. -/

namespace Sys2Proof.Machine

def exec (i : Instr) (s : State) : Host.Outcome State Fault Refusal :=
  match i with
  | .s d => Sys2Proof.Machine.execS d s
  | .fin => Sys2Proof.Machine.execFin s
  | .g v => Sys2Proof.Machine.execG v s
  | .eof => Sys2Proof.Machine.execEof s
  | .eos => Sys2Proof.Machine.execEos s
  | .grsv => Sys2Proof.Machine.execGrsv s
  | .pair v c => Sys2Proof.Machine.execPair v c s
  | .meof => Sys2Proof.Machine.execMeof s
  | .meos => Sys2Proof.Machine.execMeos s
  | .endByte => Sys2Proof.Machine.execEndByte s
  | .blk n => Sys2Proof.Machine.execBlk n s
  | .rsv1 => Sys2Proof.Machine.execRsv1 s
  | .lit v => Sys2Proof.Machine.execLit v s
  | .rsvf0 => Sys2Proof.Machine.execRsvf0 s
  | .ful n => Sys2Proof.Machine.execFul n s

end Sys2Proof.Machine
end

