-- ==== Sys2Proof/Machine/Fetch.lean ====
section
/-! DEFINITION. Which word the next step takes off which channel (rules R65, R180 to R182, R193). -/

namespace Sys2Proof.Machine

/-- The next byte of the reference decoder's input, while it runs, and the state with that byte read. -/
def fetchByte (s : State) : Option (PortWord × State) :=
  match s.dec.verdict, s.dec.input with
  | .running, some (b :: bs) => some (.cb b, { s with dec := { s.dec with input := some bs } })
  | _, _ => none

/-- The next word of the block's own port: `G` of a `CORE`, `S` of a `PIPE` (rule R6). Its token is consumed (rule R12). -/
def fetchPort (s : State) : Option (PortWord × State) :=
  match s.cfg.block with
  | .core =>
    match s.gIn with
    | w :: ws => some (.gt w, { s with gIn := ws, consumed := s.consumed ++ [decodeGT w] })
    | [] => none
  | .pipe =>
    match s.sIn with
    | w :: ws => some (.st w, { s with sIn := ws, consumed := s.consumed ++ [decodeST w] })
    | [] => none

/-- The next word of the block: the hand-over to `CE` first, since what is downstream is done first (rule R140), then the
block's port. No word is taken unless the block is ready (rules R21, R193). -/
def fetchBlock (s : State) : Option (PortWord × State) :=
  if s.ready then
    match s.pIn with
    | w :: ws => some (.pt w, { s with pIn := ws })
    | [] => fetchPort s
  else none

/-- The word the next step takes, with the state after it is off its channel; the block's word before the reference
decoder's (assumption 6). -/
def fetch (s : State) : Option (PortWord × State) :=
  match fetchBlock s with
  | some x => some x
  | none => fetchByte s

/-- A step with no word to take. A compact encoder that is busy takes its next micro-step (rules R143, R144); a reference
decoder whose bytes ran out answers `truncated` (rule R166); else nothing happens (rules R21, R212). -/
def idleStep (s : State) : State :=
  if s.st = .run ∧ s.ceIdle = false then microStep s
  else if s.dec.verdict = .running ∧ s.dec.input = some [] then s.setDec (s.dec.stop .truncated)
  else s

/-- The state with a word laid where the next step takes it: on the channel of its format, ahead of what waits there,
with the selection that takes it (assumption 7). -/
def placeWord (s : State) : PortWord → State
  | .st w =>
    { s with
      cfg := { s.cfg with block := .pipe }, rst := false, st := .run, fc := .none, crem := 0, clit := 0, pIn := [],
      sIn := w :: s.sIn }
  | .gt w =>
    { s with
      cfg := { s.cfg with block := .core }, rst := false, st := .run, fc := .none, crem := 0, clit := 0, pIn := [],
      gIn := w :: s.gIn }
  | .pt w => { s with rst := false, st := .run, fc := .none, crem := 0, clit := 0, pIn := w :: s.pIn }
  | .cb b =>
    { s with
      rst := false, pIn := [], gIn := [], sIn := [],
      dec := { s.dec with input := some (b :: s.dec.input.getD []), verdict := .running } }

end Sys2Proof.Machine
end

