-- ==== Sys2Proof/Machine/Step.lean ====
section
/-! DEFINITION. One step of the machine (rule R12), and placing a word for the next step to take. -/

namespace Sys2Proof.Machine

/-- One step. A configuration that fails the check of rule R9 has none. `rst = 1`: the reset edge (rule R230). A word to
take: it is off its channel, and its instruction runs to completion (rules R12, R181, R182). No word: `idleStep`. -/
def step (s : State) : Host.Outcome State Fault Refusal :=
  if s.cfg.wf then
    if s.rst then .next s.applyReset
    else
      match fetch s with
      | some (w, t) =>
        match decode s.cfg.cntW w with
        | .ok i => exec i t
        | .error e => .refused (.noSuchWord e)
      | none => .next (idleStep s)
  else .refused .badConfiguration

/-- `s` with the word `w` of a row of `nbits` bits laid where `step` takes its next word. -/
def State.withFetchWord (s : State) (nbits w : Nat) : State :=
  match tableFormat nbits w with
  | some p => placeWord s p
  | none => s

end Sys2Proof.Machine
end

