-- ==== Sys2Proof/Machine/Golden.lean ====
section
/-! DEFINITION. The golden functions (rule R13): each stage as a pure function over finite sequences. -/

namespace Sys2Proof.Machine

/-- `rle` (rule R120), by recursion on the sequence: a value equal to the first value of the rest lengthens its run. -/
def rle : List Byte → List (Byte × Nat)
  | [] => []
  | g :: rest =>
    match rle rest with
    | (v, k) :: ps => if v = g then (g, k + 1) :: ps else (g, 1) :: (v, k) :: ps
    | [] => [(g, 1)]

/-- Each pair `(v, c)` expanded to `[v] * c`, concatenated (rule R121 (d)). -/
def expandPairs (ps : List (Byte × Nat)) : List Byte := ps.flatMap fun p => List.replicate p.2 p.1

/-- `piece(v, n)` (rule R145). -/
def piece (v : Byte) (n : Nat) : List Byte := if isLiteralChunk v n then List.replicate n v else [runByte v n]

/-- `chunk(v, c)` on fuel (rule R145). -/
def chunkFuel : Nat → Byte → Nat → List Byte
  | 0, _, _ => []
  | k + 1, v, c => if c = 0 then [] else piece v (chunkLen c) ++ chunkFuel k v (c - chunkLen c)

/-- `chunk(v, c)`: the bytes of one pair (rule R145). Every chunk takes at least 1 off the count, so fuel `c` is enough. -/
def chunk (v : Byte) (c : Nat) : List Byte := chunkFuel c v c

/-- `compact(ps)`: the bytes of a frame's pairs, without the terminator (rule R146). -/
def compact (ps : List (Byte × Nat)) : List Byte := ps.flatMap fun p => chunk p.1 p.2

/-- `encode_frame(gs)` (rule R185). -/
def encodeFrame (gs : List Byte) : List Byte := compact (rle gs) ++ [0x00]

/-- `encode_stream(fs)` (rule R186). -/
def encodeStream (fs : List (List Byte)) : List Byte := fs.flatMap encodeFrame ++ [0x00]

/-- `pack(F)` (rule R103). -/
def pack (cfg : Config) (px : Nat → Bool) : List Byte := (gridCells cfg).map fun p => glyph cfg px p.1 p.2

/-- `fe(D)` (rule R109): the glyphs of a sample frame. -/
def fe (cfg : Config) (samples : List Byte) : List Byte := pack cfg fun a => thr cfg.thresh (samples.getD a 0)

/-- What `decode_frame` returns (rule R166). -/
inductive FrameResult where
  /-- The frame's cells and the bytes after it. -/
  | frame (cells rest : List Byte)
  /-- A reserved byte. -/
  | invalid
  /-- The bytes ran out. -/
  | truncated
deriving DecidableEq, Repr

/-- The loop of `decode_frame`, with the cells so far (rule R166). -/
def decodeFrameLoop (cells : List Byte) : List Byte → FrameResult
  | [] => .truncated
  | b :: bs =>
    if b = 0x00 then .frame cells bs
    else if cbTag b = 0 then decodeFrameLoop (cells ++ List.replicate (cbLen b).toNat glyphBlank) bs
    else if cbTag b = 2 then decodeFrameLoop (cells ++ [b]) bs
    else if cbTag b = 3 ∧ b ≠ 0xC0 then decodeFrameLoop (cells ++ List.replicate (cbLen b).toNat glyphFull) bs
    else .invalid

/-- `decode_frame(bs)` (rule R166). -/
def decodeFrame (bs : List Byte) : FrameResult := decodeFrameLoop [] bs

/-- What `decode_stream` returns (rule R167). -/
inductive StreamResult where
  /-- The frames and the bytes after the end of the stream. -/
  | frames (fs : List (List Byte)) (rest : List Byte)
  /-- A reserved byte. -/
  | invalid
  /-- The bytes ran out. -/
  | truncated
deriving DecidableEq, Repr

/-- The loop of `decode_stream`, on fuel, with the frames so far (rule R167). -/
def decodeStreamLoop : Nat → List (List Byte) → List Byte → StreamResult
  | 0, _, _ => .truncated
  | k + 1, frames, bs =>
    match decodeFrame bs with
    | .invalid => .invalid
    | .truncated => .truncated
    | .frame cells rest => if cells = [] then .frames frames rest else decodeStreamLoop k (frames ++ [cells]) rest

/-- `decode_stream(bs)` (rule R167). Every frame takes at least one byte, so one more than the bytes is fuel enough. -/
def decodeStream (bs : List Byte) : StreamResult := decodeStreamLoop (bs.length + 1) [] bs

/-- The byte values the encoder can emit (rule R77): `0x00`, `0x02..0x3F`, `0x80..0xBF`, `0xC2..0xFF`. -/
def emittable (b : Byte) : Bool :=
  decide (b = 0x00) || decide (0x02 ≤ b.toNat ∧ b.toNat ≤ 0x3F) || decide (0x80 ≤ b.toNat ∧ b.toNat ≤ 0xBF)
    || decide (0xC2 ≤ b.toNat)

/-- The tokens of one frame on port `G`: its glyphs, then `EOF` (rule R80). -/
def frameTokens (gs : List Byte) : List Instr := gs.map Instr.g ++ [.eof]

/-- The tokens of a stream on port `G` (rules R80, R187). -/
def streamTokens (fs : List (List Byte)) : List Instr := fs.flatMap frameTokens ++ [.eos]

/-- The tokens of sample frames on port `S`, without `FIN` (rules R82, R188). -/
def sampleTokens (ds : List (List Byte)) : List Instr := ds.flatMap fun d => d.map Instr.s

end Sys2Proof.Machine
end

