-- ==== Sys2Proof/Machine/Text.lean ====
section
/-! DEFINITION. The textual form of tokens and bytes (rule R88) and the pseudo-instructions (rule R89), the spec's own
notation for writing programs down. Text is a list of characters. -/

namespace Sys2Proof.Machine

/-- The decimal digit of a number below ten. -/
def digitChar (n : Nat) : Char :=
  (['0', '1', '2', '3', '4', '5', '6', '7', '8', '9', 'A', 'B', 'C', 'D', 'E', 'F'].getD n '0')

/-- A number below 1000 in decimal. -/
def decimal (n : Nat) : List Char :=
  if n < 10 then [digitChar n]
  else if n < 100 then [digitChar (n / 10), digitChar (n % 10)]
  else [digitChar (n / 100), digitChar (n / 10 % 10), digitChar (n % 10)]

/-- A byte as two hexadecimal digits. -/
def hexByte (b : Byte) : List Char := [digitChar (b.toNat / 16), digitChar (b.toNat % 16)]

/-- One token of port `S` or `G`, or one compact byte, as a line of text (rule R88); the reserved words and the internal P
tokens have no mnemonic there. A reserved byte is listed by `listByte`. -/
def tokenText : Instr → Option (List Char)
  | .s d => some (['S', ' '] ++ decimal d.toNat)
  | .fin => some ['F', 'I', 'N']
  | .g v => some (['G', ' '] ++ decimal v.toNat)
  | .eof => some ['E', 'O', 'F']
  | .eos => some ['E', 'O', 'S']
  | .endByte => some ['E', 'N', 'D']
  | .blk n => some (['B', 'L', 'K', ' '] ++ decimal n.toNat)
  | .lit v => some (['L', 'I', 'T', ' '] ++ decimal v.toNat)
  | .ful n => some (['F', 'U', 'L', ' '] ++ decimal n.toNat)
  | .grsv | .pair _ _ | .meof | .meos | .rsv1 | .rsvf0 => none

/-- One compact byte as a line of a disassembly (rule R88): its class, or `.byte 0x<hh>` for a reserved value. -/
def listByte (b : Byte) : List Char :=
  (tokenText (decodeCB b)).getD (['.', 'b', 'y', 't', 'e', ' ', '0', 'x'] ++ hexByte b)

/-- Bytes in one line of hexadecimal (rule R88). -/
def hexLine : List Byte → List Char
  | [] => []
  | [b] => hexByte b
  | b :: bs => hexByte b ++ ' ' :: hexLine bs

/-- `G <v> *<k>` (rule R89). -/
def repeatG (v : Byte) (k : Nat) : List Instr := List.replicate k (.g v)

/-- `S <d> *<k>` (rule R89). -/
def repeatS (d : Byte) (k : Nat) : List Instr := List.replicate k (.s d)

/-- `GFRAME <list>` (rule R89). -/
def gFrame (gs : List Byte) : List Instr := frameTokens gs

/-- `SROW <d0> … <d(W-1)>` (rule R89): a row has `W` samples. -/
def sRow (cfg : Config) (ds : List Byte) : Option (List Instr) := if ds.length = cfg.w then some (ds.map Instr.s) else none

/-- `SFRAME <d>` (rule R89): a whole frame of one intensity. -/
def sFrame (cfg : Config) (d : Byte) : List Instr := repeatS d cfg.npix

/-- The value of a digit in base 10 or 16. -/
def digitValue (base : Nat) (c : Char) : Option Nat :=
  let v := if '0' ≤ c ∧ c ≤ '9' then c.toNat - '0'.toNat
    else if 'a' ≤ c ∧ c ≤ 'f' then c.toNat - 'a'.toNat + 10
    else if 'A' ≤ c ∧ c ≤ 'F' then c.toNat - 'A'.toNat + 10
    else base
  if v < base then some v else none

/-- A non-empty string of digits in a base, after the digits read so far. -/
def readDigits (base : Nat) : Nat → List Char → Option Nat
  | acc, [] => some acc
  | acc, c :: cs =>
    match digitValue base c with
    | some v => readDigits base (acc * base + v) cs
    | none => none

/-- A number, decimal or `0x` hexadecimal (rule R88). -/
def readNumber : List Char → Option Nat
  | [] => none
  | '0' :: 'x' :: c :: cs => readDigits 16 0 (c :: cs)
  | cs => readDigits 10 0 cs

/-- An operand of a byte's range. -/
def readByte (cs : List Char) : Option Byte :=
  match readNumber cs with
  | some n => if n < 256 then some (BitVec.ofNat 8 n) else none
  | none => none

/-- A line without its comment: what stands before the first `;` (rule R88). -/
def stripComment : List Char → List Char
  | [] => []
  | c :: cs => if c = ';' then [] else c :: stripComment cs

/-- The words of a line: the character lists between blanks, the word being read held reversed. -/
def splitWords : List Char → List Char → List (List Char)
  | cur, [] => if cur = [] then [] else [cur.reverse]
  | cur, c :: cs =>
    if c = ' ' then (if cur = [] then splitWords [] cs else cur.reverse :: splitWords [] cs) else splitWords (c :: cur) cs

/-- A repetition count `*<k>`, a non-negative decimal (rule R89). -/
def readCount : List Char → Option Nat
  | '*' :: c :: cs => readDigits 10 0 (c :: cs)
  | _ => none

/-- The pieces of a text between the occurrences of a character. -/
def splitAtChar (c : Char) : List Char → List (List Char)
  | [] => [[]]
  | x :: xs =>
    if x = c then [] :: splitAtChar c xs
    else
      match splitAtChar c xs with
      | w :: ws => (x :: w) :: ws
      | [] => [[x]]

/-- One summand of a list: `[a, b]` or `[a, b]*k` (rules R10, R89), without blanks. -/
def readSummand (cs : List Char) : Option (List Byte) :=
  match splitAtChar ']' cs with
  | ['[' :: inner, suffix] =>
    (if inner = [] then some [] else (splitAtChar ',' inner).mapM readByte).bind fun es =>
      match suffix with
      | [] => some es
      | cs => (readCount cs).map fun k => (List.replicate k es).flatten
  | _ => none

/-- A list in the document's notation, summands joined by `+` (rule R89), without blanks. -/
def readList (cs : List Char) : Option (List Byte) := ((splitAtChar '+' cs).mapM readSummand).map List.flatten

/-- The tokens of one line of text: a token (rule R88) or a pseudo-instruction (rule R89); an empty line or a comment gives
none. -/
def assembleWords (cfg : Config) : List (List Char) → Option (List Instr)
  | [] => some []
  | [['F', 'I', 'N']] => some [.fin]
  | [['E', 'O', 'F']] => some [.eof]
  | [['E', 'O', 'S']] => some [.eos]
  | [['S'], d] => (readByte d).map fun d => [.s d]
  | [['G'], v] => (readByte v).map fun v => [.g v]
  | [['S'], d, k] => (readByte d).bind fun d => (readCount k).map fun k => repeatS d k
  | [['G'], v, k] => (readByte v).bind fun v => (readCount k).map fun k => repeatG v k
  | [['S', 'F', 'R', 'A', 'M', 'E'], d] => (readByte d).map fun d => sFrame cfg d
  | ['G', 'F', 'R', 'A', 'M', 'E'] :: ws => (readList ws.flatten).map gFrame
  | ['S', 'R', 'O', 'W'] :: ds => (ds.mapM readByte).bind fun ds => sRow cfg ds
  | _ => none

/-- The tokens of one line of text (rules R88, R89). -/
def assembleLine (cfg : Config) (line : List Char) : Option (List Instr) := assembleWords cfg (splitWords [] (stripComment line))

/-- The tokens of a program, line after line (rules R88, R89). -/
def assemble (cfg : Config) (lines : List (List Char)) : Option (List Instr) := (lines.mapM (assembleLine cfg)).map List.flatten

end Sys2Proof.Machine
end

