-- ==== Sys2Proof/Safety.lean ====
section
/-! DEFINITION. What claims about the block speak of: token boundaries and their invariant (rule R38), register ranges
(rule R20), observations (rule R191), the state transitions of rule R183, and feeding a sequence of tokens. -/

namespace Sys2Proof.Machine

/-- The invariant at token boundaries, rule R38 (a) to (e), with the ranges of `sy` and `sx` (rule R20), the configuration
check (rule R9), the canonical form of the frame buffer, and, for (e), that cells `0..wp - 1` have been written. -/
structure State.Inv (s : State) : Prop where
  /-- Rule R9. -/
  cfgOk : s.cfg.wf = true
  /-- R38 (a). -/
  crem : s.crem = 0
  /-- R38 (a). -/
  clit : s.clit = 0
  /-- R38 (b). -/
  run : ∀ r, s.openRun = some r → 1 ≤ r.rc ∧ r.rc ≤ s.cfg.cntMax
  /-- R38 (c). -/
  wp : s.wp < s.cfg.npix
  /-- R38 (d). -/
  fault : s.fc = .none ↔ s.st ≠ .fault
  /-- R38 (e), first half. -/
  closed : s.cfg.block = .pipe → s.st = .run → s.openRun = none
  /-- R38 (e), second half. -/
  written : ∀ a, a < s.wp → (Memory.get? s.fb a).isSome = true
  /-- The frame buffer's canonical form. -/
  mem : Memory.wf s.cfg.npix s.fb = true
  /-- R20: `sy` is a grid row. -/
  sy : s.sy < s.cfg.gh
  /-- R20: `sx` is a grid column. -/
  sx : s.sx < s.cfg.gw

/-- A token boundary at which the block takes a token and no frame is open: what a stream starts from, and what rule R189
says every frame leaves. -/
structure State.Fresh (s : State) : Prop where
  /-- Rule R9. -/
  cfgOk : s.cfg.wf = true
  /-- `rst` is released. -/
  rst : s.rst = false
  /-- `st = RUN`. -/
  st : s.st = .run
  /-- `fc = NONE`. -/
  fc : s.fc = .none
  /-- `rvalid = 0`. -/
  closed : s.openRun = none
  /-- `CE` idle. -/
  crem : s.crem = 0
  /-- `CE` idle. -/
  clit : s.clit = 0

/-- What a claim about the block may speak of (rule R191): the tokens consumed, the bytes emitted, and `st` and `fc`. -/
structure Observation where
  /-- The sequence of tokens consumed. -/
  consumed : List Instr
  /-- `out`. -/
  out : List Byte
  /-- `st`. -/
  st : RunState
  /-- `fc`. -/
  fc : FaultCode
deriving DecidableEq, Repr

/-- The observation of a state (rule R191). -/
def State.observe (s : State) : Observation := { consumed := s.consumed, out := s.out, st := s.st, fc := s.fc }

/-- The transitions of `st` without reset (rule R183). -/
def RunState.mayBecome : RunState → RunState → Bool
  | .run, _ => true
  | .done, .done => true
  | .fault, .fault => true
  | _, _ => false

/-- A token the block itself takes: of port `S`, of port `G`, or of the hand-over to `CE`; not a compact byte, which only
the reference decoder reads. -/
def blockToken : Instr → Bool
  | .s _ | .fin | .g _ | .eof | .eos | .grsv | .pair _ _ | .meof | .meos => true
  | .endByte | .blk _ | .rsv1 | .lit _ | .rsvf0 | .ful _ => false

/-- A token of `CORE`: of port `G`, or of the hand-over to `CE`. -/
def coreToken : Instr → Bool
  | .g _ | .eof | .eos | .grsv | .pair _ _ | .meof | .meos => true
  | .s _ | .fin | .endByte | .blk _ | .rsv1 | .lit _ | .rsvf0 | .ful _ => false

/-- One token after another, each run by `exec`, as long as each gives a next state. -/
def feed : List Instr → State → Host.Outcome State Fault Refusal
  | [], s => .next s
  | i :: is, s =>
    match exec i s with
    | .next t => feed is t
    | .fault r => .fault r
    | .refused r => .refused r

/-- A glyph code (rule R86). -/
def AllGlyphs (gs : List Byte) : Prop := ∀ g ∈ gs, isGlyph g = true

/-- No run of the frame is longer than `CNT_MAX` (rule R187). -/
def RunsFit (cfg : Config) (gs : List Byte) : Prop := ∀ p ∈ rle gs, p.2 ≤ cfg.cntMax

/-- What the reference decoder has returned, once it has (rules R166, R167). -/
def RefDecoder.result (d : RefDecoder) : Option StreamResult :=
  match d.verdict with
  | .running => none
  | .complete => some (.frames d.frames (d.input.getD []))
  | .invalid => some .invalid
  | .truncated => some .truncated

end Sys2Proof.Machine
end

