-- ==== Sys2Proof/Certificates/Slice0/Obligations.lean ====
section
/-! DEFINITION. The statements for the provers, in the order of OBLIGATIONS.json. -/

open Sys2Proof Sys2Proof.Machine

/-! ## Encodings -/

/-- O1. Rules R70, R72, R80, R82, R84: for every well-formed instruction and every `CNT_W`, decoding its encoding gives it
back. -/
def Obligations.DecodeOfEncodeIsIdentity : Prop :=
  ∀ (cntW : Nat) (i : Instr), i.wf cntW = true → decode cntW (encode cntW i) = .ok i

/-- O2. What the decoder reads from any word is well formed (operand ranges of rules R72, R84). -/
def Obligations.DecodedInstrIsWellFormed : Prop :=
  ∀ (cntW : Nat) (p : PortWord) (i : Instr), decode cntW p = .ok i → i.wf cntW = true

/-- O3. Rule R75: the six classes of compact bytes, each met by exactly the bytes the rule gives it, so that they are
disjoint and cover all 256; the literals `0x80` and `0xBF` are not run bytes. -/
def Obligations.CompactByteClassesPartition : Prop :=
  ∀ b : Byte,
    (decodeCB b = .endByte ↔ b = 0x00) ∧
    (decodeCB b = .blk (cbLen b) ↔ cbTag b = 0 ∧ cbLen b ≠ 0) ∧
    (decodeCB b = .rsv1 ↔ cbTag b = 1) ∧
    (decodeCB b = .lit b ↔ cbTag b = 2) ∧
    (decodeCB b = .rsvf0 ↔ b = 0xC0) ∧
    (decodeCB b = .ful (cbLen b) ↔ cbTag b = 3 ∧ cbLen b ≠ 0) ∧
    decodeCB b ∈ [.endByte, .blk (cbLen b), .rsv1, .lit b, .rsvf0, .ful (cbLen b)] ∧
    cbTag 0x80 = 2 ∧ cbTag 0xBF = 2

/-- O4. Rules R80, R82, R84: the kind field alone selects the token and the data of a token without operand is ignored;
a P word of kind 3 is no token. -/
def Obligations.KindFieldSelectsToken : Prop :=
  ∀ (d : Byte) (cntW : Nat) (v : Byte) (c : Nat), c < 2 ^ cntW →
    decode cntW (.st (0#1 ++ d)) = .ok (.s d) ∧
    decode cntW (.st (1#1 ++ d)) = .ok .fin ∧
    decode cntW (.gt (0#2 ++ d)) = .ok (.g d) ∧
    decode cntW (.gt (1#2 ++ d)) = .ok .eof ∧
    decode cntW (.gt (2#2 ++ d)) = .ok .eos ∧
    decode cntW (.gt (3#2 ++ d)) = .ok .grsv ∧
    decode cntW (.pt (0 * 2 ^ (cntW + 8) + v.toNat * 2 ^ cntW + c)) = .ok (.pair v c) ∧
    decode cntW (.pt (1 * 2 ^ (cntW + 8) + v.toNat * 2 ^ cntW + c)) = .ok .meof ∧
    decode cntW (.pt (2 * 2 ^ (cntW + 8) + v.toNat * 2 ^ cntW + c)) = .ok .meos ∧
    decode cntW (.pt (3 * 2 ^ (cntW + 8) + v.toNat * 2 ^ cntW + c)) = .error .pKind3

/-- O5. Words written out from the encoding tables decode to what they stand for, one of each format and family (rules R72,
R80, R82, R84; words of 95_test_vectors.md). -/
def Obligations.SampleWordsDecodeRight : Prop :=
  decode 11 (.st 0b0_11001000) = .ok (.s 200) ∧
  decode 11 (.st 0b1_11111111) = .ok .fin ∧
  decode 11 (.gt 0b00_10010110) = .ok (.g 150) ∧
  decode 11 (.gt 0b01_10101011) = .ok .eof ∧
  decode 11 (.gt 0b10_11001101) = .ok .eos ∧
  decode 11 (.gt 0b11_11111111) = .ok .grsv ∧
  decode 11 (.pt 0b00_10000000_00001000110) = .ok (.pair 128 70) ∧
  decode 11 (.pt 0b01_00000000_00000000000) = .ok .meof ∧
  decode 11 (.cb 0b00_000111) = .ok (.blk 7) ∧
  decode 11 (.cb 0b11_000010) = .ok (.ful 2) ∧
  decode 11 (.cb 0b10_010110) = .ok (.lit 150)

/-- O6. Rule R88: the text of every S and G token, and of `FIN`, `EOF` and `EOS`, reads back as that token, with a comment
after it. -/
def Obligations.TokenTextReadsBack : Prop :=
  ∀ (cfg : Config) (d : Byte), ∀ i ∈ [Instr.s d, .g d, .fin, .eof, .eos],
    ∃ line, tokenText i = some line ∧ assembleLine cfg (line ++ [' ', ';', ' ', 'x']) = some [i]

/-! ## Configuration, reset, stopping -/

/-- O7. Rules R8, R9 and U4: a configuration outside the constraints, zero geometry among them, is refused when it is
built, and every other is built. That the refused one has no step either, not even the reset edge, and that every token of
the block is refused under it, is the model's choice (assumption 12). -/
def Obligations.BadConfigurationIsRefused : Prop :=
  ∀ c : Config,
    (c.w < 2 ∨ c.w % 2 ≠ 0 ∨ c.h < 3 ∨ c.h % 3 ≠ 0 ∨ c.cntW = 0 ∨ (c.block = .pipe ∧ c.cntMax < c.cells) →
      c.wf = false ∧ State.build c = .refused .badConfiguration ∧
      ∀ s : State, s.cfg = c → step s = .refused .badConfiguration ∧
        ∀ i : Instr, blockToken i = true → ∃ r, exec i s = .refused r) ∧
    (2 ≤ c.w → c.w % 2 = 0 → 3 ≤ c.h → c.h % 3 = 0 → 1 ≤ c.cntW → (c.block = .core ∨ c.cells ≤ c.cntMax) →
      State.build c = .next (State.resetWith c))

/-- O8. Rule R37: the values the spec gives after reset, for every configuration, and the outputs. (The values the spec
leaves unspecified, `cv`, `sy`, `sx` and the cells of `fb`, are not in it; the history `consumed` is the model's, assumption
20.) -/
def Obligations.ResetLeavesSpecifiedValues : Prop :=
  ∀ c : Config,
    (State.resetWith c).st = .run ∧ (State.resetWith c).fc = .none ∧ (State.resetWith c).rvalid = false ∧
    (State.resetWith c).crem = 0 ∧ (State.resetWith c).clit = 0 ∧ (State.resetWith c).wp = 0 ∧
    (State.resetWith c).out = [] ∧ (State.resetWith c).consumed = [] ∧
    (State.resetWith c).doneOut = false ∧ (State.resetWith c).faultOut = 0

/-- O9. Rule R230: a step with `rst = 1` takes the reset state, whatever the block was doing; no offered token is taken,
no cell of the frame buffer is known, `ready` is 0, and `rst` stays as the host holds it. -/
def Obligations.ResetEdgeTakesResetState : Prop :=
  ∀ s : State, s.cfg.wf = true → s.rst = true → ∃ t, step s = .next t ∧
    t.st = .run ∧ t.fc = .none ∧ t.openRun = none ∧ t.crem = 0 ∧ t.clit = 0 ∧ t.wp = 0 ∧ t.out = [] ∧
    t.consumed = [] ∧ t.doneOut = false ∧ t.faultOut = 0 ∧ t.gReady = false ∧ t.sReady = false ∧
    t.cfg = s.cfg ∧ t.rst = s.rst ∧ t.gIn = s.gIn ∧ t.sIn = s.sIn ∧ t.dec = s.dec ∧
    ∀ a, t.readCell a = Config.unwrittenCell (s.epoch + 1) a

/-- O10. Rule R21: in `DONE` and in `FAULT` no token of the block changes the state, and a step without reset changes
nothing but the reference decoder. -/
def Obligations.StoppedBlockTakesNothing : Prop :=
  ∀ s : State, s.st ≠ .run →
    (∀ (i : Instr) (t : State), blockToken i = true → exec i s = .next t → t = s) ∧
    (s.cfg.wf = true → s.rst = false → ∃ t, step s = .next t ∧ t = { s with dec := t.dec })

/-- O11. Rule R183: the transitions of `st`. Out of `DONE` and `FAULT` only reset leads; from `RUN` to `DONE` only a token
that ends the stream; from `RUN` to `FAULT` only a token, taken in this step, whose rule raised a fault, which `fc` then
shows; and no step without a fault writes `fc`. (A word on the hand-over at the start of a step, `MEOS` among them, is the
model's own route, assumption 10; no token leaves one there.) -/
def Obligations.RunStateTransitions : Prop :=
  ∀ s t : State, step s = .next t →
    (s.rst = true → t.st = .run) ∧
    (s.rst = false → s.st.mayBecome t.st = true) ∧
    (s.rst = false → s.st = .run → t.st = .done →
      (∃ w ws, s.cfg.block = .core ∧ s.gIn = w :: ws ∧ decodeGT w = .eos ∧ s.openRun = none) ∨
      (∃ w ws, s.cfg.block = .pipe ∧ s.sIn = w :: ws ∧ decodeST w = .fin ∧ s.wp = 0 ∧ s.openRun = none) ∨
      (∃ w ws, s.pIn = w :: ws ∧ decodePT s.cfg.cntW w = .ok .meos)) ∧
    (s.rst = false → s.st = .run → t.st = .fault → t.fc ≠ .none ∧
      ((∃ w, s.cfg.block = .core ∧ s.pIn = [] ∧ s.gIn = w :: t.gIn ∧ t.consumed = s.consumed ++ [decodeGT w]) ∨
        (∃ w, s.cfg.block = .pipe ∧ s.pIn = [] ∧ s.sIn = w :: t.sIn ∧ t.consumed = s.consumed ++ [decodeST w]) ∨
        (∃ w i, s.pIn = w :: t.pIn ∧ decodePT s.cfg.cntW w = .ok i))) ∧
    (s.rst = false → t.st ≠ .fault → t.fc = s.fc)

/-! ## One step -/

/-- O12. A step runs the decoded instruction (rules R12, R181, R182): when the next word decodes to an instruction, the step
is `exec` of it in the state with that word taken off its channel; and which word is next, for each port. That a word of the
hand-over is served before the port's follows what rule R140 says of downstream work and is the model's choice (assumption
10); that the reference decoder reads a byte only when the block takes no word is the model's choice (assumption 6), and the
history `consumed` is the model's (assumption 20). -/
def Obligations.StepRunsDecodedInstr : Prop :=
  (∀ (s t : State) (w : PortWord) (i : Instr), s.cfg.wf = true → s.rst = false → fetch s = some (w, t) → decode s.cfg.cntW w = .ok i →
    step s = exec i t) ∧
  (∀ (s : State) (w : BitVec 10) (ws : List (BitVec 10)), s.cfg.wf = true → s.cfg.block = .core → s.ready = true →
    s.pIn = [] → s.gIn = w :: ws →
    step s = exec (decodeGT w) { s with gIn := ws, consumed := s.consumed ++ [decodeGT w] }) ∧
  (∀ (s : State) (w : BitVec 9) (ws : List (BitVec 9)), s.cfg.wf = true → s.cfg.block = .pipe → s.ready = true →
    s.pIn = [] → s.sIn = w :: ws →
    step s = exec (decodeST w) { s with sIn := ws, consumed := s.consumed ++ [decodeST w] }) ∧
  (∀ (s : State) (w : Nat) (ws : List Nat) (i : Instr), s.cfg.wf = true → s.ready = true → s.pIn = w :: ws →
    decodePT s.cfg.cntW w = .ok i → step s = exec i { s with pIn := ws }) ∧
  (∀ (s : State) (b : Byte) (bs : List Byte), s.cfg.wf = true → s.rst = false → s.ready = false →
    s.dec.verdict = .running → s.dec.input = some (b :: bs) → step s = exec (decodeCB b) { s with dec := { s.dec with input := some bs } })

/-- O13. Rules R65, R193: a step takes at most the first word offered on the block's port, and it takes it when, and only
when, the port's `valid` and `ready` are both 1; the other words stay, in order. (That `ready` is 0 while a word stands on
the hand-over is the model's, assumption 10.) The history `consumed` (assumption 20) grows by the token so taken, and by
nothing else. -/
def Obligations.TokensAreTakenOnceInOrder : Prop :=
  ∀ s t : State, step s = .next t →
    (t.gIn = s.gIn ∨ (s.gReady = true ∧ ∃ w, s.gIn = w :: t.gIn)) ∧
    (t.sIn = s.sIn ∨ (s.sReady = true ∧ ∃ w, s.sIn = w :: t.sIn)) ∧
    (s.gReady = true → s.gValid = true → t.gIn = s.gIn.tail) ∧
    (s.sReady = true → s.sValid = true → t.sIn = s.sIn.tail) ∧
    (s.pIn ≠ [] → s.gReady = false ∧ s.sReady = false) ∧
    (s.rst = false →
      (t.gIn = s.gIn ∧ t.sIn = s.sIn ∧ t.consumed = s.consumed) ∨
      (∃ w, s.gIn = w :: t.gIn ∧ t.sIn = s.sIn ∧ t.consumed = s.consumed ++ [decodeGT w]) ∨
      (∃ w, s.sIn = w :: t.sIn ∧ t.gIn = s.gIn ∧ t.consumed = s.consumed ++ [decodeST w]))

/-- O14. Rule R212: a block in `RUN` to which no word is offered does nothing, and neither does the reference decoder
without input. -/
def Obligations.NoTokenNothingHappens : Prop :=
  ∀ s : State, s.cfg.wf = true → s.ready = true → s.pIn = [] → s.gIn = [] → s.sIn = [] → s.dec.input = none →
    step s = .next s

/-! ## Memory -/

/-- O15. Rule R53: a write sets its cell and changes no other; a read returns the bit last written. No rule reads a cell
that has not been written since reset: when the last sample of a frame is stored, and the packer scan begins, every cell
has been written. -/
def Obligations.FrameBufferReadAfterWrite : Prop :=
  ∀ (s : State) (a : Nat) (p : Bool),
    (s.writeCell a p).readCell a = p ∧
    (∀ a', a' ≠ a → (s.writeCell a p).readCell a' = s.readCell a') ∧
    (s.Inv → s.wp + 1 = s.cfg.npix → ∀ a', a' < s.cfg.npix →
      (Memory.get? (s.writeCell s.wp p).fb a').isSome = true)

/-- O16. Rule R52: the packer's addresses, each a cell, and every cell of the frame read for exactly one lane of exactly
one grid cell. -/
def Obligations.PackerBlocksTileFrame : Prop :=
  ∀ cfg : Config, cfg.wf = true →
    (∀ y x r c, blockAddr cfg y x r c = (3 * y + r) * cfg.w + (2 * x + c)) ∧
    (∀ y x r c, y < cfg.gh → x < cfg.gw → r < 3 → c < 2 → blockAddr cfg y x r c < cfg.npix) ∧
    ∀ a, a < cfg.npix → ∃ y x r c, (y < cfg.gh ∧ x < cfg.gw ∧ r < 3 ∧ c < 2 ∧ blockAddr cfg y x r c = a) ∧
      ∀ y' x' r' c', y' < cfg.gh → x' < cfg.gw → r' < 3 → c' < 2 → blockAddr cfg y' x' r' c' = a →
        y' = y ∧ x' = x ∧ r' = r ∧ c' = c

/-- O17. Rule R59 (a): no content of the frame buffer from reset or from an earlier frame reaches anything a token leaves:
two `PIPE` states that agree in everything but the cells from `wp` on (and the count of resets) take the same sample to
states that agree in the same way. -/
def Obligations.StaleCellsNeverReachOutput : Prop :=
  ∀ (s s' t : State) (d : Byte), s.Inv → s'.Inv → s.ready = true → s.cfg.block = .pipe →
    s' = { s with fb := s'.fb, epoch := s'.epoch } → (∀ a, a < s.wp → s'.readCell a = s.readCell a) →
    exec (.s d) s = .next t →
    ∃ t', exec (.s d) s' = .next t' ∧ t' = { t with fb := t'.fb, epoch := t'.epoch } ∧
      ∀ a, a < t.wp → t'.readCell a = t.readCell a

/-! ## Front end -/

/-- O18. Rule R100: the threshold is unsigned and inclusive. -/
def Obligations.ThresholdIsInclusive : Prop :=
  (∀ thresh d : Byte, thr thresh d = true ↔ thresh.toNat ≤ d.toNat) ∧
  thr Config.reference.thresh 186 = true ∧ thr Config.reference.thresh 185 = false ∧
  thr Config.reference.thresh 0 = false ∧ thr Config.reference.thresh 255 = true ∧
  (∀ d, thr 0 d = true) ∧ (∀ thresh, thr thresh 255 = true)

/-- O19. Rule R102: the glyph is `128` plus the weighted pixels of its block, and bit `2*r + c` of it is the pixel at row
`r`, column `c` of the block, under the bits `10`. -/
def Obligations.GlyphPacksBlockPixels : Prop :=
  ∀ (cfg : Config) (px : Nat → Bool) (y x : Nat),
    let p := fun r c => (px ((3 * y + r) * cfg.w + (2 * x + c))).toNat
    (glyph cfg px y x).toNat =
      128 + p 0 0 * 1 + p 0 1 * 2 + p 1 0 * 4 + p 1 1 * 8 + p 2 0 * 16 + p 2 1 * 32 ∧
    (∀ r c, r < 3 → c < 2 → (glyph cfg px y x).getLsbD (2 * r + c) = px ((3 * y + r) * cfg.w + (2 * x + c))) ∧
    cbTag (glyph cfg px y x) = 2

/-- O20. Rule R104: every glyph is in `128..191`, all 64 values occur, the all-off block gives 128 and the all-on block
gives 191. -/
def Obligations.GlyphRangeIsExact : Prop :=
  ∀ (cfg : Config) (y x : Nat), cfg.wf = true → y < cfg.gh → x < cfg.gw →
    (∀ px, 128 ≤ (glyph cfg px y x).toNat ∧ (glyph cfg px y x).toNat ≤ 191) ∧
    (∀ n, 128 ≤ n → n ≤ 191 → ∃ px, (glyph cfg px y x).toNat = n) ∧
    (glyph cfg (fun _ => false) y x).toNat = 128 ∧ (glyph cfg (fun _ => true) y x).toNat = 191

/-- O21. Rule R103: `pack` lists `CELLS` glyph codes in row-major order, `y` outer and `x` inner. -/
def Obligations.PackIsRowMajor : Prop :=
  ∀ (cfg : Config) (px : Nat → Bool),
    (pack cfg px).length = cfg.cells ∧
    ∀ y x, y < cfg.gh → x < cfg.gw → (pack cfg px)[y * cfg.gw + x]? = some (glyph cfg px y x)

/-- O22. Rule R105, a sample before the last of its frame: one cell is written, `wp` advances, nothing is emitted. -/
def Obligations.SampleWithinFrame : Prop :=
  ∀ (d : Byte) (s : State), s.cfg.wf = true → s.cfg.block = .pipe → s.ready = true → s.wp + 1 < s.cfg.npix →
    exec (.s d) s =
      .next { s with fb := Memory.set s.fb s.wp (if s.cfg.thresh.toNat ≤ d.toNat then 1 else 0), wp := s.wp + 1 }

/-- O23. Rules R105, R106: the last sample of a frame. Its cell is written, `wp` wraps to 0, and the frame's whole record,
`encode_frame` of the packed frame, is emitted, between 2 and `CELLS + 1` bytes; no fault; the run register is closed and
the compact encoder idle. (The dead values of `cv`, `sy`, `sx` are left open.) -/
def Obligations.LastSampleEmitsFrameRecord : Prop :=
  ∀ (d : Byte) (s : State), s.cfg.wf = true → s.cfg.block = .pipe → s.ready = true → s.openRun = none →
    s.wp + 1 = s.cfg.npix →
    ∃ (v : Byte) (y x : Nat),
      let px := (s.writeCell s.wp (thr s.cfg.thresh d)).readCell
      exec (.s d) s =
        .next { s with
          fb := Memory.set s.fb s.wp (if s.cfg.thresh.toNat ≤ d.toNat then 1 else 0), wp := 0,
          cv := v, sy := y, sx := x, out := s.out ++ encodeFrame (pack s.cfg px) } ∧
      2 ≤ (encodeFrame (pack s.cfg px)).length ∧ (encodeFrame (pack s.cfg px)).length ≤ s.cfg.cells + 1

/-- O24. Rule R107: `FIN`. -/
def Obligations.FinEndsStreamOrFaults : Prop :=
  ∀ s : State,
    (∀ (cntW : Nat) (d : Byte), decode cntW (.st (1#1 ++ d)) = .ok .fin) ∧
    (s.cfg.wf = true → s.cfg.block = .pipe → s.ready = true →
      (s.wp ≠ 0 → exec .fin s = .next { s with fc := .proto, st := .fault }) ∧
      (s.wp = 0 → s.openRun = none → exec .fin s = .next { s with out := s.out ++ [0x00], st := .done }) ∧
      (s.wp = 0 → s.openRun ≠ none → exec .fin s = .next { s with fc := .proto, st := .fault })) ∧
    exec .fin State.reset = .next { State.reset with out := [0x00], st := .done } ∧
    ({ State.reset with out := [0x00], st := .done } : State).doneOut = true

/-! ## Run-length stage -/

/-- O25. Rule R120: the two equations of `rle`, with the longest prefix of equal values. -/
def Obligations.RleTakesLongestPrefix : Prop :=
  rle [] = [] ∧
  ∀ (g : Byte) (rest : List Byte),
    rle (g :: rest) = (g, 1 + (rest.takeWhile (· == g)).length) :: rle (rest.dropWhile (· == g))

/-- O26. Rule R121: (a) to (f). -/
def Obligations.RleProperties : Prop :=
  ∀ gs : List Byte,
    (∀ p ∈ rle gs, 1 ≤ p.2) ∧
    ((rle gs).map (·.2)).sum = gs.length ∧
    (rle gs).IsChain (fun p q => p.1 ≠ q.1) ∧
    expandPairs (rle gs) = gs ∧
    (∀ ps : List (Byte × Nat), (∀ p ∈ ps, 1 ≤ p.2) → ps.IsChain (fun p q => p.1 ≠ q.1) → expandPairs ps = gs →
      ps = rle gs) ∧
    (rle gs = [] ↔ gs = [])

/-- O27. Rule R123: `G v`, for every state that takes it: opening, extending and closing a run, and the faults `OVF` and
`INV`; with the rule's example. (What is left in `cv`, dead at a token boundary, is left open.) -/
def Obligations.GlyphTokenMeaning : Prop :=
  ∀ (v : Byte) (s : State),
    (∀ cntW, decode cntW (.gt (0#2 ++ v)) = .ok (.g v)) ∧
    (s.cfg.wf = true → s.ready = true →
      (s.openRun = none → exec (.g v) s = .next { s with openRun := some ⟨v, 1⟩ }) ∧
      (∀ r, s.openRun = some r → v = r.rv → r.rc ≠ s.cfg.cntMax →
        exec (.g v) s = .next { s with openRun := some ⟨r.rv, r.rc + 1⟩ }) ∧
      (∀ r, s.openRun = some r → v = r.rv → r.rc = s.cfg.cntMax →
        exec (.g v) s = .next { s with fc := .ovf, st := .fault }) ∧
      (∀ r, s.openRun = some r → v ≠ r.rv → 128 ≤ r.rv.toNat → r.rv.toNat ≤ 191 →
        ∃ x, exec (.g v) s = .next { s with openRun := some ⟨v, 1⟩, cv := x, out := s.out ++ chunk r.rv r.rc }) ∧
      (∀ r, s.openRun = some r → v ≠ r.rv → (r.rv.toNat < 128 ∨ 191 < r.rv.toNat) →
        exec (.g v) s = .next { s with fc := .inv, st := .fault }) ∧
      (s.openRun = some ⟨128, 70⟩ →
        ∃ x, exec (.g 150) s = .next { s with openRun := some ⟨150, 1⟩, cv := x, out := s.out ++ [0x3F, 0x07] }))

/-- O28. Rule R124: `EOF`. (What is left in `cv`, dead at a token boundary, is left open.) -/
def Obligations.EndOfFrameMeaning : Prop :=
  ∀ s : State,
    (∀ (cntW : Nat) (d : Byte), decode cntW (.gt (1#2 ++ d)) = .ok .eof) ∧
    (s.cfg.wf = true → s.ready = true →
      (s.openRun = none → exec .eof s = .next { s with out := s.out ++ [0x00] }) ∧
      (∀ r, s.openRun = some r → 128 ≤ r.rv.toNat → r.rv.toNat ≤ 191 →
        ∃ x, exec .eof s = .next { s with openRun := none, cv := x, out := s.out ++ chunk r.rv r.rc ++ [0x00] }) ∧
      (∀ r, s.openRun = some r → (r.rv.toNat < 128 ∨ 191 < r.rv.toNat) →
        exec .eof s = .next { s with fc := .inv, st := .fault }) ∧
      (s.openRun = some ⟨191, 2⟩ →
        ∃ x, exec .eof s = .next { s with openRun := none, cv := x, out := s.out ++ [0xC2, 0x00] }))

/-- O29. Rule R125: `EOS`. (What the pair of the second example leaves in `cv` is left open.) -/
def Obligations.EndOfStreamMeaning : Prop :=
  ∀ s : State,
    (∀ (cntW : Nat) (d : Byte), decode cntW (.gt (2#2 ++ d)) = .ok .eos) ∧
    (s.cfg.wf = true → s.ready = true →
      (s.openRun = none → exec .eos s = .next { s with out := s.out ++ [0x00], st := .done }) ∧
      (∀ r, s.openRun = some r → exec .eos s = .next { s with fc := .proto, st := .fault })) ∧
    exec .eos State.reset = .next { State.reset with out := [0x00], st := .done } ∧
    ∃ x, feed [.g 128, .eof, .eos] State.reset =
      .next { State.reset with cv := x, out := [0x80, 0x00, 0x00], st := .done }

/-- O30. Rule R126: the reserved token kind raises `PROTO`, whatever its data. -/
def Obligations.ReservedTokenRaisesProto : Prop :=
  ∀ s : State,
    (∀ (cntW : Nat) (d : Byte), decode cntW (.gt (3#2 ++ d)) = .ok .grsv) ∧
    (s.cfg.wf = true → s.ready = true → exec .grsv s = .next { s with fc := .proto, st := .fault }) ∧
    decode 11 (.gt 0x3FF) = .ok .grsv ∧
    exec .grsv State.reset = .next { State.reset with fc := .proto, st := .fault } ∧
    ({ State.reset with fc := .proto, st := .fault } : State).faultOut = 3

/-- O31. Rule R128: after the glyphs of a frame, without a fault, the run register holds the last pair of `rle`, and the
bytes emitted are those of the pairs before it. -/
def Obligations.RunRegisterHoldsLastPair : Prop :=
  ∀ (s t : State) (gs : List Byte), s.Fresh → feed (gs.map Instr.g) s = .next t → t.fc = .none →
    (gs = [] → t.openRun = none ∧ t.out = s.out) ∧
    (gs ≠ [] → ∃ ps r, rle gs = ps ++ [(r.rv, r.rc)] ∧ t.openRun = some r ∧ t.out = s.out ++ compact ps)

/-! ## Compact encoder -/

/-- O32. Rule R141: `PAIR v c`. -/
def Obligations.PairTokenMeaning : Prop :=
  ∀ (v : Byte) (c : Nat) (s : State), s.cfg.wf = true → s.ready = true →
    (∀ cntW, c < 2 ^ cntW → decode cntW (.pt (v.toNat * 2 ^ cntW + c)) = .ok (.pair v c)) ∧
    (v.extractLsb' 6 2 = 2 → exec (.pair v c) s = .next { s with cv := v, out := s.out ++ chunk v c }) ∧
    (v.extractLsb' 6 2 ≠ 2 → exec (.pair v c) s = .next { s with fc := .inv, st := .fault }) ∧
    (chunk v 0 = [] ∧ chunk v 1 = [v]) ∧
    (chunk 128 64 = [0x3F, 0x80] ∧ chunk 191 64 = [0xFF, 0xBF]) ∧
    (chunk 128 70 = [0x3F, 0x07] ∧ chunk 150 3 = [0x96, 0x96, 0x96] ∧ chunk 191 2 = [0xC2])

/-- O33. Rules R143, R144: the two micro-steps, each emitting exactly one byte; exactly one is enabled while the compact
encoder is busy and none when it is idle; run to the end they emit `chunk(v, c)` and leave it idle, in as many micro-steps
as bytes. That a step of the machine in `RUN` with a busy compact encoder and no byte for the reference decoder is one such
micro-step, so that as many steps serialise the pair, is the model's choice (assumption 10). -/
def Obligations.MicroStepsSerialiseChunk : Prop :=
  (∀ s : State, s.ceIdle = false ↔ 0 < s.clit ∨ (s.clit = 0 ∧ 0 < s.crem)) ∧
  (∀ s : State, 0 < s.clit → microStep s = { s with clit := s.clit - 1, out := s.out ++ [s.cv] }) ∧
  (∀ s : State, s.clit = 0 → 0 < s.crem →
    let n := min s.crem 63
    (n = 1 ∨ (s.cv ≠ 128 ∧ s.cv ≠ 191) →
      microStep s = { s with crem := s.crem - n, clit := n - 1, out := s.out ++ [s.cv] }) ∧
    (n ≠ 1 → s.cv = 128 → microStep s = { s with crem := s.crem - n, out := s.out ++ [BitVec.ofNat 8 n] }) ∧
    (n ≠ 1 → s.cv = 191 → microStep s = { s with crem := s.crem - n, out := s.out ++ [BitVec.ofNat 8 n ||| 0xC0] })) ∧
  (∀ s : State, s.ceIdle = true → microStep s = s) ∧
  (∀ (v : Byte) (c : Nat) (s : State), isGlyph v = true →
    Nat.iterate microStep (chunk v c).length { s with cv := v, crem := c, clit := 0 } =
      { s with cv := v, crem := 0, clit := 0, out := s.out ++ chunk v c } ∧
    ∀ k, k < (chunk v c).length → (Nat.iterate microStep k { s with cv := v, crem := c, clit := 0 }).ceIdle = false) ∧
  (∀ s : State, s.cfg.wf = true → s.rst = false → s.st = .run →
    (s.dec.verdict = .running → ∀ b bs, s.dec.input ≠ some (b :: bs)) →
    (s.ceIdle = false → step s = .next (microStep s)) ∧
    (∀ (v : Byte) (c : Nat), isGlyph v = true →
      Host.Core.run core (chunk v c).length { s with cv := v, crem := c, clit := 0 } =
        .next { s with cv := v, crem := 0, clit := 0, out := s.out ++ chunk v c }))

/-- O34. Rule R145: the equations of `chunk` and `piece`. -/
def Obligations.ChunkEquations : Prop :=
  ∀ v : Byte, isGlyph v = true →
    chunk v 0 = [] ∧
    (∀ c, 0 < c → chunk v c = piece v (min c 63) ++ chunk v (c - min c 63)) ∧
    (∀ n, n = 1 ∨ (v ≠ 128 ∧ v ≠ 191) → piece v n = List.replicate n v) ∧
    (∀ n, 2 ≤ n → v = 128 → piece v n = [BitVec.ofNat 8 n]) ∧
    (∀ n, 2 ≤ n → v = 191 → piece v n = [BitVec.ofNat 8 n ||| 0xC0])

/-- O35. Rule R149: the closed form of `chunk`. -/
def Obligations.ChunkClosedForm : Prop :=
  ∀ (v : Byte) (q r : Nat), isGlyph v = true → r ≤ 62 →
    (v ≠ 128 → v ≠ 191 → chunk v (63 * q + r) = List.replicate (63 * q + r) v) ∧
    (v = 128 ∨ v = 191 →
      let runOf := fun n => BitVec.ofNat 8 (if v = 128 then n else 192 + n)
      (r = 0 → chunk v (63 * q + r) = List.replicate q (runOf 63)) ∧
      (r = 1 → chunk v (63 * q + r) = List.replicate q (runOf 63) ++ [v]) ∧
      (2 ≤ r → chunk v (63 * q + r) = List.replicate q (runOf 63) ++ [runOf r]))

/-- O36. Rule R151: byte counts of a pair and of a frame record. -/
def Obligations.ByteCounts : Prop :=
  (∀ (v : Byte) (c : Nat), isGlyph v = true → isSpecial v = false → (chunk v c).length = c) ∧
  (∀ (v : Byte) (c : Nat), isSpecial v = true → (chunk v c).length = (c + 62) / 63) ∧
  (∀ gs : List Byte, AllGlyphs gs → gs ≠ [] →
    (gs.length + 62) / 63 + 1 ≤ (encodeFrame gs).length ∧ (encodeFrame gs).length ≤ gs.length + 1) ∧
  (∀ gs : List Byte, AllGlyphs gs → gs.length = 1024 →
    18 ≤ (encodeFrame gs).length ∧ (encodeFrame gs).length ≤ 1025) ∧
  (encodeFrame []).length = 1

/-- O37. Rule R150: properties (a) to (f) of the bytes of a pair. -/
def Obligations.EmittedByteProperties : Prop :=
  ∀ (v : Byte) (c : Nat), isGlyph v = true → 1 ≤ c →
    (0x00 ∉ chunk v c) ∧
    (∀ b ∈ chunk v c, cbTag b = 0 ∨ cbTag b = 3 → 2 ≤ (cbLen b).toNat ∧ (cbLen b).toNat ≤ 63) ∧
    (isSpecial v = false → chunk v c = List.replicate c v) ∧
    (c = 1 → chunk v c = [v]) ∧
    (∀ b ∈ chunk v c, decodeCB b ≠ .rsv1 ∧ decodeCB b ≠ .rsvf0) ∧
    (∀ t, decodeFrame (chunk v c ++ 0x00 :: t) = .frame (List.replicate c v) t)

/-- O38. Rule R77: the byte values the encoder can emit are exactly those 189, and `0x00` only as a terminator. -/
def Obligations.EmittableBytesExactly : Prop :=
  (∀ gs : List Byte, AllGlyphs gs → (∀ b ∈ encodeFrame gs, emittable b = true) ∧ 0x00 ∉ compact (rle gs)) ∧
  (∀ b : Byte, emittable b = true → ∃ gs, AllGlyphs gs ∧ b ∈ encodeFrame gs) ∧
  ((List.range 256).filter fun n => emittable (BitVec.ofNat 8 n)).length = 189

/-- O39. Rules R147, R148: `MEOF` and `MEOS`, whatever their ignored fields, with the examples of the two rules. (What
the pair of the example leaves in `cv`, dead at a token boundary, is left open.) -/
def Obligations.TerminatorTokensMeaning : Prop :=
  (∀ (cntW : Nat) (x : Nat), x < 2 ^ (cntW + 8) →
    decode cntW (.pt (2 ^ (cntW + 8) + x)) = .ok .meof ∧ decode cntW (.pt (2 * 2 ^ (cntW + 8) + x)) = .ok .meos) ∧
  (∀ s : State, s.cfg.wf = true → s.ready = true →
    exec .meof s = .next { s with out := s.out ++ [0x00] } ∧
    exec .meos s = .next { s with out := s.out ++ [0x00], st := .done } ∧
    ∃ x, feed [.pair 191 2, .meof] s = .next { s with cv := x, out := s.out ++ [0xC2, 0x00] }) ∧
  exec .meos State.reset = .next { State.reset with out := [0x00], st := .done }

/-! ## Compact-byte classes -/

/-- O40. Rules R162, R163, R164: what `BLK`, `LIT` and `FUL` add to the reference decoder's cells, and which bytes they
are; every other field keeps its value. -/
def Obligations.RunAndLiteralBytesExtendCells : Prop :=
  (∀ b : Byte, (1 ≤ b.toNat → b.toNat ≤ 0x3F → decodeCB b = .blk (cbLen b) ∧ (cbLen b).toNat = b.toNat) ∧
    (0x80 ≤ b.toNat → b.toNat ≤ 0xBF → decodeCB b = .lit b) ∧
    (0xC1 ≤ b.toNat → decodeCB b = .ful (cbLen b) ∧ (cbLen b).toNat = b.toNat - 0xC0)) ∧
  ∀ s : State, s.dec.verdict = .running →
    (∀ n : BitVec 6, exec (.blk n) s =
      .next { s with dec := { s.dec with cells := s.dec.cells ++ List.replicate n.toNat 128 } }) ∧
    (∀ v : Byte, exec (.lit v) s = .next { s with dec := { s.dec with cells := s.dec.cells ++ [v] } }) ∧
    (∀ n : BitVec 6, exec (.ful n) s =
      .next { s with dec := { s.dec with cells := s.dec.cells ++ List.replicate n.toNat 191 } })

/-- O41. Rule R161: `END` ends the frame, or the stream where a frame would begin; it is tested before `BLK`; the rule's
example. -/
def Obligations.EndByteEndsFrameOrStream : Prop :=
  decodeCB 0x00 = .endByte ∧
  (∀ s : State, s.dec.verdict = .running →
    (s.dec.cells ≠ [] →
      exec .endByte s = .next { s with dec := { s.dec with frames := s.dec.frames ++ [s.dec.cells], cells := [] } }) ∧
    (s.dec.cells = [] → exec .endByte s = .next { s with dec := { s.dec with verdict := .complete } })) ∧
  decodeStream [0x80, 0x00, 0x00] = .frames [[0x80]] []

/-- O42. Rule R165: a reserved byte stops the reference decoder with the verdict `invalid` and no frame; the encoder never
emits one. -/
def Obligations.ReservedBytesAreInvalid : Prop :=
  (∀ b : Byte, 0x40 ≤ b.toNat → b.toNat ≤ 0x7F → decodeCB b = .rsv1) ∧ decodeCB 0xC0 = .rsvf0 ∧
  (∀ s : State, s.dec.verdict = .running → ∀ i ∈ [Instr.rsv1, .rsvf0], ∃ t, exec i s = .next t ∧
    t = { s with dec := t.dec } ∧ t.dec.verdict = .invalid ∧ t.dec.result = some .invalid ∧ t.dec.frames = []) ∧
  (∀ gs : List Byte, AllGlyphs gs → ∀ b ∈ encodeFrame gs, decodeCB b ≠ .rsv1 ∧ decodeCB b ≠ .rsvf0)

/-- O43. Rules R161 to R167: the machine's reference decoder, stepped over a byte sequence while the block is offered
nothing, returns what `decode_stream` returns, and leaves the block as it was. (That the decoder stands in the state and
that a step reads one byte are the model's, assumption 6.) -/
def Obligations.DecoderStepsComputeDecodeStream : Prop :=
  ∀ (s : State) (bs : List Byte), s.cfg.wf = true → s.rst = false → s.ceIdle = true → s.pIn = [] → s.gIn = [] → s.sIn = [] →
    ∃ t, Host.Core.run core (bs.length + 1)
        { s with dec := { input := some bs, cells := [], frames := [], verdict := .running } } = .next t ∧
      t.dec.result = some (decodeStream bs) ∧ t = { s with dec := t.dec }

/-- O44. Rule R160: the reference decoder and the block do not depend on each other. -/
def Obligations.DecoderAndBlockAreSeparate : Prop :=
  (∀ (i : Instr) (s t : State) (d : RefDecoder), blockToken i = true → exec i s = .next t →
    t.dec = s.dec ∧ exec i { s with dec := d } = .next { t with dec := d }) ∧
  (∀ (i : Instr) (s : State), blockToken i = false → ∃ d, exec i s = .next { s with dec := d } ∧
    ∀ u : State, u.dec = s.dec → exec i u = .next { u with dec := d })

/-! ## Pipeline -/

/-- O45. Rule R168: the compact round trip, for a frame and for a stream of non-empty frames. -/
def Obligations.CompactRoundTrip : Prop :=
  (∀ gs t : List Byte, AllGlyphs gs → decodeFrame (encodeFrame gs ++ t) = .frame gs t) ∧
  (∀ fs : List (List Byte), (∀ f ∈ fs, AllGlyphs f) → (∀ f ∈ fs, f ≠ []) →
    decodeStream (encodeStream fs) = .frames fs [])

/-- O46. Rule R169: terminator safety. -/
def Obligations.TerminatorSafety : Prop :=
  (∀ gs : List Byte, AllGlyphs gs →
    (encodeFrame gs).count 0x00 = 1 ∧ (encodeFrame gs).getLast? = some 0x00) ∧
  (∀ fs : List (List Byte), (∀ f ∈ fs, AllGlyphs f) →
    (encodeStream fs).count 0x00 = fs.length + 1 ∧ (encodeStream fs).getLast? = some 0x00 ∧
    encodeStream fs = (fs.map encodeFrame).flatten ++ [0x00])

/-- O47. Rule R187: `CORE` computes `encode_stream`. From any state like the reset state (`Fresh`, which `reset` is), fed
the tokens of frames of glyph codes whose runs fit, then `EOS`, every token is consumed, no fault is raised, and the bytes
are `encode_stream`; after whole frames they are the frames' records. -/
def Obligations.CoreComputesEncodeStream : Prop :=
  ∀ (s : State) (fs : List (List Byte)), s.Fresh → s.cfg.block = .core → s.pIn = [] →
    (∀ f ∈ fs, AllGlyphs f) → (∀ f ∈ fs, RunsFit s.cfg f) →
    (∀ ws : List (BitVec 10), ws.map decodeGT = streamTokens fs →
      ∃ t, Host.Core.run core ws.length { s with gIn := ws } = .next t ∧ t.gIn = [] ∧ t.st = .done ∧ t.fc = .none ∧
        t.openRun = none ∧ t.out = s.out ++ encodeStream fs) ∧
    (∀ ws : List (BitVec 10), ws.map decodeGT = fs.flatMap frameTokens →
      ∃ t, Host.Core.run core ws.length { s with gIn := ws } = .next t ∧ t.gIn = [] ∧ t.st = .run ∧
        t.out = s.out ++ fs.flatMap encodeFrame)

/-- O48. Rule R188: `PIPE` computes `encode_stream` of the packed frames; and no byte of a frame is emitted before its last
sample. -/
def Obligations.PipeComputesEncodeStream : Prop :=
  ∀ (s : State) (ds : List (List Byte)), s.Fresh → s.cfg.block = .pipe → s.pIn = [] → s.wp = 0 →
    (∀ d ∈ ds, d.length = s.cfg.npix) →
    (∀ ws : List (BitVec 9), ws.map decodeST = sampleTokens ds ++ [.fin] →
      ∃ t, Host.Core.run core ws.length { s with sIn := ws } = .next t ∧ t.sIn = [] ∧ t.st = .done ∧ t.fc = .none ∧
        t.wp = 0 ∧ t.out = s.out ++ encodeStream (ds.map (fe s.cfg))) ∧
    (∀ (d : List Byte) (ws : List (BitVec 9)), d.length < s.cfg.npix →
      ws.map decodeST = sampleTokens (ds ++ [d]) →
      ∃ t, Host.Core.run core ws.length { s with sIn := ws } = .next t ∧ t.sIn = [] ∧ t.st = .run ∧ t.fc = .none ∧
        t.out = s.out ++ (ds.map (fe s.cfg)).flatMap encodeFrame)

/-- O49. Rule R189: after an `EOF` without fault the state equals the reset state in every part a rule can read, so the next
frame starts as the first one did. -/
def Obligations.EndOfFrameLeavesFreshState : Prop :=
  (∀ s t : State, s.Inv → s.ready = true → exec .eof s = .next t → t.st ≠ .fault → t.Fresh) ∧
  (∀ (s t : State) (d : Byte), s.Inv → s.ready = true → s.cfg.block = .pipe → s.wp + 1 = s.cfg.npix →
    exec (.s d) s = .next t → t.Fresh ∧ t.wp = 0) ∧
  (∀ c : Config, c.wf = true → (State.resetWith c).Fresh)

/-! ## Faults -/

/-- O50. Rule R204 with R208: a token that raises a fault writes `st` and `fc` and nothing else of the block's registers,
memory or output, so everything emitted is what earlier tokens emitted. -/
def Obligations.FaultKeepsEverythingElse : Prop :=
  ∀ (i : Instr) (s t : State), s.Inv → s.ready = true → blockToken i = true → exec i s = .next t → t.st = .fault →
    t = { s with st := .fault, fc := t.fc } ∧ t.fc ≠ .none

/-- O51. Rules R200, R206: which token raises which fault, and when; at most one condition holds. With rules R20, R30: the
code of each fault on the output `fault`, the output `done` of each run state, and the codes of `st`. -/
def Obligations.FaultCodePerToken : Prop :=
  (∀ s : State, (s.faultOut = 0 ↔ s.fc = .none) ∧ (s.faultOut = 1 ↔ s.fc = .inv) ∧ (s.faultOut = 2 ↔ s.fc = .ovf) ∧
    (s.faultOut = 3 ↔ s.fc = .proto) ∧ (s.doneOut = true ↔ s.st = .done)) ∧
  (RunState.code .run = 0 ∧ RunState.code .done = 1 ∧ RunState.code .fault = 2) ∧
  ∀ (i : Instr) (s t : State), s.Inv → s.ready = true → blockToken i = true → exec i s = .next t →
    (t.fc = .inv ↔
      (∃ v r, i = .g v ∧ s.openRun = some r ∧ v ≠ r.rv ∧ isGlyph r.rv = false) ∨
      (∃ r, i = .eof ∧ s.openRun = some r ∧ isGlyph r.rv = false) ∨
      (∃ v c, i = .pair v c ∧ isGlyph v = false)) ∧
    (t.fc = .ovf ↔ ∃ r, i = .g r.rv ∧ s.openRun = some r ∧ r.rc = s.cfg.cntMax) ∧
    (t.fc = .proto ↔ (i = .eos ∧ s.openRun ≠ none) ∨ i = .grsv ∨ (i = .fin ∧ s.wp ≠ 0))

/-- O52. Rule R209: a `PIPE` can raise only `PROTO`, and only by `FIN` in mid-frame. (One step, from any state of the
invariant with nothing on the internal hand-over, both of which every step keeps.) -/
def Obligations.PipeRaisesOnlyProtoByFin : Prop :=
  ∀ s t : State, s.Inv → s.cfg.block = .pipe → s.pIn = [] → step s = .next t →
    t.pIn = [] ∧
    (t.fc = s.fc ∨ s.rst = true ∨
      (t.fc = .proto ∧ s.wp ≠ 0 ∧ ∃ w ws, s.sIn = w :: ws ∧ decodeST w = .fin))

/-! ## Invariants -/

/-- O53. Rule R38: every step keeps the invariant of token boundaries, whatever the state (reachable or not). -/
def Obligations.StepKeepsInvariant : Prop :=
  ∀ s t : State, s.Inv → step s = .next t → t.Inv

/-- O54. The invariant holds after reset, for every configuration of the hardware. -/
def Obligations.ResetHasInvariant : Prop :=
  State.reset.Inv ∧ ∀ c : Config, c.wf = true → (State.resetWith c).Inv

/-- O55. Under the invariant no step stops with a fault, and a step is refused only for a word on the internal hand-over
that is no P token. -/
def Obligations.InvariantStepNeverStops : Prop :=
  ∀ s : State, s.Inv →
    (∀ f, step s ≠ .fault f) ∧
    (∀ r, step s = .refused r → ∃ w ws e, s.pIn = w :: ws ∧ decodePT s.cfg.cntW w = .error e ∧ r = .noSuchWord e)

/-- O56. Rule R20: under the invariant every register fits the width the rule gives it. -/
def Obligations.RegistersFitTheirWidths : Prop :=
  ∀ s : State, s.Inv →
    (∀ r, s.openRun = some r → r.rc < 2 ^ s.cfg.cntW) ∧ s.crem < 2 ^ s.cfg.cntW ∧ s.clit < 2 ^ 6 ∧
    s.wp < 2 ^ s.cfg.wpW ∧ s.sy < 2 ^ ceilLog2 s.cfg.gh ∧ s.sx < 2 ^ ceilLog2 s.cfg.gw ∧
    Config.reference.wpW = 13 ∧ ceilLog2 Config.reference.gh = 4 ∧ ceilLog2 Config.reference.gw = 6

/-- O57. Rule R31: bytes are never withdrawn or reordered: what an instruction leaves in `out` continues what was there; so
does what a step without reset leaves, and likewise the other history of an observation (rule R191), the tokens consumed,
which is the model's (assumption 20). -/
def Obligations.OutputOnlyGrows : Prop :=
  (∀ (i : Instr) (s t : State), exec i s = .next t → ∃ bs, t.out = s.out ++ bs) ∧
  (∀ s t : State, s.rst = false → step s = .next t → ∃ is bs,
    t.observe = { consumed := s.observe.consumed ++ is, out := s.observe.out ++ bs, st := t.st, fc := t.fc })

/-! ## Frames -/

/-- O58. The frame of the tokens of `CORE`: `G`, `EOF`, `EOS`, the reserved kind, `PAIR`, `MEOF`, `MEOS` (rule R35). -/
def Obligations.CoreTokensFrame : Prop :=
  ∀ (i : Instr) (s t : State), coreToken i = true → exec i s = .next t →
    t.cfg = s.cfg ∧ t.rst = s.rst ∧ t.wp = s.wp ∧ t.sy = s.sy ∧ t.sx = s.sx ∧ t.sIn = s.sIn ∧ t.gIn = s.gIn ∧
    t.pIn = s.pIn ∧ t.dec = s.dec ∧ t.epoch = s.epoch ∧ t.consumed = s.consumed ∧ t.fb = s.fb ∧
    (∀ a, t.readCell a = s.readCell a) ∧ (t.st ≠ .fault → t.fc = s.fc) ∧
    (i ∈ [Instr.eos, .grsv, .meof, .meos] → t.openRun = s.openRun ∧ t.cv = s.cv ∧ t.crem = s.crem ∧ t.clit = s.clit) ∧
    ((∃ v c, i = .pair v c) → t.openRun = s.openRun ∧ t.crem = s.crem ∧ t.clit = s.clit) ∧
    ((∃ v, i = .g v) ∨ i = .eof → t.crem = s.crem ∧ t.clit = s.clit) ∧
    (i ∉ [Instr.eos, .meos] → t.st = s.st ∨ t.st = .fault)

/-- O59. The frame of the tokens of port `S` (rule R35): `S` stores to cell `wp` alone; `FIN` stores to no cell. -/
def Obligations.SampleTokensFrame : Prop :=
  (∀ (d : Byte) (s t : State), exec (.s d) s = .next t →
    (∀ a, a ≠ s.wp → t.readCell a = s.readCell a) ∧ (s.ready = true → t.readCell s.wp = thr s.cfg.thresh d) ∧
    t.cfg = s.cfg ∧ t.rst = s.rst ∧ t.sIn = s.sIn ∧ t.gIn = s.gIn ∧ t.pIn = s.pIn ∧ t.dec = s.dec ∧ t.epoch = s.epoch ∧
    t.consumed = s.consumed ∧ t.crem = s.crem ∧ t.clit = s.clit ∧ (t.st = s.st ∨ t.st = .fault) ∧
    (t.st ≠ .fault → t.fc = s.fc)) ∧
  (∀ s t : State, exec .fin s = .next t →
    t = { s with st := t.st, fc := t.fc, out := t.out } ∧ (∀ a, t.readCell a = s.readCell a) ∧
    (t.st ≠ .fault → t.fc = s.fc))

/-- O60. The frame of the compact-byte classes: nothing but the reference decoder (rule R160), and of that not the bytes still
to be read. That a decoder which has returned (rules R165, R166, R167) takes no byte is the model's choice (assumption 6). -/
def Obligations.ByteClassesFrame : Prop :=
  ∀ (i : Instr) (s t : State), blockToken i = false → exec i s = .next t →
    t = { s with dec := t.dec } ∧ t.dec.input = s.dec.input ∧ (∀ a, t.readCell a = s.readCell a) ∧
    (s.dec.verdict ≠ .running → t = s)
end

