-- ==== Sys2Proof/Laws/State.lean ====
section
/-! SUPPORT. What each update of the state does to each field. -/

namespace Sys2Proof.Machine

variable (s : State)

/-! ### `emit` -/

@[simp] theorem State.emit_cfg (b : Byte) : (s.emit b).cfg = s.cfg := rfl
@[simp] theorem State.emit_rst (b : Byte) : (s.emit b).rst = s.rst := rfl
@[simp] theorem State.emit_st (b : Byte) : (s.emit b).st = s.st := rfl
@[simp] theorem State.emit_fc (b : Byte) : (s.emit b).fc = s.fc := rfl
@[simp] theorem State.emit_openRun (b : Byte) : (s.emit b).openRun = s.openRun := rfl
@[simp] theorem State.emit_cv (b : Byte) : (s.emit b).cv = s.cv := rfl
@[simp] theorem State.emit_crem (b : Byte) : (s.emit b).crem = s.crem := rfl
@[simp] theorem State.emit_clit (b : Byte) : (s.emit b).clit = s.clit := rfl
@[simp] theorem State.emit_wp (b : Byte) : (s.emit b).wp = s.wp := rfl
@[simp] theorem State.emit_fb (b : Byte) : (s.emit b).fb = s.fb := rfl
@[simp] theorem State.emit_sy (b : Byte) : (s.emit b).sy = s.sy := rfl
@[simp] theorem State.emit_sx (b : Byte) : (s.emit b).sx = s.sx := rfl
@[simp] theorem State.emit_out (b : Byte) : (s.emit b).out = s.out ++ [b] := rfl
@[simp] theorem State.emit_consumed (b : Byte) : (s.emit b).consumed = s.consumed := rfl
@[simp] theorem State.emit_sIn (b : Byte) : (s.emit b).sIn = s.sIn := rfl
@[simp] theorem State.emit_gIn (b : Byte) : (s.emit b).gIn = s.gIn := rfl
@[simp] theorem State.emit_pIn (b : Byte) : (s.emit b).pIn = s.pIn := rfl
@[simp] theorem State.emit_dec (b : Byte) : (s.emit b).dec = s.dec := rfl
@[simp] theorem State.emit_epoch (b : Byte) : (s.emit b).epoch = s.epoch := rfl

/-! ### `setSt` -/

@[simp] theorem State.setSt_cfg (x : RunState) : (s.setSt x).cfg = s.cfg := rfl
@[simp] theorem State.setSt_rst (x : RunState) : (s.setSt x).rst = s.rst := rfl
@[simp] theorem State.setSt_st (x : RunState) : (s.setSt x).st = x := rfl
@[simp] theorem State.setSt_fc (x : RunState) : (s.setSt x).fc = s.fc := rfl
@[simp] theorem State.setSt_openRun (x : RunState) : (s.setSt x).openRun = s.openRun := rfl
@[simp] theorem State.setSt_cv (x : RunState) : (s.setSt x).cv = s.cv := rfl
@[simp] theorem State.setSt_crem (x : RunState) : (s.setSt x).crem = s.crem := rfl
@[simp] theorem State.setSt_clit (x : RunState) : (s.setSt x).clit = s.clit := rfl
@[simp] theorem State.setSt_wp (x : RunState) : (s.setSt x).wp = s.wp := rfl
@[simp] theorem State.setSt_fb (x : RunState) : (s.setSt x).fb = s.fb := rfl
@[simp] theorem State.setSt_sy (x : RunState) : (s.setSt x).sy = s.sy := rfl
@[simp] theorem State.setSt_sx (x : RunState) : (s.setSt x).sx = s.sx := rfl
@[simp] theorem State.setSt_out (x : RunState) : (s.setSt x).out = s.out := rfl
@[simp] theorem State.setSt_consumed (x : RunState) : (s.setSt x).consumed = s.consumed := rfl
@[simp] theorem State.setSt_sIn (x : RunState) : (s.setSt x).sIn = s.sIn := rfl
@[simp] theorem State.setSt_gIn (x : RunState) : (s.setSt x).gIn = s.gIn := rfl
@[simp] theorem State.setSt_pIn (x : RunState) : (s.setSt x).pIn = s.pIn := rfl
@[simp] theorem State.setSt_dec (x : RunState) : (s.setSt x).dec = s.dec := rfl
@[simp] theorem State.setSt_epoch (x : RunState) : (s.setSt x).epoch = s.epoch := rfl

/-! ### `setRun` -/

@[simp] theorem State.setRun_cfg (r : Option OpenRun) : (s.setRun r).cfg = s.cfg := rfl
@[simp] theorem State.setRun_rst (r : Option OpenRun) : (s.setRun r).rst = s.rst := rfl
@[simp] theorem State.setRun_st (r : Option OpenRun) : (s.setRun r).st = s.st := rfl
@[simp] theorem State.setRun_fc (r : Option OpenRun) : (s.setRun r).fc = s.fc := rfl
@[simp] theorem State.setRun_openRun (r : Option OpenRun) : (s.setRun r).openRun = r := rfl
@[simp] theorem State.setRun_cv (r : Option OpenRun) : (s.setRun r).cv = s.cv := rfl
@[simp] theorem State.setRun_crem (r : Option OpenRun) : (s.setRun r).crem = s.crem := rfl
@[simp] theorem State.setRun_clit (r : Option OpenRun) : (s.setRun r).clit = s.clit := rfl
@[simp] theorem State.setRun_wp (r : Option OpenRun) : (s.setRun r).wp = s.wp := rfl
@[simp] theorem State.setRun_fb (r : Option OpenRun) : (s.setRun r).fb = s.fb := rfl
@[simp] theorem State.setRun_sy (r : Option OpenRun) : (s.setRun r).sy = s.sy := rfl
@[simp] theorem State.setRun_sx (r : Option OpenRun) : (s.setRun r).sx = s.sx := rfl
@[simp] theorem State.setRun_out (r : Option OpenRun) : (s.setRun r).out = s.out := rfl
@[simp] theorem State.setRun_consumed (r : Option OpenRun) : (s.setRun r).consumed = s.consumed := rfl
@[simp] theorem State.setRun_sIn (r : Option OpenRun) : (s.setRun r).sIn = s.sIn := rfl
@[simp] theorem State.setRun_gIn (r : Option OpenRun) : (s.setRun r).gIn = s.gIn := rfl
@[simp] theorem State.setRun_pIn (r : Option OpenRun) : (s.setRun r).pIn = s.pIn := rfl
@[simp] theorem State.setRun_dec (r : Option OpenRun) : (s.setRun r).dec = s.dec := rfl
@[simp] theorem State.setRun_epoch (r : Option OpenRun) : (s.setRun r).epoch = s.epoch := rfl

/-! ### `setCe` -/

@[simp] theorem State.setCe_cfg (v : Byte) (rem lit : Nat) : (s.setCe v rem lit).cfg = s.cfg := rfl
@[simp] theorem State.setCe_rst (v : Byte) (rem lit : Nat) : (s.setCe v rem lit).rst = s.rst := rfl
@[simp] theorem State.setCe_st (v : Byte) (rem lit : Nat) : (s.setCe v rem lit).st = s.st := rfl
@[simp] theorem State.setCe_fc (v : Byte) (rem lit : Nat) : (s.setCe v rem lit).fc = s.fc := rfl
@[simp] theorem State.setCe_openRun (v : Byte) (rem lit : Nat) : (s.setCe v rem lit).openRun = s.openRun := rfl
@[simp] theorem State.setCe_cv (v : Byte) (rem lit : Nat) : (s.setCe v rem lit).cv = v := rfl
@[simp] theorem State.setCe_crem (v : Byte) (rem lit : Nat) : (s.setCe v rem lit).crem = rem := rfl
@[simp] theorem State.setCe_clit (v : Byte) (rem lit : Nat) : (s.setCe v rem lit).clit = lit := rfl
@[simp] theorem State.setCe_wp (v : Byte) (rem lit : Nat) : (s.setCe v rem lit).wp = s.wp := rfl
@[simp] theorem State.setCe_fb (v : Byte) (rem lit : Nat) : (s.setCe v rem lit).fb = s.fb := rfl
@[simp] theorem State.setCe_sy (v : Byte) (rem lit : Nat) : (s.setCe v rem lit).sy = s.sy := rfl
@[simp] theorem State.setCe_sx (v : Byte) (rem lit : Nat) : (s.setCe v rem lit).sx = s.sx := rfl
@[simp] theorem State.setCe_out (v : Byte) (rem lit : Nat) : (s.setCe v rem lit).out = s.out := rfl
@[simp] theorem State.setCe_consumed (v : Byte) (rem lit : Nat) : (s.setCe v rem lit).consumed = s.consumed := rfl
@[simp] theorem State.setCe_sIn (v : Byte) (rem lit : Nat) : (s.setCe v rem lit).sIn = s.sIn := rfl
@[simp] theorem State.setCe_gIn (v : Byte) (rem lit : Nat) : (s.setCe v rem lit).gIn = s.gIn := rfl
@[simp] theorem State.setCe_pIn (v : Byte) (rem lit : Nat) : (s.setCe v rem lit).pIn = s.pIn := rfl
@[simp] theorem State.setCe_dec (v : Byte) (rem lit : Nat) : (s.setCe v rem lit).dec = s.dec := rfl
@[simp] theorem State.setCe_epoch (v : Byte) (rem lit : Nat) : (s.setCe v rem lit).epoch = s.epoch := rfl

/-! ### `setWp` -/

@[simp] theorem State.setWp_cfg (a : Nat) : (s.setWp a).cfg = s.cfg := rfl
@[simp] theorem State.setWp_rst (a : Nat) : (s.setWp a).rst = s.rst := rfl
@[simp] theorem State.setWp_st (a : Nat) : (s.setWp a).st = s.st := rfl
@[simp] theorem State.setWp_fc (a : Nat) : (s.setWp a).fc = s.fc := rfl
@[simp] theorem State.setWp_openRun (a : Nat) : (s.setWp a).openRun = s.openRun := rfl
@[simp] theorem State.setWp_cv (a : Nat) : (s.setWp a).cv = s.cv := rfl
@[simp] theorem State.setWp_crem (a : Nat) : (s.setWp a).crem = s.crem := rfl
@[simp] theorem State.setWp_clit (a : Nat) : (s.setWp a).clit = s.clit := rfl
@[simp] theorem State.setWp_wp (a : Nat) : (s.setWp a).wp = a := rfl
@[simp] theorem State.setWp_fb (a : Nat) : (s.setWp a).fb = s.fb := rfl
@[simp] theorem State.setWp_sy (a : Nat) : (s.setWp a).sy = s.sy := rfl
@[simp] theorem State.setWp_sx (a : Nat) : (s.setWp a).sx = s.sx := rfl
@[simp] theorem State.setWp_out (a : Nat) : (s.setWp a).out = s.out := rfl
@[simp] theorem State.setWp_consumed (a : Nat) : (s.setWp a).consumed = s.consumed := rfl
@[simp] theorem State.setWp_sIn (a : Nat) : (s.setWp a).sIn = s.sIn := rfl
@[simp] theorem State.setWp_gIn (a : Nat) : (s.setWp a).gIn = s.gIn := rfl
@[simp] theorem State.setWp_pIn (a : Nat) : (s.setWp a).pIn = s.pIn := rfl
@[simp] theorem State.setWp_dec (a : Nat) : (s.setWp a).dec = s.dec := rfl
@[simp] theorem State.setWp_epoch (a : Nat) : (s.setWp a).epoch = s.epoch := rfl

/-! ### `setScan` -/

@[simp] theorem State.setScan_cfg (y x : Nat) : (s.setScan y x).cfg = s.cfg := rfl
@[simp] theorem State.setScan_rst (y x : Nat) : (s.setScan y x).rst = s.rst := rfl
@[simp] theorem State.setScan_st (y x : Nat) : (s.setScan y x).st = s.st := rfl
@[simp] theorem State.setScan_fc (y x : Nat) : (s.setScan y x).fc = s.fc := rfl
@[simp] theorem State.setScan_openRun (y x : Nat) : (s.setScan y x).openRun = s.openRun := rfl
@[simp] theorem State.setScan_cv (y x : Nat) : (s.setScan y x).cv = s.cv := rfl
@[simp] theorem State.setScan_crem (y x : Nat) : (s.setScan y x).crem = s.crem := rfl
@[simp] theorem State.setScan_clit (y x : Nat) : (s.setScan y x).clit = s.clit := rfl
@[simp] theorem State.setScan_wp (y x : Nat) : (s.setScan y x).wp = s.wp := rfl
@[simp] theorem State.setScan_fb (y x : Nat) : (s.setScan y x).fb = s.fb := rfl
@[simp] theorem State.setScan_sy (y x : Nat) : (s.setScan y x).sy = y := rfl
@[simp] theorem State.setScan_sx (y x : Nat) : (s.setScan y x).sx = x := rfl
@[simp] theorem State.setScan_out (y x : Nat) : (s.setScan y x).out = s.out := rfl
@[simp] theorem State.setScan_consumed (y x : Nat) : (s.setScan y x).consumed = s.consumed := rfl
@[simp] theorem State.setScan_sIn (y x : Nat) : (s.setScan y x).sIn = s.sIn := rfl
@[simp] theorem State.setScan_gIn (y x : Nat) : (s.setScan y x).gIn = s.gIn := rfl
@[simp] theorem State.setScan_pIn (y x : Nat) : (s.setScan y x).pIn = s.pIn := rfl
@[simp] theorem State.setScan_dec (y x : Nat) : (s.setScan y x).dec = s.dec := rfl
@[simp] theorem State.setScan_epoch (y x : Nat) : (s.setScan y x).epoch = s.epoch := rfl

/-! ### `setDec` -/

@[simp] theorem State.setDec_cfg (d : RefDecoder) : (s.setDec d).cfg = s.cfg := rfl
@[simp] theorem State.setDec_rst (d : RefDecoder) : (s.setDec d).rst = s.rst := rfl
@[simp] theorem State.setDec_st (d : RefDecoder) : (s.setDec d).st = s.st := rfl
@[simp] theorem State.setDec_fc (d : RefDecoder) : (s.setDec d).fc = s.fc := rfl
@[simp] theorem State.setDec_openRun (d : RefDecoder) : (s.setDec d).openRun = s.openRun := rfl
@[simp] theorem State.setDec_cv (d : RefDecoder) : (s.setDec d).cv = s.cv := rfl
@[simp] theorem State.setDec_crem (d : RefDecoder) : (s.setDec d).crem = s.crem := rfl
@[simp] theorem State.setDec_clit (d : RefDecoder) : (s.setDec d).clit = s.clit := rfl
@[simp] theorem State.setDec_wp (d : RefDecoder) : (s.setDec d).wp = s.wp := rfl
@[simp] theorem State.setDec_fb (d : RefDecoder) : (s.setDec d).fb = s.fb := rfl
@[simp] theorem State.setDec_sy (d : RefDecoder) : (s.setDec d).sy = s.sy := rfl
@[simp] theorem State.setDec_sx (d : RefDecoder) : (s.setDec d).sx = s.sx := rfl
@[simp] theorem State.setDec_out (d : RefDecoder) : (s.setDec d).out = s.out := rfl
@[simp] theorem State.setDec_consumed (d : RefDecoder) : (s.setDec d).consumed = s.consumed := rfl
@[simp] theorem State.setDec_sIn (d : RefDecoder) : (s.setDec d).sIn = s.sIn := rfl
@[simp] theorem State.setDec_gIn (d : RefDecoder) : (s.setDec d).gIn = s.gIn := rfl
@[simp] theorem State.setDec_pIn (d : RefDecoder) : (s.setDec d).pIn = s.pIn := rfl
@[simp] theorem State.setDec_dec (d : RefDecoder) : (s.setDec d).dec = d := rfl
@[simp] theorem State.setDec_epoch (d : RefDecoder) : (s.setDec d).epoch = s.epoch := rfl

/-! ### `writeCell` -/

@[simp] theorem State.writeCell_cfg (a : Nat) (p : Bool) : (s.writeCell a p).cfg = s.cfg := rfl
@[simp] theorem State.writeCell_rst (a : Nat) (p : Bool) : (s.writeCell a p).rst = s.rst := rfl
@[simp] theorem State.writeCell_st (a : Nat) (p : Bool) : (s.writeCell a p).st = s.st := rfl
@[simp] theorem State.writeCell_fc (a : Nat) (p : Bool) : (s.writeCell a p).fc = s.fc := rfl
@[simp] theorem State.writeCell_openRun (a : Nat) (p : Bool) : (s.writeCell a p).openRun = s.openRun := rfl
@[simp] theorem State.writeCell_cv (a : Nat) (p : Bool) : (s.writeCell a p).cv = s.cv := rfl
@[simp] theorem State.writeCell_crem (a : Nat) (p : Bool) : (s.writeCell a p).crem = s.crem := rfl
@[simp] theorem State.writeCell_clit (a : Nat) (p : Bool) : (s.writeCell a p).clit = s.clit := rfl
@[simp] theorem State.writeCell_wp (a : Nat) (p : Bool) : (s.writeCell a p).wp = s.wp := rfl
@[simp] theorem State.writeCell_fb (a : Nat) (p : Bool) : (s.writeCell a p).fb = Memory.set s.fb a (pixelByte p) := rfl
@[simp] theorem State.writeCell_sy (a : Nat) (p : Bool) : (s.writeCell a p).sy = s.sy := rfl
@[simp] theorem State.writeCell_sx (a : Nat) (p : Bool) : (s.writeCell a p).sx = s.sx := rfl
@[simp] theorem State.writeCell_out (a : Nat) (p : Bool) : (s.writeCell a p).out = s.out := rfl
@[simp] theorem State.writeCell_consumed (a : Nat) (p : Bool) : (s.writeCell a p).consumed = s.consumed := rfl
@[simp] theorem State.writeCell_sIn (a : Nat) (p : Bool) : (s.writeCell a p).sIn = s.sIn := rfl
@[simp] theorem State.writeCell_gIn (a : Nat) (p : Bool) : (s.writeCell a p).gIn = s.gIn := rfl
@[simp] theorem State.writeCell_pIn (a : Nat) (p : Bool) : (s.writeCell a p).pIn = s.pIn := rfl
@[simp] theorem State.writeCell_dec (a : Nat) (p : Bool) : (s.writeCell a p).dec = s.dec := rfl
@[simp] theorem State.writeCell_epoch (a : Nat) (p : Bool) : (s.writeCell a p).epoch = s.epoch := rfl

end Sys2Proof.Machine
end

