-- ==== Sys2Proof/Laws/Memory.lean ====
section
/-! SUPPORT. The frame buffer: a read after a write, and the canonical form. -/

namespace Sys2Proof.Machine

/-- A write is read back. -/
theorem Memory.get?_set_self (m : List Host.Cell) (a : Nat) (b : Byte) : Memory.get? (Memory.set m a b) a = some b := by
  induction m with
  | nil => simp [Memory.set, Memory.get?]
  | cons e m ih =>
    obtain ⟨k, c⟩ := e
    simp only [Memory.set]
    split
    · simp [Memory.get?]
    · split
      · simp [Memory.get?]
      · rename_i h; simp [Memory.get?, h, ih]

/-- A write leaves every other address alone. -/
theorem Memory.get?_set_of_ne {a a' : Nat} (h : a' ≠ a) (m : List Host.Cell) (b : Byte) :
    Memory.get? (Memory.set m a b) a' = Memory.get? m a' := by
  induction m with
  | nil => simp [Memory.set, Memory.get?, h]
  | cons e m ih =>
    obtain ⟨k, c⟩ := e
    simp only [Memory.set]
    split
    · simp [Memory.get?, h]
    · split
      · rename_i hk; subst hk; simp [Memory.get?, h]
      · simp only [Memory.get?, ih]

/-- A write within the address space keeps the canonical form. -/
theorem Memory.wfFrom_set {n a lo : Nat} {b : Byte} (m : List Host.Cell) (hm : Memory.wfFrom n lo m = true) (hlo : lo ≤ a)
    (ha : a < n) (hb : b.toNat < 2) : Memory.wfFrom n lo (Memory.set m a b) = true := by
  induction m generalizing lo with
  | nil => simp [Memory.set, Memory.wfFrom, hlo, ha, hb]
  | cons e m ih =>
    obtain ⟨k, c⟩ := e
    simp only [Memory.wfFrom, Bool.and_eq_true, decide_eq_true_eq] at hm
    obtain ⟨⟨⟨h1, h2⟩, h3⟩, h4⟩ := hm
    simp only [Memory.set]
    split
    · simp only [Memory.wfFrom, Bool.and_eq_true, decide_eq_true_eq]
      exact ⟨⟨⟨hlo, ha⟩, hb⟩, ⟨⟨by omega, h2⟩, h3⟩, h4⟩
    · split
      · rename_i hk; subst hk
        simp only [Memory.wfFrom, Bool.and_eq_true, decide_eq_true_eq]
        exact ⟨⟨⟨h1, h2⟩, hb⟩, h4⟩
      · simp only [Memory.wfFrom, Bool.and_eq_true, decide_eq_true_eq]
        exact ⟨⟨⟨h1, h2⟩, h3⟩, ih h4 (by omega)⟩

/-- A write within the address space keeps the canonical form of a frame buffer. -/
theorem Memory.wf_set {n a : Nat} {b : Byte} {m : List Host.Cell} (hm : Memory.wf n m = true) (ha : a < n)
    (hb : b.toNat < 2) : Memory.wf n (Memory.set m a b) = true :=
  Memory.wfFrom_set m hm (Nat.zero_le a) ha hb

/-- The frame buffer after reset has the canonical form. -/
theorem Memory.wf_reset (n : Nat) (c : Config) : Memory.wf n (State.resetWith c).fb = true := rfl

/-- A pixel's byte is a bit. -/
theorem pixelByte_lt (p : Bool) : (pixelByte p).toNat < 2 := by cases p <;> decide

/-- A cell written is read back (rule R53). -/
theorem State.readCell_writeCell_self (s : State) (a : Nat) (p : Bool) : (s.writeCell a p).readCell a = p := by
  simp only [State.readCell, State.writeCell_fb, Memory.get?_set_self]
  cases p <;> decide

/-- A write changes no other cell (rule R53). -/
theorem State.readCell_writeCell_of_ne {a a' : Nat} (h : a' ≠ a) (s : State) (p : Bool) :
    (s.writeCell a p).readCell a' = s.readCell a' := by
  simp only [State.readCell, State.writeCell_fb, State.writeCell_epoch, Memory.get?_set_of_ne h]

/-- A read depends on the frame buffer and the count of resets alone. -/
theorem State.readCell_congr {s t : State} (hf : t.fb = s.fb) (he : t.epoch = s.epoch) : t.readCell = s.readCell := by
  funext a
  simp only [State.readCell, hf, he]

end Sys2Proof.Machine
end

