-- ==== Sys2Proof/Laws/Ops.lean ====
section
/-! SUPPORT. Sequencing, faults and the guards of the tokens. -/

namespace Sys2Proof.Machine

@[simp] theorem Flow.andThen_goes (s : State) (k : State → Flow) : (Flow.goes s).andThen k = k s := rfl

@[simp] theorem Flow.andThen_raised (s : State) (k : State → Flow) : (Flow.raised s).andThen k = .raised s := rfl

@[simp] theorem Flow.state_goes (s : State) : (Flow.goes s).state = s := rfl

@[simp] theorem Flow.state_raised (s : State) : (Flow.raised s).state = s := rfl

/-- A sequence goes on to its end only if its first statement did. -/
theorem Flow.andThen_eq_goes {f : Flow} {k : State → Flow} {t : State} (h : f.andThen k = .goes t) :
    ∃ s, f = .goes s ∧ k s = .goes t := by
  cases f with
  | goes s => exact ⟨s, rfl, h⟩
  | raised s => cases h

/-- A token of the block that answers a next state was not taken, or ran. -/
theorem accept_cases {s t : State} {r : Host.Outcome State Fault Refusal} (h : accept s r = .next t) :
    s.cfg.wf = true ∧ ((s.ready = false ∧ t = s) ∨ (s.ready = true ∧ r = .next t)) := by
  unfold accept at h
  split at h
  · rename_i hw
    refine ⟨hw, ?_⟩
    split at h
    · rename_i hr; exact .inr ⟨hr, h⟩
    · rename_i hr; injection h with h; exact .inl ⟨by simpa using hr, h.symm⟩
  · cases h

/-- A token the block takes runs. -/
theorem accept_ready {s : State} {r : Host.Outcome State Fault Refusal} (hw : s.cfg.wf = true) (hr : s.ready = true) :
    accept s r = r := by simp [accept, hw, hr]

/-- A token the block does not take changes nothing. -/
theorem accept_not_ready {s : State} {r : Host.Outcome State Fault Refusal} (hw : s.cfg.wf = true) (hr : s.ready = false) :
    accept s r = .next s := by simp [accept, hw, hr]

/-- What `ready` says. -/
theorem State.ready_iff {s : State} :
    s.ready = true ↔ s.rst = false ∧ s.st = .run ∧ s.crem = 0 ∧ s.clit = 0 := by
  simp [State.ready, State.ceIdle, and_assoc]

/-- What `portReady` says. -/
theorem State.portReady_iff {s : State} : s.portReady = true ↔ s.ready = true ∧ s.pIn = [] := by
  simp [State.portReady]

/-- A `PIPE` runs the tokens of port `S`. -/
theorem onPortS_pipe {s : State} {r : Host.Outcome State Fault Refusal} (h : s.cfg.block = .pipe) : onPortS s r = r := by
  simp [onPortS, h]

/-- A token of port `S` that answers a next state stands on a `PIPE`. -/
theorem onPortS_cases {s t : State} {r : Host.Outcome State Fault Refusal} (h : onPortS s r = .next t) :
    s.cfg.block = .pipe ∧ r = .next t := by
  unfold onPortS at h
  split at h
  · exact ⟨‹_›, h⟩
  · cases h

/-- A byte the reference decoder is offered changes that decoder alone, and only while it runs. -/
theorem decoderTakes_cases (s : State) (d : RefDecoder) :
    (s.dec.verdict = .running ∧ decoderTakes s d = .next (s.setDec d)) ∨
    (s.dec.verdict ≠ .running ∧ decoderTakes s d = .next s) := by
  unfold decoderTakes
  split
  · exact .inl ⟨‹_›, rfl⟩
  · exact .inr ⟨‹_›, rfl⟩

/-- `ready` depends on `rst`, `st` and the compact encoder alone. -/
theorem State.ready_congr {s t : State} (h : s.ready = true) (h1 : t.rst = s.rst) (h2 : t.st = s.st) (h3 : t.crem = s.crem)
    (h4 : t.clit = s.clit) : t.ready = true := by
  rw [State.ready_iff] at *; rw [h1, h2, h3, h4]; exact h

/-- A block that has stopped takes no token. -/
theorem State.not_ready_of_stopped {s : State} (h : s.st ≠ .run) : s.ready = false := by simp [State.ready, h]

end Sys2Proof.Machine
end

