-- ==== Sys2Proof/Laws/Compact.lean ====
section
/-! SUPPORT. The compact-encoder stage: what a run of micro-steps emits, and what `send_P` can do. -/

namespace Sys2Proof.Machine

/-- A state in which the compact encoder has finished the pair of value `v`, having emitted `bs`. -/
def State.ceDone (s : State) (v : Byte) (bs : List Byte) : State :=
  { s with cv := v, crem := 0, clit := 0, out := s.out ++ bs }

theorem chunkLen_pos {c : Nat} (h : 0 < c) : 0 < chunkLen c := by simp only [chunkLen, maxRun]; omega

theorem chunkLen_le (c : Nat) : chunkLen c ≤ c := by simp only [chunkLen]; omega

/-- Any fuel that reaches the count computes the same bytes. -/
theorem chunkFuel_eq {v : Byte} : ∀ {k k' c : Nat}, c ≤ k → c ≤ k' → chunkFuel k v c = chunkFuel k' v c
  | 0, k', c, h, _ => by
    obtain rfl : c = 0 := by omega
    cases k' <;> simp [chunkFuel]
  | k + 1, 0, c, _, h => by
    obtain rfl : c = 0 := by omega
    simp [chunkFuel]
  | k + 1, k' + 1, c, h, h' => by
    simp only [chunkFuel]
    split
    · rfl
    · have hp := chunkLen_pos (Nat.pos_of_ne_zero ‹_›)
      rw [chunkFuel_eq (k := k) (k' := k') (by omega) (by omega)]

@[simp] theorem chunk_zero (v : Byte) : chunk v 0 = [] := rfl

/-- One chunk, then the rest. -/
theorem chunk_pos {v : Byte} {c : Nat} (h : 0 < c) : chunk v c = piece v (chunkLen c) ++ chunk v (c - chunkLen c) := by
  have hp := chunkLen_pos h
  cases c with
  | zero => omega
  | succ k =>
    simp only [chunk, chunkFuel]
    rw [if_neg (by omega), chunkFuel_eq (k := k) (k' := k + 1 - chunkLen (k + 1)) (by omega) (by omega)]

/-- From any state of the compact encoder, with fuel for it, the micro-steps emit the literals owed and then the chunks of
what remains, and leave the encoder idle. -/
theorem drain_eq : ∀ (k : Nat) (s : State), s.crem + s.clit ≤ k →
    drain k s = s.ceDone s.cv (List.replicate s.clit s.cv ++ chunk s.cv s.crem)
  | 0, s, h => by
    obtain ⟨h1, h2⟩ : s.crem = 0 ∧ s.clit = 0 := by omega
    cases s; simp_all [drain, State.ceDone]
  | k + 1, s, h => by
    simp only [drain]
    split
    · rename_i hi
      obtain ⟨h1, h2⟩ : s.crem = 0 ∧ s.clit = 0 := by simpa [State.ceIdle] using hi
      cases s; simp_all [State.ceDone]
    · rename_i hi
      unfold microStep
      split
      · rename_i hl
        rw [drain_eq k _ (by simp [continueChunk]; omega)]
        obtain ⟨n, hn⟩ : ∃ n, s.clit = n + 1 := ⟨s.clit - 1, by omega⟩
        simp [continueChunk, State.ceDone, State.emit, State.setCe, hn, List.replicate_succ]
      · rename_i hl
        have h0 : s.clit = 0 := by omega
        have hc : 0 < s.crem := by
          by_contra hc; exact hi (by simp [State.ceIdle, h0]; omega)
        rw [if_pos hc]
        have hp := chunkLen_pos hc
        have hle := chunkLen_le s.crem
        unfold startChunk
        split
        · rename_i hlit
          rw [drain_eq k _ (by simp; omega), chunk_pos hc]
          obtain ⟨n, hn⟩ : ∃ n, chunkLen s.crem = n + 1 := ⟨chunkLen s.crem - 1, by omega⟩
          rw [hn] at hlit
          simp [State.ceDone, State.emit, State.setCe, piece, hlit, h0, hn, List.replicate_succ]
        · rename_i hlit
          rw [drain_eq k _ (by simp; omega), chunk_pos hc]
          simp [State.ceDone, State.emit, State.setCe, piece, hlit, h0]

/-- `PAIR` of a glyph code: its chunk's bytes, and the encoder idle (rules R141, R144). -/
theorem cePair_glyph {v : Byte} (hv : isGlyph v = true) (c : Nat) (s : State) :
    cePair v c s = .goes (s.ceDone v (chunk v c)) := by
  simp only [cePair, hv, if_true]
  rw [drain_eq c _ (by simp)]
  simp [State.ceDone, State.setCe]

/-- `PAIR` of any other value raises `INV` before anything is emitted (rule R141). -/
theorem cePair_not_glyph {v : Byte} (hv : isGlyph v = false) (c : Nat) (s : State) : cePair v c s = raise .inv s := by
  simp [cePair, hv]

/-- The glyph codes are `128..191`. -/
theorem isGlyph_iff : ∀ v : Byte, isGlyph v = true ↔ 128 ≤ v.toNat ∧ v.toNat ≤ 191 := by decide

/-- The other values. -/
theorem isGlyph_eq_false_iff (v : Byte) : isGlyph v = false ↔ v.toNat < 128 ∨ 191 < v.toNat := by
  have := isGlyph_iff v
  cases h : isGlyph v <;> simp [h] at this ⊢ <;> omega

/-- In a state that takes tokens the compact encoder was idle already, so only `cv` and `out` change. -/
theorem State.ceDone_ready {s : State} (h : s.ready = true) (v : Byte) (bs : List Byte) :
    s.ceDone v bs = { s with cv := v, out := s.out ++ bs } := by
  have := State.ready_iff.1 h
  cases s; simp_all [State.ceDone]

end Sys2Proof.Machine
end

