-- ==== Sys2Proof/Laws/Decode.lean ====
section
/-! SUPPORT. What each format's decoder reads from a word put together from its fields. -/

namespace Sys2Proof

/-- An S token's kind and data are read back (rule R82). -/
theorem decodeST_sample : ∀ d : Byte, decodeST (0#1 ++ d) = .s d := by decide

/-- Kind 1 of an S token is `FIN`, whatever its data (rule R82). -/
theorem decodeST_fin : ∀ d : Byte, decodeST (1#1 ++ d) = .fin := by decide

/-- A G token's kind and data are read back (rule R80). -/
theorem decodeGT_glyph : ∀ v : Byte, decodeGT (0#2 ++ v) = .g v := by decide

/-- Kinds 1, 2 and 3 of a G token ignore their data (rule R80). -/
theorem decodeGT_kinds : ∀ d : Byte,
    decodeGT (1#2 ++ d) = .eof ∧ decodeGT (2#2 ++ d) = .eos ∧ decodeGT (3#2 ++ d) = .grsv := by decide

/-- A blank run's length is read back (rule R72). -/
theorem decodeCB_blk : ∀ n : BitVec 6, n ≠ 0 → decodeCB (0#2 ++ n) = .blk n := by decide

/-- A full run's length is read back (rule R72). -/
theorem decodeCB_ful : ∀ n : BitVec 6, n ≠ 0 → decodeCB (3#2 ++ n) = .ful n := by decide

/-- A byte of tag `10` is a literal (rule R72). -/
theorem decodeCB_lit : ∀ v : Byte, v.extractLsb' 6 2 = 2 → decodeCB v = .lit v := by decide

/-- A P word put together from its fields, below the kind (rule R84). -/
theorem pairFields_lt {cntW c : Nat} (v : Byte) (hc : c < 2 ^ cntW) : v.toNat * 2 ^ cntW + c < 2 ^ (cntW + 8) := by
  have hv := v.isLt
  rw [Nat.pow_add]
  nlinarith

/-- A P word of kind `k` is as wide as its format for the four kinds (rule R70). -/
theorem ptWidth (cntW : Nat) : 2 ^ (cntW + 10) = 4 * 2 ^ (cntW + 8) := by
  rw [show cntW + 10 = (cntW + 8) + 2 from rfl, Nat.pow_add, Nat.mul_comm]

/-- The kind field selects among the P tokens (rule R84). -/
theorem decodePT_kind {cntW x : Nat} (k : Nat) (hx : x < 2 ^ (cntW + 8)) (hk : k < 4) :
    decodePT cntW (k * 2 ^ (cntW + 8) + x) =
      if k = 0 then .ok (.pair (BitVec.ofNat 8 (x / 2 ^ cntW)) (x % 2 ^ cntW))
      else if k = 1 then .ok .meof else if k = 2 then .ok .meos else .error .pKind3 := by
  have hpos : 0 < 2 ^ (cntW + 8) := Nat.two_pow_pos _
  have hq : (k * 2 ^ (cntW + 8) + x) / 2 ^ (cntW + 8) = k := by
    rw [Nat.mul_comm, Nat.mul_add_div hpos, Nat.div_eq_of_lt hx, Nat.add_zero]
  have hw : k * 2 ^ (cntW + 8) + x < 2 ^ (cntW + 10) := by rw [ptWidth]; nlinarith
  unfold decodePT
  rw [if_neg (Nat.not_le_of_lt hw), hq]
  split
  · rename_i h0; subst h0; simp
  · rfl

/-- A pair's fields are read back (rule R84). -/
theorem decodePT_pair {cntW c : Nat} (v : Byte) (hc : c < 2 ^ cntW) :
    decodePT cntW (v.toNat * 2 ^ cntW + c) = .ok (.pair v c) := by
  have h := decodePT_kind 0 (pairFields_lt v hc) (by decide)
  have hpos : 0 < 2 ^ cntW := Nat.two_pow_pos cntW
  rw [Nat.zero_mul, Nat.zero_add] at h
  rw [h, if_pos rfl, Nat.mul_comm, Nat.mul_add_div hpos, Nat.div_eq_of_lt hc, Nat.mul_add_mod, Nat.mod_eq_of_lt hc]
  simp

end Sys2Proof
end

