-- ==== Sys2Proof/Laws/RunLength.lean ====
section
/-! SUPPORT. The run-length stage: what each G token does, case by case, and what none of them touches. -/

namespace Sys2Proof.Machine

/-- Fields no token of the core writes: the front end, the host's inputs, the configuration, the reference decoder. -/
structure State.SameFront (s t : State) : Prop where
  cfg : t.cfg = s.cfg
  rst : t.rst = s.rst
  wp : t.wp = s.wp
  fb : t.fb = s.fb
  sy : t.sy = s.sy
  sx : t.sx = s.sx
  sIn : t.sIn = s.sIn
  gIn : t.gIn = s.gIn
  pIn : t.pIn = s.pIn
  dec : t.dec = s.dec
  epoch : t.epoch = s.epoch
  consumed : t.consumed = s.consumed

theorem State.SameFront.refl (s : State) : s.SameFront s := ⟨rfl, rfl, rfl, rfl, rfl, rfl, rfl, rfl, rfl, rfl, rfl, rfl⟩

theorem State.SameFront.trans {s t u : State} (h : s.SameFront t) (k : t.SameFront u) : s.SameFront u :=
  ⟨k.1.trans h.1, k.2.trans h.2, k.3.trans h.3, k.4.trans h.4, k.5.trans h.5, k.6.trans h.6, k.7.trans h.7, k.8.trans h.8,
    k.9.trans h.9, k.10.trans h.10, k.11.trans h.11, k.12.trans h.12⟩

/-- `G` with no open run opens one. -/
theorem rleG_opens {v : Byte} {s : State} (h : s.openRun = none) :
    rleG v s = .goes (s.setRun (some { rv := v, rc := 1 })) := by simp [rleG, h]

/-- `G` of the open run's value lengthens it. -/
theorem rleG_extends {r : OpenRun} {s : State} (h : s.openRun = some r) (hc : r.rc ≠ s.cfg.cntMax) :
    rleG r.rv s = .goes (s.setRun (some { rv := r.rv, rc := r.rc + 1 })) := by simp [rleG, h, hc]

/-- `G` of the value of a full run raises `OVF`. -/
theorem rleG_overflows {r : OpenRun} {s : State} (h : s.openRun = some r) (hc : r.rc = s.cfg.cntMax) :
    rleG r.rv s = raise .ovf s := by simp [rleG, h, hc]

/-- `G` of another value sends the open run, of a glyph, and opens a new one. -/
theorem rleG_closes {v : Byte} {r : OpenRun} {s : State} (h : s.openRun = some r) (hv : v ≠ r.rv)
    (hg : isGlyph r.rv = true) :
    rleG v s = .goes ((s.ceDone r.rv (chunk r.rv r.rc)).setRun (some { rv := v, rc := 1 })) := by
  simp [rleG, h, hv, sendP, cePair_glyph hg]

/-- `G` of another value than a run of no glyph raises `INV`. -/
theorem rleG_invalid {v : Byte} {r : OpenRun} {s : State} (h : s.openRun = some r) (hv : v ≠ r.rv)
    (hg : isGlyph r.rv = false) : rleG v s = raise .inv s := by
  simp [rleG, h, hv, sendP, cePair_not_glyph hg, raise]

/-- `EOF` with no open run emits the terminator. -/
theorem rleEof_empty {s : State} (h : s.openRun = none) : rleEof s = .goes (s.emit 0x00) := by
  simp [rleEof, h, sendP, ceMeof]

/-- `EOF` sends the open run, of a glyph, and the terminator. -/
theorem rleEof_closes {r : OpenRun} {s : State} (h : s.openRun = some r) (hg : isGlyph r.rv = true) :
    rleEof s = .goes (((s.ceDone r.rv (chunk r.rv r.rc)).setRun none).emit 0x00) := by
  simp [rleEof, h, sendP, cePair_glyph hg, ceMeof]

/-- `EOF` over a run of no glyph raises `INV`. -/
theorem rleEof_invalid {r : OpenRun} {s : State} (h : s.openRun = some r) (hg : isGlyph r.rv = false) :
    rleEof s = raise .inv s := by
  simp [rleEof, h, sendP, cePair_not_glyph hg, raise]

/-- `EOS` between frames emits the stream terminator and ends the run. -/
theorem rleEos_ends {s : State} (h : s.openRun = none) : rleEos s = .goes ((s.emit 0x00).setSt .done) := by
  simp [rleEos, h, sendP, ceMeos]

/-- `EOS` inside a frame raises `PROTO`. -/
theorem rleEos_open {r : OpenRun} {s : State} (h : s.openRun = some r) : rleEos s = raise .proto s := by
  simp [rleEos, h]

/-- The run register after a token that raised no fault: unchanged, closed, opened, or one longer than a run that was not
full. -/
def RunMove (s : State) (r : Option OpenRun) : Prop :=
  r = s.openRun ∨ r = none ∨ ∃ q, r = some q ∧
    (q.rc = 1 ∨ ∃ p, s.openRun = some p ∧ p.rc ≠ s.cfg.cntMax ∧ q.rc = p.rc + 1)

/-- Everything a G token can do: raise a fault with nothing else changed; or go on, having changed at most the run
register, the compact encoder (left as it was, or idle), the output and, for `EOS`, the run state. -/
theorem sendG_cases (t : GToken) (s : State) :
    (∃ f, f ≠ .none ∧ sendG t s = raise f s) ∨
    (∃ r v m l bs x, sendG t s =
        .goes { s with openRun := r, cv := v, crem := m, clit := l, out := s.out ++ bs, st := x } ∧
      (m = s.crem ∧ l = s.clit ∨ m = 0 ∧ l = 0) ∧ (x = s.st ∨ t = .eos ∧ x = .done) ∧ RunMove s r ∧
      (t = .eof → r = none) ∧ (t = .eos → s.openRun = none)) := by
  cases t with
  | g v =>
    simp only [sendG]
    cases h : s.openRun with
    | none =>
      refine .inr ⟨some ⟨v, 1⟩, s.cv, s.crem, s.clit, [], s.st, ?_, by simp, by simp, .inr (.inr ⟨_, rfl, by simp⟩), by simp, by simp⟩
      rw [rleG_opens h]; simp [State.setRun]
    | some r =>
      by_cases hv : v = r.rv
      · subst hv
        by_cases hc : r.rc = s.cfg.cntMax
        · exact .inl ⟨.ovf, by simp, rleG_overflows h hc⟩
        · refine .inr ⟨some ⟨r.rv, r.rc + 1⟩, s.cv, s.crem, s.clit, [], s.st, ?_, by simp, by simp, .inr (.inr ⟨_, rfl, ?_⟩), by simp, by simp⟩
          · rw [rleG_extends h hc]; simp [State.setRun]
          · exact .inr ⟨r, h, hc, rfl⟩
      · cases hg : isGlyph r.rv with
        | true =>
          refine .inr ⟨some ⟨v, 1⟩, r.rv, 0, 0, chunk r.rv r.rc, s.st, ?_, by simp, by simp, .inr (.inr ⟨_, rfl, by simp⟩), by simp, by simp⟩
          rw [rleG_closes h hv hg]; rfl
        | false => exact .inl ⟨.inv, by simp, rleG_invalid h hv hg⟩
  | eof =>
    simp only [sendG]
    cases h : s.openRun with
    | none =>
      refine .inr ⟨none, s.cv, s.crem, s.clit, [0x00], s.st, ?_, by simp, by simp, .inr (.inl rfl), by simp, by simp⟩
      rw [rleEof_empty h, ← h]; rfl
    | some r =>
      cases hg : isGlyph r.rv with
      | true =>
        refine .inr ⟨none, r.rv, 0, 0, chunk r.rv r.rc ++ [0x00], s.st, ?_, by simp, by simp, .inr (.inl rfl), by simp, by simp⟩
        rw [rleEof_closes h hg]; simp [State.emit, State.setRun, State.ceDone]
      | false => exact .inl ⟨.inv, by simp, rleEof_invalid h hg⟩
  | eos =>
    simp only [sendG]
    cases h : s.openRun with
    | none =>
      refine .inr ⟨none, s.cv, s.crem, s.clit, [0x00], .done, ?_, by simp, by simp, .inr (.inl rfl), by simp, by simp⟩
      rw [rleEos_ends h, ← h]; rfl
    | some r => exact .inl ⟨.proto, by simp, rleEos_open h⟩
  | reserved => exact .inl ⟨.proto, by simp, rfl⟩

/-- How a rule run from `s` ends: a fault is recorded; or `fc` is as it was, and so is `st` but for the end of the stream. -/
def Flow.Ends (s : State) : Flow → Prop
  | .raised t => t.st = .fault ∧ t.fc ≠ .none
  | .goes t => t.fc = s.fc ∧ (t.st = s.st ∨ t.st = .done)

/-- What that says of the state a rule ends in. -/
theorem Flow.Ends.state {s : State} {f : Flow} (h : f.Ends s) :
    (f.state.st = .fault ∧ f.state.fc ≠ .none) ∨ (f.state.fc = s.fc ∧ (f.state.st = s.st ∨ f.state.st = .done)) := by
  cases f with
  | goes t => exact .inr h
  | raised t => exact .inl h

/-- Two statements end so if the second does from wherever the first leaves the block in the run state it found. -/
theorem Flow.Ends.andThen {s : State} {f : Flow} {k : State → Flow} (h : f.Ends s)
    (hk : ∀ u, f = .goes u → (k u).Ends u) : (f.andThen k).Ends s := by
  cases f with
  | raised t => exact h
  | goes u =>
    rw [Flow.andThen_goes]
    have h2 := hk u rfl
    cases hf : k u with
    | raised t => rw [hf] at h2; exact h2
    | goes t =>
      rw [hf] at h2
      refine ⟨h2.1.trans h.1, h2.2.elim (fun h3 => ?_) .inr⟩
      rw [h3]; exact h.2

/-- G tokens end so. -/
theorem sendG_ends (t : GToken) (s : State) : (sendG t s).Ends s := by
  obtain ⟨f, hf, h⟩ | ⟨r, v, m, l, bs, x, h, -, hx, -⟩ := sendG_cases t s <;> rw [h]
  · exact ⟨rfl, hf⟩
  · exact ⟨rfl, hx.imp_right And.right⟩

/-- P tokens end so. -/
theorem sendP_ends (p : PToken) (s : State) : (sendP p s).Ends s := by
  cases p with
  | pair v c =>
    simp only [sendP]
    cases hg : isGlyph v
    · rw [cePair_not_glyph hg]; exact ⟨rfl, nofun⟩
    · rw [cePair_glyph hg]; exact ⟨rfl, .inl rfl⟩
  | meof => exact ⟨rfl, .inl rfl⟩
  | meos => exact ⟨rfl, .inr rfl⟩

/-- No G token touches the front end, the host's inputs, the configuration or the reference decoder. -/
theorem sendG_frame (t : GToken) (s : State) : s.SameFront (sendG t s).state := by
  obtain ⟨f, -, h⟩ | ⟨r, v, m, l, bs, x, h, -⟩ := sendG_cases t s <;> rw [h] <;>
    exact ⟨rfl, rfl, rfl, rfl, rfl, rfl, rfl, rfl, rfl, rfl, rfl, rfl⟩

/-- No P token touches those fields either, nor the run register. -/
theorem sendP_frame (p : PToken) (s : State) : s.SameFront (sendP p s).state ∧ (sendP p s).state.openRun = s.openRun := by
  cases p with
  | pair v c =>
    simp only [sendP]
    cases hg : isGlyph v
    · rw [cePair_not_glyph hg]; exact ⟨⟨rfl, rfl, rfl, rfl, rfl, rfl, rfl, rfl, rfl, rfl, rfl, rfl⟩, rfl⟩
    · rw [cePair_glyph hg]; exact ⟨⟨rfl, rfl, rfl, rfl, rfl, rfl, rfl, rfl, rfl, rfl, rfl, rfl⟩, rfl⟩
  | meof => exact ⟨⟨rfl, rfl, rfl, rfl, rfl, rfl, rfl, rfl, rfl, rfl, rfl, rfl⟩, rfl⟩
  | meos => exact ⟨⟨rfl, rfl, rfl, rfl, rfl, rfl, rfl, rfl, rfl, rfl, rfl, rfl⟩, rfl⟩

end Sys2Proof.Machine
end

