-- ==== Sys2Proof/Laws/FrontEnd.lean ====
section
/-! SUPPORT. The front end: what the packer scan and the tokens `S` and `FIN` can do. -/

namespace Sys2Proof.Machine

/-- What a scan over grid cells can change: the core's fields, and the scan counters within those cells. -/
structure State.ScanFrame (cells : List (Nat × Nat)) (s t : State) : Prop where
  cfg : t.cfg = s.cfg
  rst : t.rst = s.rst
  wp : t.wp = s.wp
  fb : t.fb = s.fb
  sIn : t.sIn = s.sIn
  gIn : t.gIn = s.gIn
  pIn : t.pIn = s.pIn
  dec : t.dec = s.dec
  epoch : t.epoch = s.epoch
  consumed : t.consumed = s.consumed
  pos : (t.sy, t.sx) = (s.sy, s.sx) ∨ (t.sy, t.sx) ∈ cells

/-- The glyph of a grid cell depends on the configuration, the frame buffer and the count of resets alone. -/
theorem State.glyphAt_congr {s t : State} (hc : t.cfg = s.cfg) (hf : t.fb = s.fb) (he : t.epoch = s.epoch) (y x : Nat) :
    t.glyphAt y x = s.glyphAt y x := by
  simp only [State.glyphAt, hc, State.readCell_congr hf he]

/-- The scan over grid cells keeps its frame. -/
theorem scanCells_frame : ∀ (cells : List (Nat × Nat)) (s : State), s.ScanFrame cells (scanCells cells s).state
  | [], s => ⟨rfl, rfl, rfl, rfl, rfl, rfl, rfl, rfl, rfl, rfl, .inl rfl⟩
  | (y, x) :: rest, s => by
    have hs := sendG_frame (.g (s.glyphAt y x)) (s.setScan y x)
    simp only [scanCells]
    cases hf : sendG (.g (s.glyphAt y x)) (s.setScan y x) with
    | raised u =>
      rw [hf] at hs
      exact ⟨hs.cfg, hs.rst, hs.wp, hs.fb, hs.sIn, hs.gIn, hs.pIn, hs.dec, hs.epoch, hs.consumed, .inr (by
        simp only [Flow.andThen_raised, Flow.state_raised] at *
        rw [hs.sy, hs.sx]; simp)⟩
    | goes u =>
      rw [hf] at hs
      have hr := scanCells_frame rest u
      simp only [Flow.andThen_goes, Flow.state_goes] at *
      refine ⟨hr.cfg.trans hs.cfg, hr.rst.trans hs.rst, hr.wp.trans hs.wp, hr.fb.trans hs.fb, hr.sIn.trans hs.sIn,
        hr.gIn.trans hs.gIn, hr.pIn.trans hs.pIn, hr.dec.trans hs.dec, hr.epoch.trans hs.epoch, hr.consumed.trans hs.consumed, .inr ?_⟩
      obtain h | h := hr.pos
      · rw [h, hs.sy, hs.sx]; simp
      · exact List.mem_cons_of_mem _ h

/-- `SCAN()` keeps the same frame. -/
theorem scan_frame (s : State) : s.ScanFrame (gridCells s.cfg) (scan s).state := by
  have h := scanCells_frame (gridCells s.cfg) s
  unfold scan
  cases hf : scanCells (gridCells s.cfg) s with
  | raised u => rw [hf] at h; exact h
  | goes u =>
    rw [hf] at h
    have hs := sendG_frame .eof u
    simp only [Flow.andThen_goes, Flow.state_goes] at *
    refine ⟨hs.cfg.trans h.cfg, hs.rst.trans h.rst, hs.wp.trans h.wp, hs.fb.trans h.fb, hs.sIn.trans h.sIn,
      hs.gIn.trans h.gIn, hs.pIn.trans h.pIn, hs.dec.trans h.dec, hs.epoch.trans h.epoch, hs.consumed.trans h.consumed, ?_⟩
    rw [hs.sy, hs.sx]
    exact h.pos

/-- The packer's loops end as the tokens they send do. -/
theorem scanCells_ends : ∀ (cells : List (Nat × Nat)) (s : State), (scanCells cells s).Ends s
  | [], s => ⟨rfl, .inl rfl⟩
  | (y, x) :: rest, s => by
    simp only [scanCells]
    exact (sendG_ends (.g (s.glyphAt y x)) (s.setScan y x)).andThen fun u _ => scanCells_ends rest u

/-- `SCAN()` ends so. -/
theorem scan_ends (s : State) : (scan s).Ends s := (scanCells_ends (gridCells s.cfg) s).andThen fun u _ => sendG_ends .eof u

/-- The positions the scan visits are those of the grid. -/
theorem mem_gridCells {cfg : Config} {y x : Nat} : (y, x) ∈ gridCells cfg ↔ y < cfg.gh ∧ x < cfg.gw := by
  simp [gridCells]

/-- A sample before the last of its frame. -/
theorem loadSample_within {d : Byte} {s : State} (h : s.wp ≠ s.cfg.npix - 1) :
    loadSample d s = .goes ((s.writeCell s.wp (thr s.cfg.thresh d)).setWp (s.wp + 1)) := by simp [loadSample, h]

/-- The last sample of a frame. -/
theorem loadSample_last {d : Byte} {s : State} (h : s.wp = s.cfg.npix - 1) :
    loadSample d s = scan ((s.writeCell s.wp (thr s.cfg.thresh d)).setWp 0) := by simp [loadSample, h]

/-- A sample ends as the scan it may start does. -/
theorem loadSample_ends (d : Byte) (s : State) : (loadSample d s).Ends s := by
  by_cases h : s.wp = s.cfg.npix - 1
  · rw [loadSample_last h]; exact scan_ends ((s.writeCell s.wp (thr s.cfg.thresh d)).setWp 0)
  · rw [loadSample_within h]; exact ⟨rfl, .inl rfl⟩

/-- `FIN` in mid-frame. -/
theorem endSamples_inside {s : State} (h : s.wp ≠ 0) : endSamples s = raise .proto s := by simp [endSamples, h]

/-- `FIN` between frames. -/
theorem endSamples_between {s : State} (h : s.wp = 0) : endSamples s = rleEos s := by simp [endSamples, h, sendG]

/-- `FIN` ends so. -/
theorem endSamples_ends (s : State) : (endSamples s).Ends s := by
  by_cases h : s.wp = 0
  · rw [endSamples_between h]; exact sendG_ends .eos s
  · rw [endSamples_inside h]; exact ⟨rfl, nofun⟩

/-- A next state of `S`: the token was not taken, or `wp` was a cell and the sample was loaded. -/
theorem execS_cases {d : Byte} {s t : State} (h : execS d s = .next t) :
    s.cfg.block = .pipe ∧ s.cfg.wf = true ∧
      ((s.ready = false ∧ t = s) ∨ (s.ready = true ∧ s.wp < s.cfg.npix ∧ t = (loadSample d s).state)) := by
  obtain ⟨hb, h⟩ := onPortS_cases h
  obtain ⟨hw, h | ⟨hr, h⟩⟩ := accept_cases h
  · exact ⟨hb, hw, .inl h⟩
  · split at h
    · rename_i hp
      simp only [finish, Host.Outcome.next.injEq] at h
      exact ⟨hb, hw, .inr ⟨hr, hp, h.symm⟩⟩
    · cases h

/-- A next state of `FIN`: the token was not taken, or its rule ran. -/
theorem execFin_cases {s t : State} (h : execFin s = .next t) :
    s.cfg.block = .pipe ∧ s.cfg.wf = true ∧
      ((s.ready = false ∧ t = s) ∨ (s.ready = true ∧ t = (endSamples s).state)) := by
  obtain ⟨hb, h⟩ := onPortS_cases h
  obtain ⟨hw, h | ⟨hr, h⟩⟩ := accept_cases h
  · exact ⟨hb, hw, .inl h⟩
  · simp only [finish, Host.Outcome.next.injEq] at h
    exact ⟨hb, hw, .inr ⟨hr, h.symm⟩⟩

end Sys2Proof.Machine
end

