-- ==== Sys2Proof/Laws/Step.lean ====
section
/-! SUPPORT. What one step can do. -/

namespace Sys2Proof.Machine

/-- A configuration that rule R9 refuses has no step. -/
theorem step_bad_configuration {s : State} (hw : s.cfg.wf = false) : step s = .refused .badConfiguration := by
  simp [step, hw]

/-- A step that answers a next state is one of a configuration of the hardware. -/
theorem step_wf {s t : State} (h : step s = .next t) : s.cfg.wf = true := by
  cases hw : s.cfg.wf
  · rw [step_bad_configuration hw] at h; cases h
  · rfl

/-- The reset edge. -/
theorem step_reset {s : State} (hw : s.cfg.wf = true) (h : s.rst = true) : step s = .next s.applyReset := by
  simp [step, hw, h]

/-- A step with a word to take runs its instruction. -/
theorem step_fetch {s t : State} {w : PortWord} {i : Instr} (hw : s.cfg.wf = true) (h : s.rst = false)
    (hf : fetch s = some (w, t)) (hd : decode s.cfg.cntW w = .ok i) : step s = exec i t := by simp [step, hw, h, hf, hd]

/-- A step with no word to take. -/
theorem step_idle {s : State} (hw : s.cfg.wf = true) (h : s.rst = false) (hf : fetch s = none) :
    step s = .next (idleStep s) := by simp [step, hw, h, hf]

/-- The reference decoder has no byte to read. -/
theorem fetchByte_eq_none {s : State} :
    fetchByte s = none ↔ (s.dec.verdict = .running → ∀ b bs, s.dec.input ≠ some (b :: bs)) := by
  unfold fetchByte
  split
  · rename_i b bs h1 h2; simp [h1, h2]
  · rename_i h; simpa using fun h1 b bs h2 => h b bs h1 h2

/-- A step in `RUN` of a busy compact encoder, with no byte for the reference decoder, is a micro-step. -/
theorem step_busy {s : State} (hw : s.cfg.wf = true) (hr : s.rst = false) (hs : s.st = .run) (hb : s.ceIdle = false)
    (hf : fetchByte s = none) : step s = .next (microStep s) := by
  rw [step_idle hw hr (by simp [fetch, fetchBlock, State.ready, hb, hf])]
  simp [idleStep, hs, hb]

/-- Every word a step can take, with the state it leaves behind. -/
theorem fetch_cases {s t : State} {w : PortWord} (h : fetch s = some (w, t)) :
    (s.ready = true ∧ ∃ x xs, s.pIn = x :: xs ∧ w = .pt x ∧ t = { s with pIn := xs }) ∨
    (s.ready = true ∧ s.pIn = [] ∧ s.cfg.block = .core ∧
      ∃ x xs, s.gIn = x :: xs ∧ w = .gt x ∧
        t = { s with gIn := xs, consumed := s.consumed ++ [decodeGT x] }) ∨
    (s.ready = true ∧ s.pIn = [] ∧ s.cfg.block = .pipe ∧
      ∃ x xs, s.sIn = x :: xs ∧ w = .st x ∧
        t = { s with sIn := xs, consumed := s.consumed ++ [decodeST x] }) ∨
    (fetchBlock s = none ∧ s.dec.verdict = .running ∧
      ∃ b bs, s.dec.input = some (b :: bs) ∧ w = .cb b ∧ t = { s with dec := { s.dec with input := some bs } }) := by
  unfold fetch at h
  cases hb : fetchBlock s with
  | none =>
    simp only [hb, fetchByte] at h
    split at h
    · rename_i b bs h1 h2
      simp only [Option.some.injEq, Prod.mk.injEq] at h
      exact .inr (.inr (.inr ⟨rfl, h1, b, bs, h2, h.1.symm, h.2.symm⟩))
    · cases h
  | some x =>
    simp only [hb, Option.some.injEq] at h
    subst h
    unfold fetchBlock at hb
    split at hb
    · rename_i hr
      cases hp : s.pIn with
      | cons y ys =>
        simp only [hp, Option.some.injEq, Prod.mk.injEq] at hb
        exact .inl ⟨hr, y, ys, rfl, hb.1.symm, hb.2.symm⟩
      | nil =>
        simp only [hp, fetchPort] at hb
        cases hk : s.cfg.block <;> simp only [hk] at hb
        · split at hb
          · rename_i y ys hg
            simp only [Option.some.injEq, Prod.mk.injEq] at hb
            exact .inr (.inl ⟨hr, rfl, rfl, y, ys, hg, hb.1.symm, hb.2.symm⟩)
          · cases hb
        · split at hb
          · rename_i y ys hg
            simp only [Option.some.injEq, Prod.mk.injEq] at hb
            exact .inr (.inr (.inl ⟨hr, rfl, rfl, y, ys, hg, hb.1.symm, hb.2.symm⟩))
          · cases hb
    · cases hb

/-- A step that answers a next state was a reset edge, an instruction run, or an idle step. -/
theorem step_cases {s t : State} (h : step s = .next t) :
    (s.rst = true ∧ t = s.applyReset) ∨
    (s.rst = false ∧ ∃ w u i, fetch s = some (w, u) ∧ decode s.cfg.cntW w = .ok i ∧ exec i u = .next t) ∨
    (s.rst = false ∧ fetch s = none ∧ t = idleStep s) := by
  have hw := step_wf h
  unfold step at h
  rw [if_pos hw] at h
  cases hr : s.rst
  · simp only [hr, Bool.false_eq_true, if_false] at h
    cases hf : fetch s with
    | none =>
      simp only [hf, Host.Outcome.next.injEq] at h
      exact .inr (.inr ⟨rfl, rfl, h.symm⟩)
    | some p =>
      obtain ⟨w, u⟩ := p
      simp only [hf] at h
      cases hd : decode s.cfg.cntW w with
      | error e => simp [hd] at h
      | ok i => simp only [hd] at h; exact .inr (.inl ⟨rfl, w, u, i, rfl, hd, h⟩)
  · simp only [hr, if_true, Host.Outcome.next.injEq] at h
    exact .inl ⟨rfl, h.symm⟩

/-- An idle step of an idle compact encoder changes the reference decoder at most. -/
theorem idleStep_cases (s : State) :
    (s.st = .run ∧ s.ceIdle = false ∧ idleStep s = microStep s) ∨
    (s.dec.verdict = .running ∧ s.dec.input = some [] ∧ idleStep s = s.setDec (s.dec.stop .truncated)) ∨
    idleStep s = s := by
  unfold idleStep
  split
  · rename_i h; exact .inl ⟨h.1, h.2, rfl⟩
  · split
    · rename_i h; exact .inr (.inl ⟨h.1, h.2, rfl⟩)
    · exact .inr (.inr rfl)

/-- One step and then `k` more, for any machine of the host's interface. -/
theorem run_next {M : Host.Core} {s t : M.State} (k : Nat) (h : M.step s = .next t) : M.run (k + 1) s = M.run k t := by
  simp [Host.Core.run, h]

/-- One step of this machine and then `k` more. -/
theorem run_step {s t : State} (k : Nat) (h : step s = .next t) : Host.Core.run core (k + 1) s = Host.Core.run core k t :=
  run_next (M := core) k h

end Sys2Proof.Machine
end

