-- ==== Sys2Proof/Laws/Exec.lean ====
section
/-! SUPPORT. What one instruction can do, and what one step can do. -/

namespace Sys2Proof.Machine

/-- A token of port `S` or `G` or of the hand-over that answers a next state: it was not taken, or its rule ran. -/
theorem exec_block_cases {i : Instr} {s t : State} (hi : blockToken i = true) (h : exec i s = .next t) :
    s.cfg.wf = true ∧ ((s.ready = false ∧ t = s) ∨ (s.ready = true ∧
      ((∃ d, i = .s d ∧ s.cfg.block = .pipe ∧ s.wp < s.cfg.npix ∧ t = (loadSample d s).state) ∨
       (i = .fin ∧ s.cfg.block = .pipe ∧ t = (endSamples s).state) ∨
       (∃ g, t = (sendG g s).state ∧ ((∃ v, i = .g v ∧ g = .g v) ∨ (i = .eof ∧ g = .eof) ∨ (i = .eos ∧ g = .eos) ∨
         (i = .grsv ∧ g = .reserved))) ∨
       (∃ p, t = (sendP p s).state ∧
         ((∃ v c, i = .pair v c ∧ p = .pair v c) ∨ (i = .meof ∧ p = .meof) ∨ (i = .meos ∧ p = .meos)))))) := by
  have key : ∀ {f : Flow}, accept s (finish f) = .next t →
      s.cfg.wf = true ∧ ((s.ready = false ∧ t = s) ∨ (s.ready = true ∧ t = f.state)) := by
    intro f h
    obtain ⟨hw, h | ⟨hr, h⟩⟩ := accept_cases h
    · exact ⟨hw, .inl h⟩
    · simp only [finish, Host.Outcome.next.injEq] at h; exact ⟨hw, .inr ⟨hr, h.symm⟩⟩
  cases i <;> simp [blockToken] at hi <;> simp only [exec] at h
  case s d =>
    obtain ⟨hb, hw, h | ⟨hr, hp, ht⟩⟩ := execS_cases h
    · exact ⟨hw, .inl h⟩
    · exact ⟨hw, .inr ⟨hr, .inl ⟨d, rfl, hb, hp, ht⟩⟩⟩
  case fin =>
    obtain ⟨hb, hw, h | ⟨hr, ht⟩⟩ := execFin_cases h
    · exact ⟨hw, .inl h⟩
    · exact ⟨hw, .inr ⟨hr, .inr (.inl ⟨rfl, hb, ht⟩)⟩⟩
  all_goals
    obtain ⟨hw, h | ⟨hr, ht⟩⟩ := key h
    · exact ⟨hw, .inl h⟩
    · first
      | exact ⟨hw, .inr ⟨hr, .inr (.inr (.inl ⟨_, ht, by simp⟩))⟩⟩
      | exact ⟨hw, .inr ⟨hr, .inr (.inr (.inr ⟨_, ht, by simp⟩))⟩⟩

/-- A sample the block takes, for `wp` a cell. -/
theorem exec_s_ready {d : Byte} {s : State} (hw : s.cfg.wf = true) (hb : s.cfg.block = .pipe) (hr : s.ready = true)
    (hwp : s.wp < s.cfg.npix) : exec (.s d) s = .next (loadSample d s).state := by
  simp only [exec, execS]; rw [onPortS_pipe hb, accept_ready hw hr, if_pos hwp]; rfl

/-- `FIN` where the block takes it. -/
theorem exec_fin_ready {s : State} (hw : s.cfg.wf = true) (hb : s.cfg.block = .pipe) (hr : s.ready = true) :
    exec .fin s = .next (endSamples s).state := by
  simp only [exec, execFin]; rw [onPortS_pipe hb, accept_ready hw hr]; rfl

/-- A token of port `G` the block takes. -/
theorem exec_g_ready {i : Instr} {g : GToken} {s : State} (hw : s.cfg.wf = true) (hr : s.ready = true)
    (h : (∃ v, i = .g v ∧ g = .g v) ∨ (i = .eof ∧ g = .eof) ∨ (i = .eos ∧ g = .eos) ∨ (i = .grsv ∧ g = .reserved)) :
    exec i s = .next (sendG g s).state := by
  obtain ⟨v, rfl, rfl⟩ | ⟨rfl, rfl⟩ | ⟨rfl, rfl⟩ | ⟨rfl, rfl⟩ := h <;> exact accept_ready hw hr

/-- What no token of the block touches. -/
theorem exec_block_frame {i : Instr} {s t : State} (hi : blockToken i = true) (h : exec i s = .next t) :
    t.cfg = s.cfg ∧ t.rst = s.rst ∧ t.sIn = s.sIn ∧ t.gIn = s.gIn ∧ t.pIn = s.pIn ∧ t.dec = s.dec ∧ t.epoch = s.epoch ∧
      t.consumed = s.consumed := by
  obtain ⟨hw, ⟨hr, rfl⟩ | ⟨hr, ⟨b, rfl, hb, hwp, rfl⟩ | ⟨rfl, hb, rfl⟩ | ⟨g, rfl, hg⟩ | ⟨p, rfl, hp⟩⟩⟩ :=
    exec_block_cases hi h
  · exact ⟨rfl, rfl, rfl, rfl, rfl, rfl, rfl, rfl⟩
  · by_cases h : s.wp = s.cfg.npix - 1
    · rw [loadSample_last h]
      have fr := scan_frame ((s.writeCell s.wp (thr s.cfg.thresh b)).setWp 0)
      exact ⟨fr.cfg, fr.rst, fr.sIn, fr.gIn, fr.pIn, fr.dec, fr.epoch, fr.consumed⟩
    · rw [loadSample_within h]; exact ⟨rfl, rfl, rfl, rfl, rfl, rfl, rfl, rfl⟩
  · unfold endSamples
    split
    · exact ⟨rfl, rfl, rfl, rfl, rfl, rfl, rfl, rfl⟩
    · have fr := sendG_frame .eos s; exact ⟨fr.cfg, fr.rst, fr.sIn, fr.gIn, fr.pIn, fr.dec, fr.epoch, fr.consumed⟩
  · have fr := sendG_frame g s; exact ⟨fr.cfg, fr.rst, fr.sIn, fr.gIn, fr.pIn, fr.dec, fr.epoch, fr.consumed⟩
  · have fr := (sendP_frame p s).1; exact ⟨fr.cfg, fr.rst, fr.sIn, fr.gIn, fr.pIn, fr.dec, fr.epoch, fr.consumed⟩

/-- How a token of the block ends: a fault is recorded in `st` and `fc`; or `fc` is as it was, and so is `st` but for the
end of the stream. -/
theorem exec_block_ends {i : Instr} {s t : State} (hi : blockToken i = true) (h : exec i s = .next t) :
    (t.st = .fault ∧ t.fc ≠ .none) ∨ (t.fc = s.fc ∧ (t.st = s.st ∨ t.st = .done)) := by
  obtain ⟨-, ⟨-, rfl⟩ | ⟨-, ⟨b, -, -, -, rfl⟩ | ⟨-, -, rfl⟩ | ⟨g, rfl, -⟩ | ⟨p, rfl, -⟩⟩⟩ := exec_block_cases hi h
  · exact .inr ⟨rfl, .inl rfl⟩
  · exact (loadSample_ends b s).state
  · exact (endSamples_ends s).state
  · exact (sendG_ends g s).state
  · exact (sendP_ends p s).state

/-- A compact byte acts on a running reference decoder by a function that keeps the bytes still to be read. -/
theorem exec_byte {i : Instr} (hi : blockToken i = false) : ∃ f : RefDecoder → RefDecoder, (∀ d, (f d).input = d.input) ∧
    ∀ s, exec i s = if s.dec.verdict = .running then .next (s.setDec (f s.dec)) else .next s := by
  cases i <;> simp [blockToken] at hi
  case endByte => exact ⟨RefDecoder.endFrame, fun d => by unfold RefDecoder.endFrame; split <;> rfl, fun s => rfl⟩
  case blk n => exact ⟨fun d => d.append (List.replicate n.toNat glyphBlank), fun d => rfl, fun s => rfl⟩
  case rsv1 => exact ⟨fun d => d.stop .invalid, fun d => rfl, fun s => rfl⟩
  case lit v => exact ⟨fun d => d.append [v], fun d => rfl, fun s => rfl⟩
  case rsvf0 => exact ⟨fun d => d.stop .invalid, fun d => rfl, fun s => rfl⟩
  case ful n => exact ⟨fun d => d.append (List.replicate n.toNat glyphFull), fun d => rfl, fun s => rfl⟩

/-- A word of port `S` is a token of the block. -/
theorem blockToken_decodeST (w : BitVec 9) : blockToken (decodeST w) = true := by unfold decodeST; split_ifs <;> rfl

/-- A word of port `G` is a token of the block. -/
theorem blockToken_decodeGT (w : BitVec 10) : blockToken (decodeGT w) = true := by unfold decodeGT; split_ifs <;> rfl

/-- A word of the hand-over is a token of the block. -/
theorem blockToken_decodePT {cntW w : Nat} {i : Instr} (h : decodePT cntW w = .ok i) : blockToken i = true := by
  unfold decodePT at h; split_ifs at h <;> injection h with h <;> rw [← h] <;> rfl

/-- A compact byte is no token of the block. -/
theorem blockToken_decodeCB : ∀ b : Byte, blockToken (decodeCB b) = false := by decide

/-- Everything a step can do: the reset edge; a word of the hand-over; a word of port `G`; a word of port `S`; nothing but
for the reference decoder; a micro-step. -/
theorem step_outcomes {s t : State} (h : step s = .next t) :
    (s.rst = true ∧ t = s.applyReset) ∨
    (s.rst = false ∧ s.ready = true ∧ ∃ x xs i, s.pIn = x :: xs ∧ decodePT s.cfg.cntW x = .ok i ∧
      exec i { s with pIn := xs } = .next t) ∨
    (s.rst = false ∧ s.ready = true ∧ s.pIn = [] ∧ s.cfg.block = .core ∧ ∃ x xs, s.gIn = x :: xs ∧
      exec (decodeGT x) { s with gIn := xs, consumed := s.consumed ++ [decodeGT x] } = .next t) ∨
    (s.rst = false ∧ s.ready = true ∧ s.pIn = [] ∧ s.cfg.block = .pipe ∧ ∃ x xs, s.sIn = x :: xs ∧
      exec (decodeST x) { s with sIn := xs, consumed := s.consumed ++ [decodeST x] } = .next t) ∨
    (s.rst = false ∧ fetchBlock s = none ∧ ∃ d, t = { s with dec := d }) ∨
    (s.rst = false ∧ s.st = .run ∧ s.ceIdle = false ∧ t = microStep s) := by
  obtain ⟨h1, h2⟩ | ⟨hr, w, u, i, hf, hd, he⟩ | ⟨hr, hf, he⟩ := step_cases h
  · exact .inl ⟨h1, h2⟩
  · obtain ⟨h1, x, xs, h2, rfl, rfl⟩ | ⟨h1, h2, h3, x, xs, h4, rfl, rfl⟩ | ⟨h1, h2, h3, x, xs, h4, rfl, rfl⟩ |
      ⟨h0, h1, b, bs, h2, rfl, rfl⟩ := fetch_cases hf
    · exact .inr (.inl ⟨hr, h1, x, xs, i, h2, hd, he⟩)
    · injection hd with hd; subst hd; exact .inr (.inr (.inl ⟨hr, h1, h2, h3, x, xs, h4, he⟩))
    · injection hd with hd; subst hd; exact .inr (.inr (.inr (.inl ⟨hr, h1, h2, h3, x, xs, h4, he⟩)))
    · injection hd with hd; subst hd
      obtain ⟨f, -, hf⟩ := exec_byte (blockToken_decodeCB b)
      rw [hf] at he
      refine .inr (.inr (.inr (.inr (.inl ⟨hr, h0, ?_⟩))))
      split at he <;> injection he with he <;> exact ⟨_, he.symm⟩
  · have h0 : fetchBlock s = none := by
      unfold fetch at hf; split at hf
      · cases hf
      · assumption
    obtain ⟨h1, h2, h3⟩ | ⟨h1, h2, h3⟩ | h3 := idleStep_cases s
    · exact .inr (.inr (.inr (.inr (.inr ⟨hr, h1, h2, he.trans h3⟩))))
    · exact .inr (.inr (.inr (.inr (.inl ⟨hr, h0, _, he.trans h3⟩))))
    · exact .inr (.inr (.inr (.inr (.inl ⟨hr, h0, s.dec, he.trans h3⟩))))

/-- Feeding two sequences one after the other. -/
theorem feed_append : ∀ (is js : List Instr) (s : State), feed (is ++ js) s =
    match feed is s with
    | .next t => feed js t
    | .fault r => .fault r
    | .refused r => .refused r
  | [], js, s => rfl
  | i :: is, js, s => by
    simp only [List.cons_append, feed]
    cases exec i s with
    | next t => exact feed_append is js t
    | fault r => rfl
    | refused r => rfl

end Sys2Proof.Machine
end

