-- ==== Sys2Proof/Laws/Golden.lean ====
section
/-! SUPPORT. The golden functions: how `rle` treats a run, and their values on concatenations. -/

namespace Sys2Proof.Machine

@[simp] theorem rle_nil : rle [] = [] := rfl

/-- The first pair of a non-empty sequence has its first value. -/
theorem rle_cons_eq (g : Byte) (rest : List Byte) : ∃ k ps, rle (g :: rest) = (g, k + 1) :: ps := by
  simp only [rle]
  split
  · split
    · exact ⟨_, _, rfl⟩
    · exact ⟨0, _, rfl⟩
  · exact ⟨0, [], rfl⟩

/-- A value before a sequence that does not start with it is a run of one. -/
theorem rle_cons_of_head_ne {g : Byte} {rest : List Byte} (h : rest.head? ≠ some g) : rle (g :: rest) = (g, 1) :: rle rest := by
  cases rest with
  | nil => rfl
  | cons v vs =>
    obtain ⟨k, ps, hk⟩ := rle_cons_eq v vs
    have hv : v ≠ g := by simpa using h
    rw [rle, hk]
    simp [hv]

/-- One more of the first value lengthens the first pair. -/
theorem rle_cons_of_head_eq {g : Byte} {k : Nat} {rest : List Byte} {ps : List (Byte × Nat)} (h : rle rest = (g, k) :: ps) :
    rle (g :: rest) = (g, k + 1) :: ps := by
  rw [rle, h]; simp

/-- A run before a sequence that does not start with its value is one pair. -/
theorem rle_replicate_append {g : Byte} {rest : List Byte} (h : rest.head? ≠ some g) :
    ∀ n : Nat, rle (List.replicate (n + 1) g ++ rest) = (g, n + 1) :: rle rest
  | 0 => rle_cons_of_head_ne h
  | n + 1 => by
    rw [List.replicate_succ, List.cons_append]
    exact rle_cons_of_head_eq (rle_replicate_append h n)

@[simp] theorem compact_nil : compact [] = [] := rfl

@[simp] theorem compact_cons (v : Byte) (c : Nat) (ps : List (Byte × Nat)) :
    compact ((v, c) :: ps) = chunk v c ++ compact ps := rfl

@[simp] theorem compact_append (ps qs : List (Byte × Nat)) : compact (ps ++ qs) = compact ps ++ compact qs := by
  simp [compact]

@[simp] theorem encodeFrame_nil : encodeFrame [] = [0x00] := rfl

end Sys2Proof.Machine
end

