-- ==== Sys2Proof/Laws/HostPart.lean ====
section
/-! SUPPORT. The rules of the core read neither the host's part of the state nor, but for the packer, the frame buffer:
replacing those before a rule is replacing them after it. -/

namespace Sys2Proof.Machine

/-- An update of the state in which a rule ended. -/
def Flow.map (u : State → State) : Flow → Flow
  | .goes s => .goes (u s)
  | .raised s => .raised (u s)

@[simp] theorem Flow.state_map (u : State → State) (f : Flow) : (f.map u).state = u f.state := by cases f <;> rfl

/-- An update that commutes with the second of two statements commutes with both. -/
theorem Flow.map_andThen (u : State → State) (f : Flow) (k : State → Flow) (hk : ∀ s, k (u s) = (k s).map u) :
    (f.map u).andThen k = (f.andThen k).map u := by
  cases f with
  | goes s => exact hk s
  | raised s => rfl

/-- `s` with other words offered by the host, another reference decoder, another history of tokens, another frame buffer and another count of
resets. -/
def State.withHost (s : State) (si : List (BitVec 9)) (gi : List (BitVec 10)) (d : RefDecoder) (co : List Instr)
    (fb : List Host.Cell) (ep : Nat) : State :=
  { s with sIn := si, gIn := gi, dec := d, consumed := co, fb := fb, epoch := ep }

variable (si : List (BitVec 9)) (gi : List (BitVec 10)) (d : RefDecoder) (co : List Instr) (fb : List Host.Cell)
  (ep : Nat)

/-- P tokens read none of it. -/
theorem sendP_withHost (p : PToken) (s : State) :
    sendP p (s.withHost si gi d co fb ep) = (sendP p s).map (·.withHost si gi d co fb ep) := by
  cases p with
  | pair v c =>
    simp only [sendP]
    cases hg : isGlyph v
    · rw [cePair_not_glyph hg, cePair_not_glyph hg]; rfl
    · rw [cePair_glyph hg, cePair_glyph hg]; rfl
  | meof => rfl
  | meos => rfl

/-- G tokens read none of it. -/
theorem sendG_withHost (g : GToken) (s : State) :
    sendG g (s.withHost si gi d co fb ep) = (sendG g s).map (·.withHost si gi d co fb ep) := by
  cases ho : s.openRun with
  | none =>
    have ho' : (s.withHost si gi d co fb ep).openRun = none := ho
    cases g with
    | g v => simp only [sendG]; rw [rleG_opens ho, rleG_opens ho']; rfl
    | eof => simp only [sendG]; rw [rleEof_empty ho, rleEof_empty ho']; rfl
    | eos => simp only [sendG]; rw [rleEos_ends ho, rleEos_ends ho']; rfl
    | reserved => rfl
  | some r =>
    have ho' : (s.withHost si gi d co fb ep).openRun = some r := ho
    cases g with
    | g v =>
      simp only [sendG]
      by_cases hv : v = r.rv
      · subst hv
        by_cases hc : r.rc = s.cfg.cntMax
        · rw [rleG_overflows ho hc, rleG_overflows ho' hc]; rfl
        · rw [rleG_extends ho hc, rleG_extends ho' hc]; rfl
      · cases hg : isGlyph r.rv
        · rw [rleG_invalid ho hv hg, rleG_invalid ho' hv hg]; rfl
        · rw [rleG_closes ho hv hg, rleG_closes ho' hv hg]; rfl
    | eof =>
      simp only [sendG]
      cases hg : isGlyph r.rv
      · rw [rleEof_invalid ho hg, rleEof_invalid ho' hg]; rfl
      · rw [rleEof_closes ho hg, rleEof_closes ho' hg]; rfl
    | eos => simp only [sendG]; rw [rleEos_open ho, rleEos_open ho']; rfl
    | reserved => rfl

/-- The packer's loops read the frame buffer, and none of the rest. -/
theorem scanCells_withHost : ∀ (cells : List (Nat × Nat)) (s : State),
    (∀ p ∈ cells, (s.withHost si gi d co fb ep).glyphAt p.1 p.2 = s.glyphAt p.1 p.2) →
    scanCells cells (s.withHost si gi d co fb ep) = (scanCells cells s).map (·.withHost si gi d co fb ep)
  | [], s, _ => rfl
  | (y, x) :: rest, s, h => by
    have hsend := sendG_withHost si gi d co fb ep (.g (s.glyphAt y x)) (s.setScan y x)
    have fr := sendG_frame (.g (s.glyphAt y x)) (s.setScan y x)
    simp only [scanCells]
    rw [h (y, x) (by simp), show (s.withHost si gi d co fb ep).setScan y x = (s.setScan y x).withHost si gi d co fb ep from rfl, hsend]
    cases hf : sendG (.g (s.glyphAt y x)) (s.setScan y x) with
    | raised u => rfl
    | goes u =>
      rw [hf] at fr
      refine scanCells_withHost rest u fun p hp => ?_
      have hc : u.cfg = s.cfg := fr.cfg
      have hb : u.fb = s.fb := fr.fb
      have he : u.epoch = s.epoch := fr.epoch
      have hc' : (u.withHost si gi d co fb ep).cfg = (s.withHost si gi d co fb ep).cfg := hc
      have e1 : u.glyphAt p.1 p.2 = s.glyphAt p.1 p.2 := State.glyphAt_congr hc hb he p.1 p.2
      have e2 : (u.withHost si gi d co fb ep).glyphAt p.1 p.2 = (s.withHost si gi d co fb ep).glyphAt p.1 p.2 :=
        State.glyphAt_congr hc' rfl rfl p.1 p.2
      rw [e1, e2]
      exact h p (by simp [hp])

/-- `SCAN()` reads the frame buffer, and none of the rest. -/
theorem scan_withHost (s : State)
    (h : ∀ y x, y < s.cfg.gh → x < s.cfg.gw → (s.withHost si gi d co fb ep).glyphAt y x = s.glyphAt y x) :
    scan (s.withHost si gi d co fb ep) = (scan s).map (·.withHost si gi d co fb ep) := by
  unfold scan
  rw [show (s.withHost si gi d co fb ep).cfg = s.cfg from rfl, scanCells_withHost]
  · exact Flow.map_andThen _ _ _ fun s => sendG_withHost _ _ _ _ _ _ _ s
  · rintro ⟨y, x⟩ hp
    rw [mem_gridCells] at hp
    exact h y x hp.1 hp.2

end Sys2Proof.Machine
end

