-- ==== Sys2Proof/Laws/PerInstr.lean ====
section
/-! SUPPORT. The per-instruction family `RoundTrip`: decoding the encoding of a well-formed instruction gives it back, one
lemma per constructor. -/

namespace Sys2Proof.Laws.RoundTrip

/-- What the family says of one instruction. -/
def Statement (i : Instr) : Prop := ∀ cntW : Nat, i.wf cntW = true → decode cntW (encode cntW i) = .ok i

theorem s (d : Byte) : Statement (.s d) := fun _ _ => congrArg Except.ok (decodeST_sample d)

theorem fin : Statement .fin := fun _ _ => rfl

theorem g (v : Byte) : Statement (.g v) := fun _ _ => congrArg Except.ok (decodeGT_glyph v)

theorem eof : Statement .eof := fun _ _ => rfl

theorem eos : Statement .eos := fun _ _ => rfl

theorem grsv : Statement .grsv := fun _ _ => rfl

theorem pair (v : Byte) (c : Nat) : Statement (.pair v c) := fun _ h => decodePT_pair v (by simpa [Instr.wf] using h)

theorem meof : Statement .meof := fun cntW _ => by
  simpa [decode, encode] using decodePT_kind (cntW := cntW) 1 (Nat.two_pow_pos _) (by decide)

theorem meos : Statement .meos := fun cntW _ => by
  simpa [decode, encode] using decodePT_kind (cntW := cntW) 2 (Nat.two_pow_pos _) (by decide)

theorem endByte : Statement .endByte := fun _ _ => rfl

theorem blk (n : BitVec 6) : Statement (.blk n) := fun _ h =>
  congrArg Except.ok (decodeCB_blk n (by simpa [Instr.wf] using h))

theorem rsv1 : Statement .rsv1 := fun _ _ => rfl

theorem lit (v : Byte) : Statement (.lit v) := fun _ h =>
  congrArg Except.ok (decodeCB_lit v (by simpa [Instr.wf] using h))

theorem rsvf0 : Statement .rsvf0 := fun _ _ => rfl

theorem ful (n : BitVec 6) : Statement (.ful n) := fun _ h =>
  congrArg Except.ok (decodeCB_ful n (by simpa [Instr.wf] using h))

end Sys2Proof.Laws.RoundTrip
end

