-- ==== Sys2Proof/Tests/Slice0.lean ====
section
/-! SUPPORT. The model's own tests: ill-formed terms, words written out from the encoding tables, vectors of
95_test_vectors.md, and a witness for the hypotheses of each statement. Expected values come from spec/. -/

open Sys2Proof Sys2Proof.Machine

namespace Sys2Proof.Tests

/-! ## Helpers -/

/-- The state of a `next`. -/
def after : Host.Outcome State Fault Refusal → Option State
  | .next s => some s
  | .fault _ | .refused _ => none

/-- The columns of the table of `CORE` vectors. -/
structure View where
  /-- The bytes emitted. -/
  out : List Byte
  /-- The run register. -/
  run : Option OpenRun
  /-- `st`. -/
  st : RunState
  /-- `fc`. -/
  fc : FaultCode
deriving DecidableEq, Repr

/-- The columns of a `next` state. -/
def view (o : Host.Outcome State Fault Refusal) : Option View := (after o).map fun s => ⟨s.out, s.openRun, s.st, s.fc⟩

/-- `CORE` at the reference parameters, with a run register. -/
def coreWith (r : Option OpenRun) : State := (State.resetWith { Config.reference with block := .core }).setRun r

/-- `PIPE` at the reference parameters, its write pointer at `wp`. -/
def pipeAt (wp : Nat) : State := State.reset.setWp wp

/-- The small geometry of V2.20 and P4: `W` = 4, `H` = 6. -/
def smallCfg : Config := { Config.reference with w := 4, h := 6 }

/-- The thresholded frame of V2.20, row by row. -/
def v220 : List Byte :=
  [1, 0, 0, 0] ++ [0, 1, 0, 0] ++ [0, 1, 0, 0] ++ [1, 1, 1, 1] ++ [1, 1, 1, 1] ++ [1, 1, 1, 1]

/-- `PIPE` on the small geometry after `n` samples of P4; nothing else of its frame buffer is known. -/
def smallAt (n : Nat) : State :=
  { State.resetWith smallCfg with wp := n, fb := (List.range n).map fun a => (a, v220.getD a 0) }

/-- `PIPE` in the second frame of P5: every cell still holds a pixel of the first. -/
def smallStale (n : Nat) : State :=
  { State.resetWith smallCfg with wp := n, fb := (List.range 24).map fun a => (a, v220.getD a 0) }

/-- A reference decoder that has read some cells of a frame. -/
def decoding (cells input : List Byte) : State :=
  State.reset.setDec { input := some input, cells := cells, frames := [], verdict := .running }

/-- The bytes, cells, frames and verdict of the reference decoder. -/
def decView (o : Host.Outcome State Fault Refusal) : Option RefDecoder := (after o).map (·.dec)

/-! ## Well-formedness: one ill-formed term for each check -/

theorem test_wf_refuses_wide_count : (Instr.pair 128 2048).wf 11 = false := by decide
theorem test_wf_refuses_empty_blank_run : (Instr.blk 0).wf 11 = false := by decide
theorem test_wf_refuses_empty_full_run : (Instr.ful 0).wf 11 = false := by decide
theorem test_wf_refuses_literal_of_other_tag : (Instr.lit 0x40).wf 11 = false ∧ (Instr.lit 0xC0).wf 11 = false := by decide
theorem test_config_refuses_odd_width : ({ Config.reference with w := 127 } : Config).wf = false := by decide
theorem test_config_refuses_height : ({ Config.reference with h := 47 } : Config).wf = false := by decide
theorem test_config_refuses_zero_geometry :
    ({ Config.reference with w := 0 } : Config).wf = false ∧ ({ Config.reference with h := 0 } : Config).wf = false := by decide
theorem test_config_refuses_cells_past_counter :
    ({ Config.reference with cntW := 10 } : Config).wf = false ∧
    ({ Config.reference with cntW := 10, block := .core } : Config).wf = true := by decide

/-! ## Decoding: words bit by bit from rules R72, R80, R82, R84 and R90 -/

theorem test_decode_s : decode 11 (.st 0b0_11001000) = .ok (.s 200) := by rfl
theorem test_decode_fin : decode 11 (.st 0b1_00000000) = .ok .fin := by rfl
theorem test_decode_g : decode 11 (.gt 0b00_10010110) = .ok (.g 150) := by rfl
theorem test_decode_eof : decode 11 (.gt 0b01_00000000) = .ok .eof := by rfl
theorem test_decode_eos : decode 11 (.gt 0b10_00000000) = .ok .eos := by rfl
theorem test_decode_grsv : decode 11 (.gt 0b11_11111111) = .ok .grsv := by rfl
theorem test_decode_pair : decode 11 (.pt 0b00_10010110_00000000011) = .ok (.pair 150 3) := by rfl
theorem test_decode_meof : decode 11 (.pt 0b01_11111111_11111111111) = .ok .meof := by rfl
theorem test_decode_meos : decode 11 (.pt 0b10_00000000_00000000001) = .ok .meos := by rfl
theorem test_decode_p_kind3 : decode 11 (.pt 0b11_00000000_00000000000) = .error .pKind3 := by rfl
theorem test_decode_p_too_wide : decode 11 (.pt (2 ^ 21)) = .error .wordTooWide := by rfl
theorem test_decode_end : decode 11 (.cb 0b00_000000) = .ok .endByte := by rfl
theorem test_decode_blk : decode 11 (.cb 0b00_000001) = .ok (.blk 1) ∧ decode 11 (.cb 0b00_111111) = .ok (.blk 63) := ⟨rfl, rfl⟩
theorem test_decode_rsv1 : decode 11 (.cb 0b01_000000) = .ok .rsv1 ∧ decode 11 (.cb 0b01_111111) = .ok .rsv1 := ⟨rfl, rfl⟩
theorem test_decode_lit : decode 11 (.cb 0b10_000000) = .ok (.lit 128) ∧ decode 11 (.cb 0b10_111111) = .ok (.lit 191) := ⟨rfl, rfl⟩
theorem test_decode_rsvf0 : decode 11 (.cb 0b11_000000) = .ok .rsvf0 := by rfl
theorem test_decode_ful : decode 11 (.cb 0b11_000001) = .ok (.ful 1) ∧ decode 11 (.cb 0b11_111111) = .ok (.ful 63) := ⟨rfl, rfl⟩

/-- The canonical words of rules R80, R82, R84 and the match column of R90. -/
theorem test_encode_words :
    encode 11 .fin = .st 0x100 ∧ encode 11 .eof = .gt 0x100 ∧ encode 11 .eos = .gt 0x200 ∧
    encode 11 .meof = .pt 0x080000 ∧ encode 11 .meos = .pt 0x100000 ∧ encode 11 (.ful 2) = .cb 0xC2 := by decide

/-- The host's two questions, for a row of each format: the word decodes, and a step from reset runs it. -/
theorem test_table_words :
    decodeTableWord 9 0x0C8 = some (.s 200) ∧ decodeTableWord 16 0x100 = some .fin ∧
    decodeTableWord 10 0x096 = some (.g 150) ∧ decodeTableWord 16 0x200 = some .eos ∧
    decodeTableWord 24 0x080000 = some .meof ∧ decodeTableWord 21 0x180000 = none ∧
    decodeTableWord 8 0x07 = some (.blk 7) := by decide

theorem test_placed_words_run :
    view (step (State.reset.withFetchWord 9 0x100)) = some ⟨[0x00], none, .done, .none⟩ ∧
    view (step (State.reset.withFetchWord 10 0x096)) = some ⟨[], some ⟨150, 1⟩, .run, .none⟩ ∧
    view (step (State.reset.withFetchWord 21 0x4B003)) = some ⟨[0x96, 0x96, 0x96], none, .run, .none⟩ ∧
    ((decView (step (State.reset.withFetchWord 8 0x02))).map (·.cells)) = some [128, 128] := by
  decide

/-! ## Front end -/

/-- V2.1 to V2.14: a block's six pixels in the order of lanes 0 to 5. -/
def laneCode (l : List Bool) : Byte := glyph { smallCfg with w := 2, h := 3 } (fun a => l.getD a false) 0 0

theorem test_glyph_lanes :
    laneCode [false, false, false, false, false, false] = 128 ∧ laneCode [true, true, true, true, true, true] = 191 ∧
    laneCode [true, false, false, false, false, false] = 129 ∧ laneCode [false, true, false, false, false, false] = 130 ∧
    laneCode [false, false, true, false, false, false] = 132 ∧ laneCode [false, false, false, true, false, false] = 136 ∧
    laneCode [false, false, false, false, true, false] = 144 ∧ laneCode [false, false, false, false, false, true] = 160 ∧
    laneCode [true, false, false, true, true, false] = 153 := by decide

/-- V2.20. -/
theorem test_pack_small : pack smallCfg (fun a => decide (v220.getD a 0 = 1)) = [169, 128, 191, 191] := by decide

/-- V8.1, V8.2 and V8.3: the threshold is inclusive. -/
theorem test_s_stores :
    ((after (exec (.s 200) (pipeAt 0))).map fun t => (t.readCell 0, t.wp, t.out)) = some (true, 1, []) ∧
    ((after (exec (.s 185) (pipeAt 1))).map fun t => (t.readCell 1, t.wp)) = some (false, 2) ∧
    ((after (exec (.s 186) (pipeAt 2))).map fun t => (t.readCell 2, t.wp)) = some (true, 3) := by decide

/-- P4, token 24; and P5's second frame, whose first frame's pixels are still in the buffer. -/
theorem test_s_completes_frame :
    ((after (exec (.s 255) (smallAt 23))).map fun t => (t.out, t.wp, t.openRun)) =
      some ([0xA9, 0x80, 0xC2, 0x00], 0, none) := by decide

/-- V8.6 and V8.7. -/
theorem test_fin :
    view (exec .fin (pipeAt 0)) = some ⟨[0x00], none, .done, .none⟩ ∧
    view (exec .fin (pipeAt 5)) = some ⟨[], none, .fault, .proto⟩ := by decide

/-! ## Run-length stage -/

/-- V7.1, V7.2, V7.11. -/
theorem test_g_opens_and_extends :
    view (exec (.g 128) (coreWith none)) = some ⟨[], some ⟨128, 1⟩, .run, .none⟩ ∧
    view (exec (.g 128) (coreWith (some ⟨128, 1⟩))) = some ⟨[], some ⟨128, 2⟩, .run, .none⟩ ∧
    view (exec (.g 191) (coreWith (some ⟨191, 2046⟩))) = some ⟨[], some ⟨191, 2047⟩, .run, .none⟩ := by decide

/-- V7.3, V7.10, V7.13, V7.17. -/
theorem test_g_closes_and_faults :
    view (exec (.g 150) (coreWith (some ⟨128, 70⟩))) = some ⟨[0x3F, 0x07], some ⟨150, 1⟩, .run, .none⟩ ∧
    view (exec (.g 191) (coreWith (some ⟨191, 2047⟩))) = some ⟨[], some ⟨191, 2047⟩, .fault, .ovf⟩ ∧
    view (exec (.g 191) (coreWith (some ⟨5, 1⟩))) = some ⟨[], some ⟨5, 1⟩, .fault, .inv⟩ ∧
    view (exec (.g 129) (coreWith (some ⟨64, 2⟩))) = some ⟨[], some ⟨64, 2⟩, .fault, .inv⟩ := by decide

/-- V7.5, V7.6, V7.14. -/
theorem test_eof :
    view (exec .eof (coreWith (some ⟨191, 2⟩))) = some ⟨[0xC2, 0x00], none, .run, .none⟩ ∧
    view (exec .eof (coreWith none)) = some ⟨[0x00], none, .run, .none⟩ ∧
    view (exec .eof (coreWith (some ⟨200, 1⟩))) = some ⟨[], some ⟨200, 1⟩, .fault, .inv⟩ := by decide

/-- V7.7, V7.8. -/
theorem test_eos :
    view (exec .eos (coreWith none)) = some ⟨[0x00], none, .done, .none⟩ ∧
    view (exec .eos (coreWith (some ⟨128, 1⟩))) = some ⟨[], some ⟨128, 1⟩, .fault, .proto⟩ := by decide

/-- V7.9. -/
theorem test_grsv : view (exec .grsv (coreWith (some ⟨150, 1⟩))) = some ⟨[], some ⟨150, 1⟩, .fault, .proto⟩ := by decide

/-- V4.3, V4.4 and V4.8. -/
theorem test_rle :
    rle (List.replicate 70 128 ++ [150] ++ List.replicate 2 191) = [(128, 70), (150, 1), (191, 2)] ∧
    rle [128, 191, 128, 191] = [(128, 1), (191, 1), (128, 1), (191, 1)] ∧ rle [5, 5, 200] = [(5, 2), (200, 1)] := by decide

/-! ## Compact encoder -/

/-- Rule R141's examples, V3.3 and V3.13; and a value that is no glyph. -/
theorem test_pair :
    view (exec (.pair 128 70) (coreWith none)) = some ⟨[0x3F, 0x07], none, .run, .none⟩ ∧
    view (exec (.pair 128 64) (coreWith none)) = some ⟨[0x3F, 0x80], none, .run, .none⟩ ∧
    view (exec (.pair 191 64) (coreWith none)) = some ⟨[0xFF, 0xBF], none, .run, .none⟩ ∧
    view (exec (.pair 192 1) (coreWith none)) = some ⟨[], none, .fault, .inv⟩ := by decide

theorem test_terminators :
    view (exec .meof (coreWith none)) = some ⟨[0x00], none, .run, .none⟩ ∧
    view (exec .meos (coreWith none)) = some ⟨[0x00], none, .done, .none⟩ := by decide

/-- V3.24, V3.27, V3.33, V3.34: the values next to the special ones are not special. -/
theorem test_chunk :
    chunk 128 2047 = List.replicate 32 0x3F ++ [0x1F] ∧ chunk 191 2047 = List.replicate 32 0xFF ++ [0xDF] ∧
    chunk 190 2 = [0xBE, 0xBE] ∧ chunk 129 2 = [0x81, 0x81] := by decide

/-- A compact encoder that is busy takes one micro-step a step (rules R143, R144). -/
theorem test_micro_step :
    ((after (step { coreWith none with cv := 150, crem := 3 })).map fun t => (t.out, t.crem, t.clit)) = some ([0x96], 0, 2) := by
  decide

/-- V5.3, V5.12, V5.14. -/
theorem test_encode_stream :
    encodeFrame (List.replicate 70 128 ++ [150] ++ List.replicate 2 191) = [0x3F, 0x07, 0x96, 0xC2, 0x00] ∧
    encodeStream [[128, 128, 191, 191, 191, 129], List.replicate 64 191] =
      [0x02, 0xC3, 0x81, 0x00, 0xFF, 0xBF, 0x00, 0x00] ∧
    encodeStream [[]] = [0x00, 0x00] := by decide

/-! ## Reference decoder -/

/-- Rules R162, R163, R164: their examples. -/
theorem test_run_and_literal_bytes :
    ((after (exec (.blk 7) (decoding [150] []))).map (·.dec.cells)) = some (150 :: List.replicate 7 128) ∧
    ((after (exec (.lit 150) (decoding [] []))).map (·.dec.cells)) = some [150] ∧
    ((after (exec (.ful 2) (decoding [150] []))).map (·.dec.cells)) = some [150, 191, 191] := by decide

/-- Rule R161. -/
theorem test_end_byte :
    ((decView (exec .endByte (decoding [128] []))).map fun d => (d.frames, d.cells, d.verdict)) =
      some ([[128]], [], .running) ∧
    ((decView (exec .endByte (decoding [] []))).map (·.verdict)) = some .complete := by decide

/-- Rule R165. -/
theorem test_reserved_bytes :
    ((decView (exec .rsv1 (decoding [128] []))).map fun d => (d.frames, d.verdict)) = some ([], .invalid) ∧
    ((decView (exec .rsvf0 (decoding [] []))).map (·.verdict)) = some .invalid := by decide

/-- V6.20 to V6.27. -/
theorem test_decode_frame :
    decodeFrame [0x3F, 0x07, 0x96, 0xC2, 0x00] = .frame (List.replicate 70 128 ++ [150, 191, 191]) [] ∧
    decodeFrame [0x3F, 0x80, 0x00, 0xAA] = .frame (List.replicate 64 128) [0xAA] ∧
    decodeFrame [0x01, 0xC1, 0x00] = .frame [128, 191] [] ∧ decodeFrame [0x00] = .frame [] [] ∧
    decodeFrame [0x80] = .truncated ∧ decodeFrame [0x02, 0x40, 0x00] = .invalid ∧ decodeFrame [0xC0, 0x00] = .invalid := by
  decide

/-- V6.30 to V6.34. -/
theorem test_decode_stream :
    decodeStream [0x00] = .frames [] [] ∧ decodeStream [0x80, 0x00, 0x00] = .frames [[128]] [] ∧
    decodeStream [0x00, 0x00] = .frames [] [0x00] ∧ decodeStream [0x80, 0x00] = .truncated := by decide

/-! ## Text (rules R88, R89) -/

theorem test_text :
    assembleLine smallCfg ['S', ' ', '2', '0', '0'] = some [.s 200] ∧
    assembleLine smallCfg ['G', ' ', '0', 'x', '9', '6', ' ', '*', '3'] = some [.g 150, .g 150, .g 150] ∧
    assembleLine smallCfg ['S', 'R', 'O', 'W', ' ', '1', ' ', '2', ' ', '3', ' ', '4'] = some [.s 1, .s 2, .s 3, .s 4] ∧
    assembleLine smallCfg ['G', ' ', '2', '5', '6'] = none ∧ listByte 0x3F = ['B', 'L', 'K', ' ', '6', '3'] ∧
    listByte 0xC0 = ['.', 'b', 'y', 't', 'e', ' ', '0', 'x', 'C', '0'] := by decide

/-- The form of P1: `GFRAME [128]*2 + [150, 191]`. -/
theorem test_text_frame :
    assemble smallCfg [['G', 'F', 'R', 'A', 'M', 'E', ' ', '[', '1', '2', '8', ']', '*', '2', ' ', '+', ' ', '[', '1', '5', '0', ',',
      ' ', '1', '9', '1', ']'], ['E', 'O', 'S']] = some [.g 128, .g 128, .g 150, .g 191, .eof, .eos] ∧
    hexLine [0x3F, 0x07, 0x96] = ['3', 'F', ' ', '0', '7', ' ', '9', '6'] := by decide

/-! ## Building (rules R8, R9), outputs (rules R30, R200), observation (rule R191) -/

/-- A refused configuration is not built and has no step, not even a reset edge; the reference one is built. -/
theorem test_build :
    State.build Config.reference = .next State.reset ∧
    State.build { Config.reference with h := 0 } = .refused .badConfiguration ∧
    step { State.resetWith { Config.reference with w := 127 } with rst := true } = .refused .badConfiguration ∧
    step { State.resetWith { Config.reference with w := 127 } with crem := 1 } = .refused .badConfiguration := ⟨rfl, rfl, rfl, rfl⟩

/-- The codes of rule R200, and `done`. -/
theorem test_status_outputs :
    ([FaultCode.none, .inv, .ovf, .proto].map fun f => ({ State.reset with fc := f } : State).faultOut) = [0, 1, 2, 3] ∧
    ([RunState.run, .done, .fault].map fun x => ({ State.reset with st := x } : State).doneOut) = [false, true, false] := by
  decide

/-- `g_ready` and `s_ready` while a word stands on the hand-over (assumption 10), and once it is taken. -/
theorem test_ready_outputs :
    ({ coreWith none with gIn := [0x080], pIn := [0x80000] } : State).gReady = false ∧
    ((after (step { coreWith none with gIn := [0x080], pIn := [0x80000] })).map fun t => (t.gIn, t.gReady)) =
      some ([0x080], true) ∧
    ({ State.reset with pIn := [0x80000] } : State).sReady = false ∧ State.reset.sReady = true := by decide

/-- A sample within a frame emits nothing, and its consumption is observed; a reset edge starts the histories anew. -/
theorem test_observation :
    ((after (step { State.reset with sIn := [0x0C8, 0x000] })).map State.observe) =
      some { consumed := [.s 200], out := [], st := .run, fc := .none } ∧
    ((after (step { coreWith none with rst := true, gIn := [0x080], consumed := [.eof], out := [0x00] })).map State.observe) =
      some { consumed := [], out := [], st := .run, fc := .none } := by decide

/-! ## Witnesses: for each statement with hypotheses, a state and operands that meet them, each clause at a boundary -/

/-- Token boundaries of `CORE` with an open run in range meet the invariant. -/
theorem coreWith_inv {r : Option OpenRun} (h : ∀ q, r = some q → 1 ≤ q.rc ∧ q.rc ≤ 2047) : (coreWith r).Inv :=
  ⟨(by decide : (coreWith none).cfg.wf = true), rfl, rfl, h, (by decide : (coreWith none).wp < (coreWith none).cfg.npix),
    by simp [coreWith, State.setRun, State.resetWith], nofun, fun a h => absurd h (Nat.not_lt_zero a), rfl,
    (by decide : (coreWith none).sy < (coreWith none).cfg.gh), (by decide : (coreWith none).sx < (coreWith none).cfg.gw)⟩

/-- The invariant at the ends of a run's range, and with no run. -/
theorem coreWith_none_inv : (coreWith none).Inv := coreWith_inv nofun
theorem coreWith_full_inv : (coreWith (some ⟨191, 2047⟩)).Inv := coreWith_inv (by simp)
theorem coreWith_bad_inv : (coreWith (some ⟨5, 1⟩)).Inv := coreWith_inv (by simp)

/-- The invariant in mid-frame and before the last sample, with and without an earlier frame's pixels. -/
theorem smallAt_5_inv : (smallAt 5).Inv :=
  ⟨by decide, rfl, rfl, nofun, by decide, by decide, fun _ _ => rfl, by decide, by decide, by decide, by decide⟩
theorem smallAt_23_inv : (smallAt 23).Inv :=
  ⟨by decide, rfl, rfl, nofun, by decide, by decide, fun _ _ => rfl, by decide, by decide, by decide, by decide⟩
theorem smallStale_5_inv : (smallStale 5).Inv :=
  ⟨by decide, rfl, rfl, nofun, by decide, by decide, fun _ _ => rfl, by decide, by decide, by decide, by decide⟩
theorem smallStale_23_inv : (smallStale 23).Inv :=
  ⟨by decide, rfl, rfl, nofun, by decide, by decide, fun _ _ => rfl, by decide, by decide, by decide, by decide⟩

theorem coreWith_none_fresh : (coreWith none).Fresh := ⟨rfl, rfl, rfl, rfl, rfl, rfl, rfl⟩
theorem smallAt_0_fresh : (smallAt 0).Fresh := ⟨by decide, rfl, rfl, rfl, rfl, rfl, rfl⟩

theorem witness_DecodeOfEncodeIsIdentity :
    (Instr.pair 255 2047).wf 11 = true ∧ (Instr.pair 0 0).wf 11 = true ∧ (Instr.blk 63).wf 11 = true ∧
    (Instr.ful 1).wf 11 = true ∧ (Instr.lit 0x80).wf 11 = true ∧ (Instr.lit 0xBF).wf 11 = true := by decide

theorem witness_DecodedInstrIsWellFormed :
    decode 11 (.pt 0x7FFFF) = .ok (.pair 255 2047) ∧ decode 11 (.cb 0xFF) = .ok (.ful 63) ∧
    decode 11 (.st 0x1FF) = .ok .fin ∧ decode 11 (.gt 0x0FF) = .ok (.g 255) := ⟨rfl, rfl, rfl, rfl⟩

theorem witness_KindFieldSelectsToken : 0 < 2 ^ 11 ∧ 2047 < 2 ^ 11 := by decide

/-- One configuration for each constraint, each at the value next to the least it allows. -/
theorem witness_BadConfigurationIsRefused :
    ({ Config.reference with w := 0 } : Config).w < 2 ∧ ({ Config.reference with h := 0 } : Config).h < 3 ∧
    ({ Config.reference with cntW := 0, block := .core } : Config).cntW = 0 ∧
    ({ Config.reference with cntW := 10, block := .core } : Config).block = .core ∧
    Config.reference.cells ≤ Config.reference.cntMax ∧ 2 ≤ Config.reference.w ∧ 3 ≤ Config.reference.h ∧
    ({ Config.reference with w := 129 } : Config).w % 2 ≠ 0 ∧ ({ Config.reference with h := 49 } : Config).h % 3 ≠ 0 ∧
    ({ Config.reference with cntW := 10 } : Config).block = .pipe ∧
    ({ Config.reference with cntW := 10 } : Config).cntMax < ({ Config.reference with cntW := 10 } : Config).cells ∧
    (State.resetWith { Config.reference with w := 129 }).cfg = { Config.reference with w := 129 } ∧
    blockToken (.s 0) = true := by decide

theorem witness_ResetEdgeTakesResetState :
    (coreWith (some ⟨5, 1⟩)).cfg.wf = true ∧
    ({ coreWith (some ⟨5, 1⟩) with rst := true, st := .fault, fc := .inv } : State).rst = true := by decide

theorem witness_StoppedBlockTakesNothing :
    ({ coreWith none with st := .done } : State).st ≠ .run ∧ ({ coreWith none with st := .fault, fc := .inv } : State).st ≠ .run ∧
    blockToken (.g 128) = true ∧ ({ coreWith none with st := .done } : State).rst = false ∧
    (coreWith none).cfg.wf = true ∧
    exec (.g 128) { coreWith none with st := .done } = .next { coreWith none with st := .done } :=
  ⟨by decide, by decide, rfl, rfl, by decide, rfl⟩

theorem witness_RunStateTransitions :
    ((after (step { coreWith none with rst := true, st := .fault, fc := .inv })).map (·.st)) = some .run ∧
    ((after (step { coreWith none with gIn := [0x2CD] })).map (·.st)) = some .done ∧
    ((after (step { State.reset with sIn := [0x1FF] })).map (·.st)) = some .done ∧
    ((after (step { State.reset with pIn := [0x100000] })).map (·.st)) = some .done ∧
    ((after (step { coreWith none with gIn := [0x3FF] })).map (·.st)) = some .fault ∧
    ((after (step { smallAt 5 with sIn := [0x1FF] })).map (·.st)) = some .fault ∧
    ((after (step { State.reset with pIn := [0x3F801] })).map (·.st)) = some .fault := by decide

theorem witness_StepRunsDecodedInstr :
    (State.reset.cfg.wf = true ∧ State.reset.rst = false ∧
      fetch { State.reset with sIn := [0x0C8] } = some (.st 0x0C8, { State.reset with consumed := [.s 200] }) ∧
      decode 11 (.st 0x0C8) = .ok (.s 200)) ∧
    ((coreWith none).cfg.wf = true ∧ (coreWith none).cfg.block = .core ∧ (coreWith none).ready = true ∧
      (coreWith none).pIn = [] ∧ ({ coreWith none with gIn := [0x080] } : State).gIn = [0x080]) ∧
    (State.reset.cfg.block = .pipe ∧ State.reset.ready = true ∧ ({ State.reset with sIn := [0x0FF] } : State).sIn = [0x0FF]) ∧
    (({ State.reset with pIn := [0x80000] } : State).ready = true ∧ decodePT 11 0x80000 = .ok .meof) ∧
    ({ decoding [] [0x80] with st := .done } : State).ready = false ∧ (decoding [] [0x80]).dec.verdict = .running ∧
    (decoding [] [0x80]).dec.input = some [0x80] := by
  refine ⟨⟨rfl, rfl, rfl, rfl⟩, ⟨rfl, rfl, rfl, rfl, rfl⟩, ⟨rfl, rfl, rfl⟩, ⟨rfl, rfl⟩, rfl, rfl, rfl⟩

theorem witness_TokensAreTakenOnceInOrder :
    (({ coreWith none with gIn := [0x080, 0x100] } : State).gReady = true ∧
      ({ coreWith none with gIn := [0x080, 0x100] } : State).gValid = true ∧
      ((after (step { coreWith none with gIn := [0x080, 0x100] })).map (·.gIn)) = some [0x100]) ∧
    (({ coreWith none with pIn := [0x80000] } : State).pIn ≠ []) ∧
    (({ State.reset with sIn := [0x0C8] } : State).sReady = true ∧ ({ State.reset with sIn := [0x0C8] } : State).sValid = true ∧
      ((after (step { State.reset with sIn := [0x0C8] })).map (·.sIn)) = some []) := by decide

theorem witness_NoTokenNothingHappens :
    State.reset.cfg.wf = true ∧ State.reset.ready = true ∧ State.reset.pIn = [] ∧ State.reset.gIn = [] ∧ State.reset.sIn = [] ∧
    State.reset.dec.input = none := by decide

theorem witness_FrameBufferReadAfterWrite :
    (smallAt 23).Inv ∧ (smallAt 23).wp + 1 = (smallAt 23).cfg.npix ∧ 0 < (smallAt 23).cfg.npix ∧ 23 < (smallAt 23).cfg.npix ∧
    (22 : Nat) ≠ 23 := ⟨smallAt_23_inv, by decide, by decide, by decide, by decide⟩

theorem witness_PackerBlocksTileFrame :
    Config.reference.wf = true ∧ 15 < Config.reference.gh ∧ 63 < Config.reference.gw ∧
    blockAddr Config.reference 15 63 2 1 = 6143 ∧ blockAddr Config.reference 0 0 0 0 = 0 ∧ 6143 < Config.reference.npix := by
  decide

/-- In mid-frame, and at the last sample, over a frame buffer that holds an earlier frame and one that holds nothing. -/
theorem witness_StaleCellsNeverReachOutput :
    ((smallAt 5).Inv ∧ (smallStale 5).Inv ∧ (smallAt 5).ready = true ∧ (smallAt 5).cfg.block = .pipe ∧
      smallStale 5 = { smallAt 5 with fb := (smallStale 5).fb, epoch := (smallStale 5).epoch } ∧
      (∀ a, a < (smallAt 5).wp → (smallStale 5).readCell a = (smallAt 5).readCell a) ∧
      ∃ t, exec (.s 255) (smallAt 5) = .next t) ∧
    ((smallAt 23).Inv ∧ (smallStale 23).Inv ∧ (smallAt 23).ready = true ∧ (smallAt 23).cfg.block = .pipe ∧
      smallStale 23 = { smallAt 23 with fb := (smallStale 23).fb, epoch := (smallStale 23).epoch } ∧
      (∀ a, a < (smallAt 23).wp → (smallStale 23).readCell a = (smallAt 23).readCell a) ∧
      ∃ t, exec (.s 0) (smallAt 23) = .next t) :=
  ⟨⟨smallAt_5_inv, smallStale_5_inv, rfl, rfl, rfl, by decide, _, rfl⟩,
    ⟨smallAt_23_inv, smallStale_23_inv, rfl, rfl, rfl, by decide, _, rfl⟩⟩

theorem witness_GlyphRangeIsExact :
    Config.reference.wf = true ∧ 0 < Config.reference.gh ∧ 15 < Config.reference.gh ∧ 0 < Config.reference.gw ∧
    63 < Config.reference.gw ∧ 128 ≤ 128 ∧ 191 ≤ 191 := by decide

theorem witness_PackIsRowMajor : 15 < Config.reference.gh ∧ 63 < Config.reference.gw := by decide

theorem witness_SampleWithinFrame :
    (pipeAt 6142).cfg.wf = true ∧ (pipeAt 6142).cfg.block = .pipe ∧ (pipeAt 6142).ready = true ∧
    (pipeAt 6142).wp + 1 < (pipeAt 6142).cfg.npix := by decide

theorem witness_LastSampleEmitsFrameRecord :
    (smallAt 23).cfg.wf = true ∧ (smallAt 23).cfg.block = .pipe ∧ (smallAt 23).ready = true ∧ (smallAt 23).openRun = none ∧
    (smallAt 23).wp + 1 = (smallAt 23).cfg.npix := by decide

theorem witness_FinEndsStreamOrFaults :
    State.reset.cfg.wf = true ∧ State.reset.cfg.block = .pipe ∧ State.reset.ready = true ∧ State.reset.wp = 0 ∧
    State.reset.openRun = none ∧ (pipeAt 1).ready = true ∧ (pipeAt 1).wp ≠ 0 ∧
    (State.reset.setRun (some ⟨128, 1⟩)).ready = true ∧ (State.reset.setRun (some ⟨128, 1⟩)).openRun ≠ none := by decide

theorem witness_RleProperties :
    (∀ p ∈ ([(128, 2), (150, 1)] : List (Byte × Nat)), 1 ≤ p.2) ∧
    ([(128, 2), (150, 1)] : List (Byte × Nat)).IsChain (fun p q => p.1 ≠ q.1) ∧
    expandPairs [(128, 2), (150, 1)] = [128, 128, 150] := by simp [expandPairs]

theorem witness_GlyphTokenMeaning :
    ((coreWith none).cfg.wf = true ∧ (coreWith none).ready = true ∧ (coreWith none).openRun = none) ∧
    ((coreWith (some ⟨191, 2046⟩)).ready = true ∧ (2046 : Nat) ≠ (coreWith none).cfg.cntMax) ∧
    ((coreWith (some ⟨191, 2047⟩)).ready = true ∧ (2047 : Nat) = (coreWith none).cfg.cntMax) ∧
    ((coreWith (some ⟨128, 70⟩)).ready = true ∧ (150 : Byte) ≠ 128 ∧ 128 ≤ (128 : Byte).toNat ∧ (191 : Byte).toNat ≤ 191) ∧
    ((coreWith (some ⟨127, 1⟩)).ready = true ∧ (127 : Byte).toNat < 128 ∧ 191 < (192 : Byte).toNat) := by decide

theorem witness_EndOfFrameMeaning :
    (coreWith none).ready = true ∧ (coreWith none).openRun = none ∧ (coreWith (some ⟨128, 1⟩)).ready = true ∧
    (coreWith (some ⟨128, 1⟩)).openRun = some ⟨128, 1⟩ ∧ (coreWith (some ⟨191, 2⟩)).openRun = some ⟨191, 2⟩ ∧
    (coreWith (some ⟨192, 1⟩)).ready = true ∧ 191 < (192 : Byte).toNat ∧ (127 : Byte).toNat < 128 := by decide

theorem witness_EndOfStreamMeaning :
    (coreWith none).cfg.wf = true ∧ (coreWith none).ready = true ∧ (coreWith none).openRun = none ∧
    (coreWith (some ⟨128, 1⟩)).ready = true ∧ (coreWith (some ⟨128, 1⟩)).openRun = some ⟨128, 1⟩ := by decide

theorem witness_ReservedTokenRaisesProto : (coreWith (some ⟨150, 1⟩)).cfg.wf = true ∧ (coreWith (some ⟨150, 1⟩)).ready = true := by
  decide

theorem witness_RunRegisterHoldsLastPair :
    (coreWith none).Fresh ∧ feed ([].map Instr.g) (coreWith none) = .next (coreWith none) ∧
    ((after (feed ([128, 128, 150].map Instr.g) (coreWith none))).map (·.fc)) = some .none :=
  ⟨coreWith_none_fresh, rfl, by decide⟩

theorem witness_PairTokenMeaning :
    State.reset.cfg.wf = true ∧ State.reset.ready = true ∧ 2047 < 2 ^ 11 ∧ (128 : Byte).extractLsb' 6 2 = 2 ∧
    (191 : Byte).extractLsb' 6 2 = 2 ∧ (127 : Byte).extractLsb' 6 2 ≠ 2 ∧ (192 : Byte).extractLsb' 6 2 ≠ 2 := by decide

theorem witness_MicroStepsSerialiseChunk :
    0 < ({ coreWith none with clit := 62 } : State).clit ∧ (coreWith none).clit = 0 ∧
    0 < ({ coreWith none with crem := 1 } : State).crem ∧ min 1 63 = 1 ∧ min 64 63 ≠ 1 ∧
    ({ coreWith none with cv := 128 } : State).cv = 128 ∧ ({ coreWith none with cv := 191 } : State).cv = 191 ∧
    (coreWith none).ceIdle = true ∧ isGlyph 128 = true ∧ 1 < (chunk 128 64).length ∧
    (coreWith none).cfg.wf = true ∧ (coreWith none).rst = false ∧ (coreWith none).st = .run ∧
    (coreWith none).dec.input = none ∧ ({ coreWith none with crem := 1 } : State).ceIdle = false := by decide

theorem witness_ChunkEquations : isGlyph 128 = true ∧ isGlyph 191 = true ∧ isGlyph 150 = true ∧ 0 < 1 ∧ 2 ≤ 63 := by decide

theorem witness_ChunkClosedForm :
    isGlyph 129 = true ∧ (129 : Byte) ≠ 128 ∧ (190 : Byte) ≠ 191 ∧ isGlyph 128 = true ∧ 0 ≤ 62 ∧ 2 ≤ 62 ∧ 62 ≤ 62 := by decide

theorem witness_ByteCounts :
    isGlyph 129 = true ∧ isSpecial 129 = false ∧ isSpecial 128 = true ∧ isSpecial 191 = true ∧ AllGlyphs [128] ∧
    AllGlyphs (List.replicate 1024 128) ∧ (List.replicate 1024 (128 : Byte)).length = 1024 := by
  refine ⟨by decide, by decide, by decide, by decide, by unfold AllGlyphs; decide, ?_, List.length_replicate⟩
  intro g hg
  rw [List.eq_of_mem_replicate hg]
  decide

theorem witness_EmittedByteProperties :
    isGlyph 128 = true ∧ 1 ≤ 1 ∧ (0x3F : Byte) ∈ chunk 128 64 ∧ cbTag 0x3F = 0 ∧ isSpecial 129 = false := by decide

theorem witness_EmittableBytesExactly :
    AllGlyphs [128, 191] ∧ emittable 0x00 = true ∧ emittable 0x02 = true ∧ emittable 0xFF = true ∧ emittable 0x01 = false ∧
    emittable 0xC1 = false := ⟨by unfold AllGlyphs; decide, by decide, by decide, by decide, by decide, by decide⟩

theorem witness_TerminatorTokensMeaning : 2 ^ 19 - 1 < 2 ^ (11 + 8) ∧ State.reset.cfg.wf = true ∧ State.reset.ready = true := by
  decide

theorem witness_RunAndLiteralBytesExtendCells :
    (decoding [] []).dec.verdict = .running ∧ 1 ≤ (0x01 : Byte).toNat ∧ (0x3F : Byte).toNat ≤ 0x3F ∧
    0x80 ≤ (0x80 : Byte).toNat ∧ (0xBF : Byte).toNat ≤ 0xBF ∧ 0xC1 ≤ (0xC1 : Byte).toNat := by decide

theorem witness_EndByteEndsFrameOrStream :
    (decoding [128] []).dec.verdict = .running ∧ (decoding [128] []).dec.cells ≠ [] ∧ (decoding [] []).dec.cells = [] := by decide

theorem witness_ReservedBytesAreInvalid :
    0x40 ≤ (0x40 : Byte).toNat ∧ (0x7F : Byte).toNat ≤ 0x7F ∧ (decoding [128] []).dec.verdict = .running ∧
    Instr.rsvf0 ∈ [Instr.rsv1, .rsvf0] ∧ (0x80 : Byte) ∈ encodeFrame [128] := by decide

theorem witness_DecoderStepsComputeDecodeStream :
    State.reset.cfg.wf = true ∧ State.reset.rst = false ∧ State.reset.ceIdle = true ∧ State.reset.pIn = [] ∧ State.reset.gIn = [] ∧ State.reset.sIn = [] := by
  decide

theorem witness_DecoderAndBlockAreSeparate :
    blockToken .eof = true ∧ (∃ t, exec .eof (coreWith (some ⟨191, 2⟩)) = .next t) ∧ blockToken (.blk 7) = false :=
  ⟨rfl, ⟨_, rfl⟩, rfl⟩

theorem witness_CompactRoundTrip :
    AllGlyphs [128, 191, 150] ∧ (∀ f ∈ ([[128], [191, 191]] : List (List Byte)), AllGlyphs f) ∧
    (∀ f ∈ ([[128], [191, 191]] : List (List Byte)), f ≠ []) := by unfold AllGlyphs; decide

theorem witness_TerminatorSafety : AllGlyphs [128] ∧ ∀ f ∈ ([[], [191]] : List (List Byte)), AllGlyphs f := by
  unfold AllGlyphs; decide

theorem witness_CoreComputesEncodeStream :
    (coreWith none).Fresh ∧ (coreWith none).cfg.block = .core ∧ (coreWith none).pIn = [] ∧
    (∀ f ∈ ([[128, 128], []] : List (List Byte)), AllGlyphs f) ∧
    (∀ f ∈ ([[128, 128], []] : List (List Byte)), RunsFit (coreWith none).cfg f) ∧
    ([0x080, 0x080, 0x1AB, 0x100, 0x200] : List (BitVec 10)).map decodeGT = streamTokens [[128, 128], []] ∧
    ([0x080, 0x080, 0x100, 0x100] : List (BitVec 10)).map decodeGT = [[128, 128], []].flatMap frameTokens :=
  ⟨coreWith_none_fresh, rfl, rfl, by unfold AllGlyphs; decide, by unfold RunsFit; decide, by decide, by decide⟩

/-- P4's samples, then `FIN`; and two samples of a second frame. -/
theorem witness_PipeComputesEncodeStream :
    (smallAt 0).Fresh ∧ (smallAt 0).cfg.block = .pipe ∧ (smallAt 0).pIn = [] ∧ (smallAt 0).wp = 0 ∧
    (∀ d ∈ [List.replicate 23 (254 : Byte) ++ [255]], d.length = (smallAt 0).cfg.npix) ∧
    (List.replicate 23 (0x0FE : BitVec 9) ++ [0x0FF, 0x100]).map decodeST =
      sampleTokens [List.replicate 23 254 ++ [255]] ++ [.fin] ∧
    ([200, 0] : List Byte).length < (smallAt 0).cfg.npix ∧
    (List.replicate 23 (0x0FE : BitVec 9) ++ [0x0FF, 0x0C8, 0x000]).map decodeST =
      sampleTokens ([List.replicate 23 254 ++ [255]] ++ [[200, 0]]) :=
  ⟨smallAt_0_fresh, rfl, rfl, rfl, by decide, by decide, by decide, by decide⟩

theorem witness_EndOfFrameLeavesFreshState :
    (coreWith (some ⟨191, 2047⟩)).Inv ∧ (coreWith (some ⟨191, 2047⟩)).ready = true ∧
    ((after (exec .eof (coreWith (some ⟨191, 2047⟩)))).map (·.st)) = some .run ∧
    (smallAt 23).Inv ∧ (smallAt 23).ready = true ∧ (smallAt 23).wp + 1 = (smallAt 23).cfg.npix ∧
    (∃ t, exec (.s 255) (smallAt 23) = .next t) ∧ Config.reference.wf = true :=
  ⟨coreWith_full_inv, rfl, by decide, smallAt_23_inv, rfl, rfl, ⟨_, rfl⟩, by decide⟩

/-- One faulting token for each condition of rule R200. -/
theorem witness_FaultKeepsEverythingElse :
    ((coreWith (some ⟨5, 1⟩)).Inv ∧ (coreWith (some ⟨5, 1⟩)).ready = true ∧
      ((after (exec (.g 191) (coreWith (some ⟨5, 1⟩)))).map (·.st)) = some .fault ∧
      ((after (exec .eof (coreWith (some ⟨5, 1⟩)))).map (·.st)) = some .fault ∧
      ((after (exec .eos (coreWith (some ⟨5, 1⟩)))).map (·.st)) = some .fault) ∧
    ((coreWith (some ⟨191, 2047⟩)).Inv ∧
      ((after (exec (.g 191) (coreWith (some ⟨191, 2047⟩)))).map (·.st)) = some .fault) ∧
    ((smallAt 5).Inv ∧ ((after (exec .fin (smallAt 5))).map (·.st)) = some .fault) :=
  ⟨⟨coreWith_bad_inv, rfl, by decide, by decide, by decide⟩, ⟨coreWith_full_inv, by decide⟩, smallAt_5_inv, by decide⟩

theorem witness_FaultCodePerToken :
    (coreWith (some ⟨5, 1⟩)).Inv ∧ ((after (exec .eof (coreWith (some ⟨5, 1⟩)))).map (·.fc)) = some .inv ∧
    (coreWith (some ⟨191, 2047⟩)).Inv ∧ ((after (exec (.g 191) (coreWith (some ⟨191, 2047⟩)))).map (·.fc)) = some .ovf ∧
    (smallAt 5).Inv ∧ ((after (exec .fin (smallAt 5))).map (·.fc)) = some .proto ∧
    ((after (exec .grsv (coreWith none))).map (·.fc)) = some .proto ∧
    ((after (exec (.pair 127 1) (coreWith none))).map (·.fc)) = some .inv :=
  ⟨coreWith_bad_inv, by decide, coreWith_full_inv, by decide, smallAt_5_inv, by decide, by decide, by decide⟩

theorem witness_PipeRaisesOnlyProtoByFin :
    (smallAt 5).Inv ∧ (smallAt 5).cfg.block = .pipe ∧ (smallAt 5).pIn = [] ∧
    ((after (step { smallAt 5 with sIn := [0x1FF] })).map (·.fc)) = some .proto ∧ (∃ t, step (smallAt 5) = .next t) :=
  ⟨smallAt_5_inv, rfl, rfl, by decide, _, rfl⟩

theorem witness_StepKeepsInvariant :
    (coreWith (some ⟨191, 2047⟩)).Inv ∧ (∃ t, step (coreWith (some ⟨191, 2047⟩)) = .next t) ∧ (smallAt 23).Inv ∧
    (∃ t, step (smallAt 23) = .next t) := ⟨coreWith_full_inv, ⟨_, rfl⟩, smallAt_23_inv, _, rfl⟩

theorem witness_ResetHasInvariant : smallCfg.wf = true ∧ Config.reference.wf = true := by decide

/-- The second clause's refusal: a P word of kind 3. -/
theorem witness_InvariantStepNeverStops :
    (smallAt 23).Inv ∧ decodePT 11 0x180000 = .error .pKind3 ∧
    step { smallAt 23 with pIn := [0x180000] } = .refused (.noSuchWord .pKind3) := ⟨smallAt_23_inv, rfl, rfl⟩

theorem witness_RegistersFitTheirWidths :
    (coreWith (some ⟨191, 2047⟩)).Inv ∧ (coreWith (some ⟨191, 2047⟩)).openRun = some ⟨191, 2047⟩ := ⟨coreWith_full_inv, rfl⟩

theorem witness_OutputOnlyGrows :
    (∃ t, exec .meof State.reset = .next t) ∧ State.reset.rst = false ∧ ∃ t, step State.reset = .next t :=
  ⟨⟨_, rfl⟩, rfl, _, rfl⟩

theorem witness_CoreTokensFrame :
    ∀ i ∈ [Instr.g 150, .eof, .eos, .grsv, .pair 128 64, .meof, .meos], coreToken i = true ∧
      (after (exec i (coreWith (some ⟨128, 70⟩)))).isSome = true := by decide

theorem witness_SampleTokensFrame :
    (∃ t, exec (.s 200) (pipeAt 6142) = .next t) ∧ (pipeAt 6142).ready = true ∧ (∃ t, exec (.s 0) (smallAt 23) = .next t) ∧
    (∃ t, exec .fin (smallAt 5) = .next t) := ⟨⟨_, rfl⟩, rfl, ⟨_, rfl⟩, _, rfl⟩

theorem witness_ByteClassesFrame :
    (∀ i ∈ [Instr.endByte, .blk 63, .rsv1, .lit 150, .rsvf0, .ful 1], blockToken i = false ∧
      (after (exec i (decoding [128] [0x00]))).isSome = true) ∧
    ({ RefDecoder.fresh with verdict := .complete } : RefDecoder).verdict ≠ .running := by decide

end Sys2Proof.Tests
end

/-! ## Proofs: the check of the configuration, and the step of a word offered (O7, O12) -/

namespace Sys2Proof.Machine

/-- The constraints of rule R8, one by one. -/
theorem config_wf_iff (c : Config) :
    c.wf = true ↔ 2 ≤ c.w ∧ c.w % 2 = 0 ∧ 3 ≤ c.h ∧ c.h % 3 = 0 ∧ 1 ≤ c.cntW ∧
      (c.block = .core ∨ c.cells ≤ c.cntMax) := by
  simp [Config.wf, and_assoc]

theorem build_wf {c : Config} (hw : c.wf = true) : State.build c = .next (State.resetWith c) := by
  simp [State.build, hw]

theorem build_bad_configuration {c : Config} (hw : c.wf = false) : State.build c = .refused .badConfiguration := by
  simp [State.build, hw]

theorem accept_bad_configuration {s : State} (r : Host.Outcome State Fault Refusal) (hw : s.cfg.wf = false) :
    accept s r = .refused .badConfiguration := by
  simp [accept, hw]

/-- A token of port `S` is refused under a bad configuration, by its own guard on a `PIPE` and for want of the port on a
`CORE`. -/
theorem onPortS_accept_bad_configuration {s : State} (r : Host.Outcome State Fault Refusal) (hw : s.cfg.wf = false) :
    ∃ e, onPortS s (accept s r) = .refused e := by
  rw [accept_bad_configuration r hw]
  unfold onPortS
  split
  · exact ⟨_, rfl⟩
  · exact ⟨_, rfl⟩

/-- No token of the block has a meaning under a configuration that rule R9 refuses. -/
theorem exec_block_bad_configuration {i : Instr} {s : State} (hi : blockToken i = true) (hw : s.cfg.wf = false) :
    ∃ e, exec i s = .refused e := by
  cases i with
  | s d => exact onPortS_accept_bad_configuration _ hw
  | fin => exact onPortS_accept_bad_configuration _ hw
  | g | eof | eos | grsv | pair | meof | meos => exact ⟨_, accept_bad_configuration _ hw⟩
  | endByte | blk | rsv1 | lit | rsvf0 | ful => cases hi

/-- Settles O7: the check fails as soon as one constraint does, and every guard asks it first. -/
theorem badConfigurationIsRefused : Obligations.BadConfigurationIsRefused := by
  intro c
  refine ⟨fun hbad => ?_, fun h1 h2 h3 h4 h5 h6 => build_wf ((config_wf_iff c).2 ⟨h1, h2, h3, h4, h5, h6⟩)⟩
  have hw : c.wf = false := by
    rw [← Bool.not_eq_true, config_wf_iff]
    rintro ⟨h1, h2, h3, h4, h5, h6⟩
    obtain hcore | hcells := h6
    · have hpipe : c.block ≠ .pipe := by rw [hcore]; nofun
      simp only [hpipe, false_and, or_false] at hbad
      omega
    · omega
  refine ⟨hw, build_bad_configuration hw, ?_⟩
  rintro s rfl
  exact ⟨step_bad_configuration hw, fun i hi => exec_block_bad_configuration hi hw⟩

/-- A ready block serves the hand-over first (assumption 10). -/
theorem fetch_handOver {s : State} {w : Nat} {ws : List Nat} (hr : s.ready = true) (hp : s.pIn = w :: ws) :
    fetch s = some (.pt w, { s with pIn := ws }) := by
  simp [fetch, fetchBlock, hr, hp]

/-- A ready `CORE` without a word on the hand-over takes the first word of port `G`. -/
theorem fetch_portG {s : State} {w : BitVec 10} {ws : List (BitVec 10)} (hb : s.cfg.block = .core)
    (hr : s.ready = true) (hp : s.pIn = []) (hg : s.gIn = w :: ws) :
    fetch s = some (.gt w, { s with gIn := ws, consumed := s.consumed ++ [decodeGT w] }) := by
  simp [fetch, fetchBlock, fetchPort, hr, hp, hb, hg]

/-- A ready `PIPE` without a word on the hand-over takes the first word of port `S`. -/
theorem fetch_portS {s : State} {w : BitVec 9} {ws : List (BitVec 9)} (hb : s.cfg.block = .pipe)
    (hr : s.ready = true) (hp : s.pIn = []) (hs : s.sIn = w :: ws) :
    fetch s = some (.st w, { s with sIn := ws, consumed := s.consumed ++ [decodeST w] }) := by
  simp [fetch, fetchBlock, fetchPort, hr, hp, hb, hs]

/-- While the block is not ready a running reference decoder reads its next byte (assumption 6). -/
theorem fetch_decoderByte {s : State} {b : Byte} {bs : List Byte} (hr : s.ready = false)
    (hv : s.dec.verdict = .running) (hi : s.dec.input = some (b :: bs)) :
    fetch s = some (.cb b, { s with dec := { s.dec with input := some bs } }) := by
  simp [fetch, fetchBlock, fetchByte, hr, hv, hi]

/-- A block that is ready is not held in reset. -/
theorem rst_of_ready {s : State} (hr : s.ready = true) : s.rst = false := (State.ready_iff.1 hr).1

/-- Settles O12: `step_fetch` for the word each channel offers. -/
theorem stepRunsDecodedInstr : Obligations.StepRunsDecodedInstr := by
  refine ⟨fun s t w i => step_fetch, ?_, ?_, ?_, ?_⟩
  · intro s w ws hw hb hr hp hg
    exact step_fetch hw (rst_of_ready hr) (fetch_portG hb hr hp hg) rfl
  · intro s w ws hw hb hr hp hs
    exact step_fetch hw (rst_of_ready hr) (fetch_portS hb hr hp hs) rfl
  · intro s w ws i hw hr hp hd
    exact step_fetch hw (rst_of_ready hr) (fetch_handOver hr hp) hd
  · intro s b bs hw hrst hr hv hi
    exact step_fetch hw hrst (fetch_decoderByte hr hv hi) rfl

end Sys2Proof.Machine

/-! ## Proofs: reset, and what every token and every step keep (O8, O10, O53, O54, O55, O56, O57, O58, O59) -/

namespace Sys2Proof.Machine

/-! ### Reset -/

/-- A configuration of the hardware counts at least to 1 and has a pixel, a grid row and a grid column. -/
theorem config_ranges_pos {c : Config} (hw : c.wf = true) : 1 ≤ c.cntMax ∧ 0 < c.npix ∧ 0 < c.gh ∧ 0 < c.gw := by
  obtain ⟨hwidth, -, hheight, -, hcnt, -⟩ := (config_wf_iff c).1 hw
  have hpow : 2 ^ 1 ≤ 2 ^ c.cntW := Nat.pow_le_pow_right (by decide) hcnt
  refine ⟨?_, Nat.mul_pos (by omega) (by omega), Nat.div_pos hheight (by decide), Nat.div_pos hwidth (by decide)⟩
  unfold Config.cntMax
  omega

/-- The state right after reset is a token boundary of R38. -/
theorem resetWith_inv {c : Config} (hw : c.wf = true) : (State.resetWith c).Inv where
  cfgOk := hw
  crem := rfl
  clit := rfl
  run := nofun
  wp := (config_ranges_pos hw).2.1
  fault := ⟨fun _ => nofun, fun _ => rfl⟩
  closed _ _ := rfl
  written a ha := absurd ha (Nat.not_lt_zero a)
  mem := Memory.wf_reset _ c
  sy := (config_ranges_pos hw).2.2.1
  sx := (config_ranges_pos hw).2.2.2

/-- Settles O8: each value is the one `State.resetWith` lists. -/
theorem resetLeavesSpecifiedValues : Obligations.ResetLeavesSpecifiedValues := fun _ =>
  ⟨rfl, rfl, rfl, rfl, rfl, rfl, rfl, rfl, rfl, rfl⟩

/-- Settles O54: the registers' ranges after reset are those a configuration of the hardware has. -/
theorem resetHasInvariant : Obligations.ResetHasInvariant :=
  ⟨resetWith_inv (by decide), fun _ hw => resetWith_inv hw⟩

/-! ### Widths of the registers -/

theorem le_two_pow_ceilLog2 (n : Nat) : n ≤ 2 ^ ceilLog2 n := by
  unfold ceilLog2
  split
  · simpa
  · have := Nat.lt_log2_self (n := n - 1)
    omega

/-- Settles O56: each range of the invariant lies within the width its register has. -/
theorem registersFitTheirWidths : Obligations.RegistersFitTheirWidths := by
  intro s h
  have hpow : 0 < 2 ^ s.cfg.cntW := Nat.two_pow_pos _
  refine ⟨fun r hr => ?_, by rw [h.crem]; exact hpow, by rw [h.clit]; decide,
    h.wp.trans_le (le_two_pow_ceilLog2 _), h.sy.trans_le (le_two_pow_ceilLog2 _),
    h.sx.trans_le (le_two_pow_ceilLog2 _), by decide, by decide, by decide⟩
  have hrc := (h.run r hr).2
  unfold Config.cntMax at hrc
  omega

/-! ### Which steps answer a next state -/

/-- A word that is no instruction is refused. -/
theorem step_noSuchWord {s t : State} {w : PortWord} {e : DecodeError} (hw : s.cfg.wf = true) (hrst : s.rst = false)
    (hf : fetch s = some (w, t)) (hd : decode s.cfg.cntW w = .error e) : step s = .refused (.noSuchWord e) := by
  simp [step, hw, hrst, hf, hd]

/-- A word of port `S` is a sample or the end of the samples. -/
theorem decodeST_cases (w : BitVec 9) : (∃ d, decodeST w = .s d) ∨ decodeST w = .fin := by
  unfold decodeST
  split
  · exact .inl ⟨_, rfl⟩
  · exact .inr rfl

/-- A token of `CORE` is a token of the block. -/
theorem blockToken_of_coreToken {i : Instr} (hi : coreToken i = true) : blockToken i = true := by
  cases i with
  | g | eof | eos | grsv | pair | meof | meos => rfl
  | s | fin | endByte | blk | rsv1 | lit | rsvf0 | ful => cases hi

/-- A word of port `G` is a token of `CORE`. -/
theorem coreToken_decodeGT (w : BitVec 10) : coreToken (decodeGT w) = true := by unfold decodeGT; split_ifs <;> rfl

/-- A word of the hand-over is an RLE pair or one of the two terminators (rule R84). -/
theorem decodePT_cases {cntW w : Nat} {i : Instr} (h : decodePT cntW w = .ok i) :
    (∃ v c, i = .pair v c) ∨ i = .meof ∨ i = .meos := by
  unfold decodePT at h
  split_ifs at h <;> cases h
  · exact .inl ⟨_, _, rfl⟩
  · exact .inr (.inl rfl)
  · exact .inr (.inr rfl)

/-- The guard of the tokens answers a next state when the guarded rule does. -/
theorem accept_next {s : State} {r : Host.Outcome State Fault Refusal} (hw : s.cfg.wf = true)
    (hr : s.ready = true → ∃ t, r = .next t) : ∃ t, accept s r = .next t := by
  cases hready : s.ready with
  | true => rw [accept_ready hw hready]; exact hr hready
  | false => exact ⟨s, accept_not_ready hw hready⟩

/-- Every token of `CORE` has a next state under a configuration of the hardware. -/
theorem exec_core_next {i : Instr} {s : State} (hi : coreToken i = true) (hw : s.cfg.wf = true) :
    ∃ t, exec i s = .next t := by
  cases i with
  | g | eof | eos | grsv | pair | meof | meos => exact accept_next hw fun _ => ⟨_, rfl⟩
  | s | fin | endByte | blk | rsv1 | lit | rsvf0 | ful => cases hi

/-- Every word of port `S` has a next state on a `PIPE` whose `wp` is a cell. -/
theorem exec_decodeST_next (w : BitVec 9) {s : State} (hw : s.cfg.wf = true) (hb : s.cfg.block = .pipe)
    (hwp : s.wp < s.cfg.npix) : ∃ t, exec (decodeST w) s = .next t := by
  obtain ⟨d, h⟩ | h := decodeST_cases w <;> rw [h]
  · simp only [exec, execS, onPortS_pipe hb, if_pos hwp]
    exact accept_next hw fun _ => ⟨_, rfl⟩
  · simp only [exec, execFin, onPortS_pipe hb]
    exact accept_next hw fun _ => ⟨_, rfl⟩

/-- Every compact byte has a next state. -/
theorem exec_byte_next {i : Instr} (hi : blockToken i = false) (s : State) : ∃ t, exec i s = .next t := by
  obtain ⟨f, -, hf⟩ := exec_byte hi
  rw [hf]
  split
  · exact ⟨_, rfl⟩
  · exact ⟨_, rfl⟩

/-- Under a configuration of the hardware, and with `wp` a cell where a token is taken, a step answers a next state or
refuses a word of the hand-over that is no P token. -/
theorem step_next_or_noSuchWord {s : State} (hw : s.cfg.wf = true) (hwp : s.ready = true → s.wp < s.cfg.npix) :
    (∃ t, step s = .next t) ∨ (s.ready = true ∧ ∃ w ws e, s.pIn = w :: ws ∧ decodePT s.cfg.cntW w = .error e ∧
      step s = .refused (.noSuchWord e)) := by
  cases hrst : s.rst with
  | true => exact .inl ⟨_, step_reset hw hrst⟩
  | false =>
    cases hf : fetch s with
    | none => exact .inl ⟨_, step_idle hw hrst hf⟩
    | some p =>
      obtain ⟨w, u⟩ := p
      obtain ⟨hr, x, xs, hp, rfl, rfl⟩ | ⟨-, -, -, x, xs, -, rfl, rfl⟩ | ⟨hr, -, hb, x, xs, -, rfl, rfl⟩ |
        ⟨-, -, b, bs, -, rfl, rfl⟩ := fetch_cases hf
      · cases hd : decodePT s.cfg.cntW x with
        | error e => exact .inr ⟨hr, x, xs, e, hp, hd, step_noSuchWord hw hrst hf hd⟩
        | ok i =>
          rw [step_fetch hw hrst hf hd]
          refine .inl (exec_core_next ?_ hw)
          obtain ⟨v, c, rfl⟩ | rfl | rfl := decodePT_cases hd <;> rfl
      · rw [step_fetch hw hrst hf rfl]
        exact .inl (exec_core_next (coreToken_decodeGT x) hw)
      · rw [step_fetch hw hrst hf rfl]
        exact .inl (exec_decodeST_next x hw hb (hwp hr))
      · rw [step_fetch hw hrst hf rfl]
        exact .inl (exec_byte_next (blockToken_decodeCB b) _)

/-- Settles O55: the invariant holds what `step_next_or_noSuchWord` asks. -/
theorem invariantStepNeverStops : Obligations.InvariantStepNeverStops := by
  intro s h
  obtain ⟨t, ht⟩ | ⟨-, w, ws, e, hp, hd, hs⟩ := step_next_or_noSuchWord h.cfgOk fun _ => h.wp
  · rw [ht]
    exact ⟨nofun, nofun⟩
  · rw [hs]
    refine ⟨nofun, fun r hr => ⟨w, ws, e, hp, hd, ?_⟩⟩
    injection hr with hr
    exact hr.symm

/-- A stopped block takes no word and no micro-step: a step without reset changes the reference decoder at most. -/
theorem step_stopped {s t : State} (hs : s.st ≠ .run) (hrst : s.rst = false) (h : step s = .next t) :
    t = { s with dec := t.dec } := by
  have hr := State.not_ready_of_stopped hs
  obtain ⟨h1, -⟩ | ⟨-, h1, -⟩ | ⟨-, h1, -⟩ | ⟨-, h1, -⟩ | ⟨-, -, d, rfl⟩ | ⟨-, h1, -⟩ := step_outcomes h
  · rw [hrst] at h1; cases h1
  · rw [hr] at h1; cases h1
  · rw [hr] at h1; cases h1
  · rw [hr] at h1; cases h1
  · rfl
  · exact absurd h1 hs

/-- Settles O10: a stopped block is not ready, so its tokens are not taken and a step finds only the decoder's byte. -/
theorem stoppedBlockTakesNothing : Obligations.StoppedBlockTakesNothing := by
  intro s hs
  have hr := State.not_ready_of_stopped hs
  refine ⟨fun i t hi h => ?_, fun hw hrst => ?_⟩
  · obtain ⟨-, ⟨-, h⟩ | ⟨h, -⟩⟩ := exec_block_cases hi h
    · exact h
    · rw [hr] at h; cases h
  · obtain ⟨t, ht⟩ | ⟨h, -⟩ := step_next_or_noSuchWord hw (by simp [hr])
    · exact ⟨t, ht, step_stopped hs hrst ht⟩
    · rw [hr] at h; cases h

/-! ### What the scan and the tokens keep -/

/-- `FIN` sends `EOS` between frames; in mid-frame it raises what the reserved G token raises. -/
theorem endSamples_eq_sendG (s : State) : endSamples s = sendG (if s.wp = 0 then .eos else .reserved) s := by
  split
  · rw [endSamples_between ‹_›]; rfl
  · rw [endSamples_inside ‹_›]; rfl

/-- A property that the scan counters do not matter to and every glyph sent keeps is kept by the packer's loops. -/
theorem scanCells_keeps {P : State → Prop} (hpos : ∀ u y x, P u → P (u.setScan y x))
    (hsend : ∀ v u, P u → P (sendG (.g v) u).state) :
    ∀ (cells : List (Nat × Nat)) (s : State), P s → P (scanCells cells s).state
  | [], _, h => h
  | (y, x) :: rest, s, h => by
    have hsent := hsend (s.glyphAt y x) (s.setScan y x) (hpos s y x h)
    rw [scanCells]
    cases hf : sendG (.g (s.glyphAt y x)) (s.setScan y x) with
    | raised u => rw [hf] at hsent; exact hsent
    | goes u => rw [hf] at hsent; exact scanCells_keeps hpos hsend rest u hsent

/-- `SCAN()` keeps such a property if `EOF` does too. -/
theorem scan_keeps {P : State → Prop} (hpos : ∀ u y x, P u → P (u.setScan y x))
    (hsend : ∀ g u, g ≠ .eos → P u → P (sendG g u).state) {s : State} (h : P s) : P (scan s).state := by
  have hcells := scanCells_keeps hpos (fun v u => hsend (.g v) u nofun) (gridCells s.cfg) s h
  unfold scan
  cases hf : scanCells (gridCells s.cfg) s with
  | raised u => rw [hf] at hcells; exact hcells
  | goes u => rw [hf] at hcells; exact hsend .eof u nofun hcells

/-- A sample keeps such a property if its store does. -/
theorem loadSample_keeps {P : State → Prop} (hpos : ∀ u y x, P u → P (u.setScan y x))
    (hsend : ∀ g u, g ≠ .eos → P u → P (sendG g u).state) {d : Byte} {s : State}
    (h : ∀ p n, P ((s.writeCell s.wp p).setWp n)) : P (loadSample d s).state := by
  by_cases hlast : s.wp = s.cfg.npix - 1
  · rw [loadSample_last hlast]; exact scan_keeps hpos hsend (h _ 0)
  · rw [loadSample_within hlast]; exact h _ _

/-- What every token of the block keeps: a property that a store, the scan counters, a G token and a P token keep. -/
theorem exec_block_keeps {P : State → Prop} (hpos : ∀ u y x, P u → P (u.setScan y x))
    (hstore : ∀ u a p n, P u → P ((u.writeCell a p).setWp n)) (hG : ∀ g u, P u → P (sendG g u).state)
    (hP : ∀ p u, P u → P (sendP p u).state) {i : Instr} {s t : State} (hi : blockToken i = true)
    (h : exec i s = .next t) (hs : P s) : P t := by
  obtain ⟨-, ⟨-, rfl⟩ | ⟨-, ⟨d, -, -, -, rfl⟩ | ⟨-, -, rfl⟩ | ⟨g, rfl, -⟩ | ⟨p, rfl, -⟩⟩⟩ := exec_block_cases hi h
  · exact hs
  · exact loadSample_keeps hpos (fun g u _ => hG g u) fun p n => hstore s s.wp p n hs
  · rw [endSamples_eq_sendG]; exact hG _ s hs
  · exact hG g s hs
  · exact hP p s hs

/-! ### The output and the tokens consumed only grow -/

theorem sendG_out (g : GToken) (s : State) : s.out <+: (sendG g s).state.out := by
  obtain ⟨f, -, h⟩ | ⟨r, v, m, l, bs, x, h, -⟩ := sendG_cases g s <;> rw [h]
  · rfl
  · exact ⟨_, rfl⟩

theorem sendP_out (p : PToken) (s : State) : s.out <+: (sendP p s).state.out := by
  cases p with
  | pair v c =>
    rw [sendP]
    cases hg : isGlyph v with
    | true => rw [cePair_glyph hg]; exact ⟨_, rfl⟩
    | false => rw [cePair_not_glyph hg]; rfl
  | meof | meos => exact ⟨_, rfl⟩

/-- Every instruction leaves an output that continues the one before it. -/
theorem exec_out {i : Instr} {s t : State} (h : exec i s = .next t) : s.out <+: t.out := by
  cases hi : blockToken i with
  | true =>
    exact exec_block_keeps (P := fun u => s.out <+: u.out) (fun _ _ _ hu => hu) (fun _ _ _ _ hu => hu)
      (fun g u hu => hu.trans (sendG_out g u)) (fun p u hu => hu.trans (sendP_out p u)) hi h (by rfl)
  | false =>
    obtain ⟨f, -, hf⟩ := exec_byte hi
    rw [hf] at h
    split at h <;> cases h <;> rfl

/-- A micro-step emits a byte or changes nothing, and consumes no token. -/
theorem microStep_histories (s : State) : s.consumed <+: (microStep s).consumed ∧ s.out <+: (microStep s).out := by
  unfold microStep startChunk continueChunk
  split_ifs <;> simp

/-- A step without reset continues both histories. -/
theorem step_histories {s t : State} (hrst : s.rst = false) (h : step s = .next t) :
    s.consumed <+: t.consumed ∧ s.out <+: t.out := by
  obtain ⟨h1, -⟩ | ⟨-, -, x, xs, i, -, hd, he⟩ | ⟨-, -, -, -, x, xs, -, he⟩ | ⟨-, -, -, -, x, xs, -, he⟩ | ⟨-, -, d, rfl⟩ |
    ⟨-, -, -, rfl⟩ := step_outcomes h
  · rw [hrst] at h1; cases h1
  · obtain ⟨-, -, -, -, -, -, -, hc⟩ := exec_block_frame (blockToken_decodePT hd) he
    have hout := exec_out he
    exact ⟨by rw [hc], hout⟩
  · obtain ⟨-, -, -, -, -, -, -, hc⟩ := exec_block_frame (blockToken_decodeGT x) he
    have hout := exec_out he
    exact ⟨hc ▸ ⟨_, rfl⟩, hout⟩
  · obtain ⟨-, -, -, -, -, -, -, hc⟩ := exec_block_frame (blockToken_decodeST x) he
    have hout := exec_out he
    exact ⟨hc ▸ ⟨_, rfl⟩, hout⟩
  · exact ⟨by rfl, by rfl⟩
  · exact microStep_histories s

/-- Settles O57: no token of the block takes a byte back, and only the port's own word is added to the history. -/
theorem outputOnlyGrows : Obligations.OutputOnlyGrows := by
  refine ⟨fun i s t h => ?_, fun s t hrst h => ?_⟩
  · obtain ⟨bs, hbs⟩ := exec_out h
    exact ⟨bs, hbs.symm⟩
  · obtain ⟨⟨is, his⟩, bs, hbs⟩ := step_histories hrst h
    exact ⟨is, bs, by simp only [State.observe, his, hbs]⟩

/-! ### The frames of the tokens -/

/-- G tokens keep an idle compact encoder idle. -/
theorem sendG_idle (g : GToken) {s : State} (h : s.crem = 0 ∧ s.clit = 0) :
    (sendG g s).state.crem = 0 ∧ (sendG g s).state.clit = 0 := by
  obtain ⟨f, -, hf⟩ | ⟨r, v, m, l, bs, x, hf, hml, -⟩ := sendG_cases g s <;> rw [hf]
  · exact h
  · obtain ⟨rfl, rfl⟩ | hml := hml
    · exact h
    · exact hml

/-- P tokens keep an idle compact encoder idle. -/
theorem sendP_idle (p : PToken) {s : State} (h : s.crem = 0 ∧ s.clit = 0) :
    (sendP p s).state.crem = 0 ∧ (sendP p s).state.clit = 0 := by
  cases p with
  | pair v c =>
    rw [sendP]
    cases hg : isGlyph v with
    | true => rw [cePair_glyph hg]; exact ⟨rfl, rfl⟩
    | false => rw [cePair_not_glyph hg]; exact h
  | meof | meos => exact h

/-- Every token of the block leaves `crem` and `clit` as it found them: it is taken where both are 0 (rule R38 (a)). -/
theorem exec_block_ce {i : Instr} {s t : State} (hi : blockToken i = true) (h : exec i s = .next t) :
    t.crem = s.crem ∧ t.clit = s.clit := by
  obtain ⟨-, ⟨-, rfl⟩ | ⟨hr, -⟩⟩ := exec_block_cases hi h
  · exact ⟨rfl, rfl⟩
  · obtain ⟨-, -, hcrem, hclit⟩ := State.ready_iff.1 hr
    rw [hcrem, hclit]
    exact exec_block_keeps (P := fun u => u.crem = 0 ∧ u.clit = 0) (fun _ _ _ hu => hu) (fun _ _ _ _ hu => hu)
      (fun g _ => sendG_idle g) (fun p _ => sendP_idle p) hi h ⟨hcrem, hclit⟩

/-- A G token other than `EOS` leaves `st` or raises a fault. -/
theorem sendG_st {g : GToken} (hg : g ≠ .eos) (s : State) :
    (sendG g s).state.st = s.st ∨ (sendG g s).state.st = .fault := by
  obtain ⟨f, -, h⟩ | ⟨r, v, m, l, bs, x, h, -, hx, -⟩ := sendG_cases g s <;> rw [h]
  · exact .inr rfl
  · obtain rfl | ⟨he, -⟩ := hx
    · exact .inl rfl
    · exact absurd he hg

/-- A P token other than `MEOS` leaves `st` or raises a fault. -/
theorem sendP_st {p : PToken} (hp : p ≠ .meos) (s : State) :
    (sendP p s).state.st = s.st ∨ (sendP p s).state.st = .fault := by
  cases p with
  | pair v c =>
    rw [sendP]
    cases hg : isGlyph v with
    | true => rw [cePair_glyph hg]; exact .inl rfl
    | false => rw [cePair_not_glyph hg]; exact .inr rfl
  | meof => exact .inl rfl
  | meos => exact absurd rfl hp

/-- A sample leaves `st` or raises a fault. -/
theorem loadSample_st (d : Byte) (s : State) : (loadSample d s).state.st = s.st ∨ (loadSample d s).state.st = .fault := by
  refine loadSample_keeps (P := fun u => u.st = s.st ∨ u.st = .fault) (fun _ _ _ hu => hu) (fun g u hg hu => ?_)
    fun _ _ => .inl rfl
  obtain h | h := sendG_st hg u <;> rw [h]
  · exact hu
  · exact .inr rfl

/-- Only `FIN`, `EOS` and `MEOS` end the stream; any other token of the block leaves `st` or raises a fault. -/
theorem exec_block_st {i : Instr} {s t : State} (hi : blockToken i = true) (hend : i ∉ [Instr.fin, .eos, .meos])
    (h : exec i s = .next t) : t.st = s.st ∨ t.st = .fault := by
  obtain ⟨-, ⟨-, rfl⟩ | ⟨-, ⟨d, -, -, -, rfl⟩ | ⟨rfl, -⟩ | ⟨g, rfl, hg⟩ | ⟨p, rfl, hp⟩⟩⟩ := exec_block_cases hi h
  · exact .inl rfl
  · exact loadSample_st d s
  · simp at hend
  · refine sendG_st ?_ s
    rintro rfl
    have heos : i = .eos := by simpa using hg
    simp [heos] at hend
  · refine sendP_st ?_ s
    rintro rfl
    have hmeos : i = .meos := by simpa using hp
    simp [hmeos] at hend

/-- A fault code is written only together with the fault state. -/
theorem exec_block_fc {i : Instr} {s t : State} (hi : blockToken i = true) (h : exec i s = .next t)
    (hst : t.st ≠ .fault) : t.fc = s.fc := by
  obtain ⟨hf, -⟩ | ⟨hfc, -⟩ := exec_block_ends hi h
  · exact absurd hf hst
  · exact hfc

/-- `t` differs from `s` in `st`, `fc` and `out` at most. -/
def State.SameButEnd (s t : State) : Prop := t = { s with st := t.st, fc := t.fc, out := t.out }

theorem sendG_eos_sameButEnd (s : State) : s.SameButEnd (sendG .eos s).state := by
  rw [sendG]
  cases h : s.openRun with
  | none => rw [rleEos_ends h]; rfl
  | some r => rw [rleEos_open h]; rfl

/-- `FIN`, `EOS`, the reserved token, `MEOF` and `MEOS` write `st`, `fc` and `out` alone. -/
theorem exec_end_sameButEnd {i : Instr} {s t : State} (hi : i ∈ [Instr.fin, .eos, .grsv, .meof, .meos])
    (h : exec i s = .next t) : s.SameButEnd t := by
  have hblock : blockToken i = true := by fin_cases hi <;> rfl
  obtain ⟨-, ⟨-, rfl⟩ | ⟨-, ⟨d, rfl, -⟩ | ⟨-, -, rfl⟩ | ⟨g, rfl, hg⟩ | ⟨p, rfl, hp⟩⟩⟩ := exec_block_cases hblock h
  · rfl
  · simp at hi
  · rw [endSamples_eq_sendG]
    split
    · exact sendG_eos_sameButEnd s
    · rfl
  · obtain ⟨v, rfl, -⟩ | ⟨rfl, -⟩ | ⟨-, rfl⟩ | ⟨-, rfl⟩ := hg
    · simp at hi
    · simp at hi
    · exact sendG_eos_sameButEnd s
    · rfl
  · obtain ⟨v, c, rfl, -⟩ | ⟨-, rfl⟩ | ⟨-, rfl⟩ := hp
    · simp at hi
    · rfl
    · rfl

/-- No token of `CORE` touches the front end, the host's inputs, the configuration or the reference decoder. -/
theorem exec_core_frame {i : Instr} {s t : State} (hi : coreToken i = true) (h : exec i s = .next t) :
    s.SameFront t := by
  obtain ⟨-, ⟨-, rfl⟩ | ⟨-, ⟨d, rfl, -⟩ | ⟨rfl, -⟩ | ⟨g, rfl, -⟩ | ⟨p, rfl, -⟩⟩⟩ :=
    exec_block_cases (blockToken_of_coreToken hi) h
  · exact .refl _
  · cases hi
  · cases hi
  · exact sendG_frame g s
  · exact (sendP_frame p s).1

/-- `PAIR` leaves the run register, which belongs to the stage before it. -/
theorem exec_pair_openRun {v : Byte} {c : Nat} {s t : State} (h : exec (.pair v c) s = .next t) :
    t.openRun = s.openRun := by
  obtain ⟨-, ⟨-, rfl⟩ | ⟨-, h⟩⟩ := accept_cases h
  · rfl
  · cases h
    exact (sendP_frame (.pair v c) s).2

/-- Settles O58: the front is every core token's frame; the run state, the fault code and the encoder are the block's. -/
theorem coreTokensFrame : Obligations.CoreTokensFrame := by
  intro i s t hi h
  have hblock := blockToken_of_coreToken hi
  have fr := exec_core_frame hi h
  have hce := exec_block_ce hblock h
  refine ⟨fr.cfg, fr.rst, fr.wp, fr.sy, fr.sx, fr.sIn, fr.gIn, fr.pIn, fr.dec, fr.epoch, fr.consumed, fr.fb,
    fun a => congrFun (State.readCell_congr fr.fb fr.epoch) a, exec_block_fc hblock h, fun hend => ?_, ?_, fun _ => hce,
    fun hend => exec_block_st hblock ?_ h⟩
  · have hsame : s.SameButEnd t := exec_end_sameButEnd (List.mem_cons_of_mem _ hend) h
    rw [hsame]
    exact ⟨rfl, rfl, rfl, rfl⟩
  · rintro ⟨v, c, rfl⟩
    exact ⟨exec_pair_openRun h, hce⟩
  · rw [List.mem_cons, not_or]
    refine ⟨?_, hend⟩
    rintro rfl
    cases hi

/-- What the store of a sample leaves in the frame buffer, the scan after it included: only the cell `wp` written. -/
theorem loadSample_readCell (d : Byte) (s : State) :
    (loadSample d s).state.readCell = (s.writeCell s.wp (thr s.cfg.thresh d)).readCell := by
  by_cases hlast : s.wp = s.cfg.npix - 1
  · rw [loadSample_last hlast]
    have fr := scan_frame ((s.writeCell s.wp (thr s.cfg.thresh d)).setWp 0)
    exact State.readCell_congr fr.fb fr.epoch
  · rw [loadSample_within hlast]
    rfl

/-- `S d` writes the thresholded `d` to the cell `wp`, if it is taken, and no other cell. -/
theorem exec_s_readCell {d : Byte} {s t : State} (h : exec (.s d) s = .next t) :
    (∀ a, a ≠ s.wp → t.readCell a = s.readCell a) ∧ (s.ready = true → t.readCell s.wp = thr s.cfg.thresh d) := by
  obtain ⟨-, -, ⟨hr, rfl⟩ | ⟨-, -, rfl⟩⟩ := execS_cases h
  · exact ⟨fun _ _ => rfl, by simp [hr]⟩
  · rw [loadSample_readCell]
    exact ⟨fun a ha => State.readCell_writeCell_of_ne ha s _, fun _ => State.readCell_writeCell_self s _ _⟩

/-- Settles O59: the store of `S` is the one cell it reads back; `FIN` writes `st`, `fc` and `out` alone. -/
theorem sampleTokensFrame : Obligations.SampleTokensFrame := by
  refine ⟨fun d s t h => ?_, fun s t h => ?_⟩
  · obtain ⟨hother, hcell⟩ := exec_s_readCell h
    obtain ⟨hcfg, hrst, hsIn, hgIn, hpIn, hdec, hepoch, hconsumed⟩ := exec_block_frame (i := .s d) rfl h
    obtain ⟨hcrem, hclit⟩ := exec_block_ce (i := .s d) rfl h
    exact ⟨hother, hcell, hcfg, hrst, hsIn, hgIn, hpIn, hdec, hepoch, hconsumed, hcrem, hclit,
      exec_block_st (i := .s d) rfl (by simp) h, exec_block_fc (i := .s d) rfl h⟩
  · have hsame : s.SameButEnd t := exec_end_sameButEnd (by simp) h
    refine ⟨hsame, fun a => ?_, exec_block_fc (i := .fin) rfl h⟩
    rw [hsame]
    rfl

/-! ### The invariant of token boundaries -/

/-- R38 (b): an open run is of 1 to `CNT_MAX`. -/
def State.RunInRange (s : State) : Prop := ∀ r, s.openRun = some r → 1 ≤ r.rc ∧ r.rc ≤ s.cfg.cntMax

/-- The run register after a G token is in range: it opens a run of 1, and lengthens none that is full. -/
theorem RunMove.inRange {s : State} {r : Option OpenRun} (hm : RunMove s r) (hc : 1 ≤ s.cfg.cntMax) (hs : s.RunInRange) :
    ∀ q, r = some q → 1 ≤ q.rc ∧ q.rc ≤ s.cfg.cntMax := by
  obtain rfl | rfl | ⟨q, rfl, hq⟩ := hm
  · exact hs
  · exact nofun
  · rintro _ ⟨⟩
    obtain hq | ⟨p, hp, hmax, hq⟩ := hq
    · omega
    · have := hs p hp
      omega

theorem sendG_runInRange (g : GToken) {s : State} (h : 1 ≤ s.cfg.cntMax ∧ s.RunInRange) :
    1 ≤ (sendG g s).state.cfg.cntMax ∧ (sendG g s).state.RunInRange := by
  obtain ⟨f, -, hf⟩ | ⟨r, v, m, l, bs, x, hf, -, -, hm, -⟩ := sendG_cases g s <;> rw [hf]
  · exact h
  · exact ⟨h.1, hm.inRange h.1 h.2⟩

theorem sendP_runInRange (p : PToken) {s : State} (h : 1 ≤ s.cfg.cntMax ∧ s.RunInRange) :
    1 ≤ (sendP p s).state.cfg.cntMax ∧ (sendP p s).state.RunInRange := by
  obtain ⟨fr, hrun⟩ := sendP_frame p s
  simp only [State.RunInRange, fr.cfg, hrun]
  exact h

/-- Every token of the block keeps R38 (b). -/
theorem exec_block_runInRange {i : Instr} {s t : State} (hi : blockToken i = true) (h : exec i s = .next t)
    (hs : s.RunInRange) : t.RunInRange := by
  obtain ⟨hw, -⟩ := exec_block_cases hi h
  exact (exec_block_keeps (P := fun u => 1 ≤ u.cfg.cntMax ∧ u.RunInRange) (fun _ _ _ hu => hu) (fun _ _ _ _ hu => hu)
    (fun g _ => sendG_runInRange g) (fun p _ => sendP_runInRange p) hi h ⟨(config_ranges_pos hw).1, hs⟩).2

/-- `EOF` closes the run register or raises a fault. -/
theorem sendG_eof_closes (s : State) : (sendG .eof s).state.st = .fault ∨ (sendG .eof s).state.openRun = none := by
  obtain ⟨f, -, h⟩ | ⟨r, v, m, l, bs, x, h, -, -, -, hr, -⟩ := sendG_cases .eof s <;> rw [h]
  · exact .inl rfl
  · exact .inr (hr rfl)

/-- So does `SCAN()`, which ends with `EOF`. -/
theorem scan_closes (s : State) : (scan s).state.st = .fault ∨ (scan s).state.openRun = none := by
  have hends := scanCells_ends (gridCells s.cfg) s
  unfold scan
  cases hf : scanCells (gridCells s.cfg) s with
  | raised u => rw [hf] at hends; exact .inl hends.1
  | goes u => exact sendG_eof_closes u

/-- A token other than `G` opens no run (R38 (e), first half). -/
theorem exec_block_closed {i : Instr} {s t : State} (hi : blockToken i = true) (hg : ∀ v, i ≠ .g v)
    (h : exec i s = .next t) (hs : s.openRun = none) : t.st = .fault ∨ t.openRun = none := by
  by_cases hend : i ∈ [Instr.fin, .eos, .grsv, .meof, .meos]
  · have hsame : s.SameButEnd t := exec_end_sameButEnd hend h
    rw [hsame]
    exact .inr hs
  · obtain ⟨-, ⟨-, rfl⟩ | ⟨-, ⟨d, -, -, -, rfl⟩ | ⟨rfl, -⟩ | ⟨g, rfl, hg'⟩ | ⟨p, rfl, -⟩⟩⟩ := exec_block_cases hi h
    · exact .inr hs
    · by_cases hlast : s.wp = s.cfg.npix - 1
      · rw [loadSample_last hlast]; exact scan_closes _
      · rw [loadSample_within hlast]; exact .inr hs
    · simp at hend
    · obtain ⟨v, rfl, -⟩ | ⟨-, rfl⟩ | ⟨rfl, -⟩ | ⟨rfl, -⟩ := hg'
      · exact absurd rfl (hg v)
      · exact sendG_eof_closes s
      · simp at hend
      · simp at hend
    · exact .inr ((sendP_frame p s).2.trans hs)

/-- The front end's half of the invariant: R38 (c), R38 (e) second half, the frame buffer, and the ranges of R20. -/
structure State.FrontInv (s : State) : Prop where
  wp : s.wp < s.cfg.npix
  written : ∀ a, a < s.wp → (Memory.get? s.fb a).isSome = true
  mem : Memory.wf s.cfg.npix s.fb = true
  sy : s.sy < s.cfg.gh
  sx : s.sx < s.cfg.gw

/-- What a scan of the grid leaves meets it: the scan counters stay in the grid. -/
theorem State.FrontInv.scanned {s t : State} (h : s.FrontInv) (fr : s.ScanFrame (gridCells s.cfg) t) : t.FrontInv := by
  have hpos : t.sy < s.cfg.gh ∧ t.sx < s.cfg.gw := by
    obtain hp | hp := fr.pos
    · rw [Prod.mk.injEq] at hp
      rw [hp.1, hp.2]
      exact ⟨h.sy, h.sx⟩
    · exact mem_gridCells.1 hp
  constructor
  · rw [fr.wp, fr.cfg]; exact h.wp
  · rw [fr.wp, fr.fb]; exact h.written
  · rw [fr.cfg, fr.fb]; exact h.mem
  · rw [fr.cfg]; exact hpos.1
  · rw [fr.cfg]; exact hpos.2

/-- What a token of `CORE` leaves untouched is what a scan does, the counters too. -/
theorem State.SameFront.scanFrame {s t : State} (fr : s.SameFront t) (cells : List (Nat × Nat)) : s.ScanFrame cells t :=
  ⟨fr.cfg, fr.rst, fr.wp, fr.fb, fr.sIn, fr.gIn, fr.pIn, fr.dec, fr.epoch, fr.consumed, .inl (by rw [fr.sy, fr.sx])⟩

/-- A store to the cell `wp` meets it, with `wp` then moved by at most one within the frame buffer. -/
theorem State.FrontInv.store {s : State} (h : s.FrontInv) (p : Bool) {n : Nat} (hn : n < s.cfg.npix) (hle : n ≤ s.wp + 1) :
    ((s.writeCell s.wp p).setWp n).FrontInv where
  wp := hn
  written a (ha : a < n) := by
    simp only [State.setWp_fb, State.writeCell_fb]
    by_cases heq : a = s.wp
    · rw [heq, Memory.get?_set_self]; rfl
    · rw [Memory.get?_set_of_ne heq]; exact h.written a (by omega)
  mem := Memory.wf_set h.mem h.wp (pixelByte_lt p)
  sy := h.sy
  sx := h.sx

theorem loadSample_frontInv (d : Byte) {s : State} (h : s.FrontInv) : (loadSample d s).state.FrontInv := by
  have hwp := h.wp
  by_cases hlast : s.wp = s.cfg.npix - 1
  · rw [loadSample_last hlast]
    exact (h.store _ (n := 0) (by omega) (by omega)).scanned (scan_frame _)
  · rw [loadSample_within hlast]
    exact h.store _ (by omega) (by omega)

/-- Every token of the block keeps the front end's half. -/
theorem exec_block_frontInv {i : Instr} {s t : State} (hi : blockToken i = true) (h : exec i s = .next t)
    (hs : s.FrontInv) : t.FrontInv := by
  obtain ⟨-, ⟨-, rfl⟩ | ⟨-, ⟨d, -, -, -, rfl⟩ | ⟨-, -, rfl⟩ | ⟨g, rfl, -⟩ | ⟨p, rfl, -⟩⟩⟩ := exec_block_cases hi h
  · exact hs
  · exact loadSample_frontInv d hs
  · rw [endSamples_eq_sendG]; exact hs.scanned ((sendG_frame _ s).scanFrame _)
  · exact hs.scanned ((sendG_frame g s).scanFrame _)
  · exact hs.scanned ((sendP_frame p s).1.scanFrame _)

/-- R38 (d) after a token: a fault is recorded in both registers or in neither. -/
theorem exec_block_fault_iff {i : Instr} {s t : State} (hi : blockToken i = true) (h : exec i s = .next t)
    (hs : s.fc = .none ↔ s.st ≠ .fault) : t.fc = .none ↔ t.st ≠ .fault := by
  obtain ⟨-, ⟨-, rfl⟩ | ⟨hr, -⟩⟩ := exec_block_cases hi h
  · exact hs
  · obtain ⟨-, hrun, -⟩ := State.ready_iff.1 hr
    have hnone : s.fc = .none := hs.2 (by rw [hrun]; nofun)
    obtain ⟨hst, hfc⟩ | ⟨hfc, hst⟩ := exec_block_ends hi h
    · simp [hst, hfc]
    · obtain hst | hst := hst <;> simp [hst, hfc, hnone, hrun]

/-- Every token keeps the invariant, but for `G` on a `PIPE`, which only its own packer sends. -/
theorem exec_block_inv {i : Instr} {s t : State} (hi : blockToken i = true) (hg : s.cfg.block = .pipe → ∀ v, i ≠ .g v)
    (hs : s.Inv) (h : exec i s = .next t) : t.Inv := by
  obtain ⟨hcfg, -⟩ := exec_block_frame hi h
  obtain ⟨hcrem, hclit⟩ := exec_block_ce hi h
  have hfront := exec_block_frontInv hi h ⟨hs.wp, hs.written, hs.mem, hs.sy, hs.sx⟩
  refine ⟨hcfg ▸ hs.cfgOk, hcrem.trans hs.crem, hclit.trans hs.clit, exec_block_runInRange hi h hs.run, hfront.wp,
    exec_block_fault_iff hi h hs.fault, fun hpipe hrun => ?_, hfront.written, hfront.mem, hfront.sy, hfront.sx⟩
  rw [hcfg] at hpipe
  obtain ⟨-, ⟨-, rfl⟩ | ⟨hr, -⟩⟩ := exec_block_cases hi h
  · exact hs.closed hpipe hrun
  · obtain hf | hnone := exec_block_closed hi (hg hpipe) h (hs.closed hpipe (State.ready_iff.1 hr).2.1)
    · rw [hrun] at hf; cases hf
    · exact hnone

/-- The invariant does not speak of the host's inputs, the reference decoder, the history of tokens or the count of
resets. -/
theorem State.Inv.withInputs {s : State} (h : s.Inv) {rst : Bool} {sIn : List (BitVec 9)} {gIn : List (BitVec 10)}
    {pIn : List Nat} {dec : RefDecoder} {consumed : List Instr} {epoch : Nat} :
    State.Inv { s with rst := rst, sIn := sIn, gIn := gIn, pIn := pIn, dec := dec, consumed := consumed, epoch := epoch } :=
  ⟨h.cfgOk, h.crem, h.clit, h.run, h.wp, h.fault, h.closed, h.written, h.mem, h.sy, h.sx⟩

/-- Settles O53: case by case of what a step can do; a micro-step cannot be, since the encoder is idle. -/
theorem stepKeepsInvariant : Obligations.StepKeepsInvariant := by
  intro s t hs h
  obtain ⟨-, rfl⟩ | ⟨-, -, x, xs, i, -, hd, he⟩ | ⟨-, -, -, hb, x, xs, -, he⟩ | ⟨-, -, -, -, x, xs, -, he⟩ |
    ⟨-, -, d, rfl⟩ | ⟨-, -, hbusy, -⟩ := step_outcomes h
  · exact (resetWith_inv hs.cfgOk).withInputs
  · refine exec_block_inv (blockToken_decodePT hd) (fun _ v => ?_) hs.withInputs he
    obtain ⟨_, _, rfl⟩ | rfl | rfl := decodePT_cases hd <;> nofun
  · refine exec_block_inv (blockToken_decodeGT x) (fun hpipe => ?_) hs.withInputs he
    rw [hb] at hpipe; cases hpipe
  · refine exec_block_inv (blockToken_decodeST x) (fun _ v => ?_) hs.withInputs he
    obtain ⟨_, hx⟩ | hx := decodeST_cases x <;> rw [hx] <;> nofun
  · exact hs.withInputs
  · simp [State.ceIdle, hs.crem, hs.clit] at hbusy

end Sys2Proof.Machine

/-! ## Proofs: the words offered, the packer's addresses, and the frame buffer (O13, O15, O16, O17) -/

namespace Sys2Proof.Machine

/-! ### The handshake of the ports -/

/-- The block's port moves a word at this step: its `valid` and `ready` are both 1 (rule R193). -/
def State.PortHandshake (s : State) : Prop :=
  (s.gReady = true ∧ s.gValid = true) ∨ (s.sReady = true ∧ s.sValid = true)

theorem State.gReady_iff {s : State} : s.gReady = true ↔ s.cfg.block = .core ∧ s.ready = true ∧ s.pIn = [] := by
  simp [State.gReady, State.portReady_iff]

theorem State.sReady_iff {s : State} : s.sReady = true ↔ s.cfg.block = .pipe ∧ s.ready = true ∧ s.pIn = [] := by
  simp [State.sReady, State.portReady_iff]

/-- A word moves on a port only where the block is ready and serves no word of the hand-over. -/
theorem State.PortHandshake.ready {s : State} (h : s.PortHandshake) : s.ready = true ∧ s.pIn = [] := by
  obtain ⟨hg, -⟩ | ⟨hs, -⟩ := h
  · exact (State.gReady_iff.1 hg).2
  · exact (State.sReady_iff.1 hs).2

/-- Where a word moves on a port the block has a word to take. -/
theorem State.PortHandshake.fetchBlock_ne_none {s : State} (h : s.PortHandshake) : fetchBlock s ≠ none := by
  obtain ⟨hready, hp⟩ := h.ready
  obtain ⟨hr, hv⟩ | ⟨hr, hv⟩ := h
  · obtain ⟨w, ws, hg⟩ := List.exists_cons_of_ne_nil (l := s.gIn) (by simpa [State.gValid] using hv)
    simp [fetchBlock, fetchPort, hready, hp, (State.gReady_iff.1 hr).1, hg]
  · obtain ⟨w, ws, hs⟩ := List.exists_cons_of_ne_nil (l := s.sIn) (by simpa [State.sValid] using hv)
    simp [fetchBlock, fetchPort, hready, hp, (State.sReady_iff.1 hr).1, hs]

/-- A micro-step leaves the words offered and the history of tokens. -/
theorem microStep_inputs (s : State) :
    (microStep s).gIn = s.gIn ∧ (microStep s).sIn = s.sIn ∧ (microStep s).consumed = s.consumed := by
  unfold microStep startChunk continueChunk
  split_ifs <;> exact ⟨rfl, rfl, rfl⟩

/-- What a step does to the ports and the history: no handshake, and all words stay; or the first word of the port with
the handshake is gone and its token is in the history. -/
theorem step_ports {s t : State} (h : step s = .next t) :
    (¬ s.PortHandshake ∧ t.gIn = s.gIn ∧ t.sIn = s.sIn ∧ (s.rst = false → t.consumed = s.consumed)) ∨
    (s.gReady = true ∧ ∃ w, s.gIn = w :: t.gIn ∧ t.sIn = s.sIn ∧ t.consumed = s.consumed ++ [decodeGT w]) ∨
    (s.sReady = true ∧ ∃ w, s.sIn = w :: t.sIn ∧ t.gIn = s.gIn ∧ t.consumed = s.consumed ++ [decodeST w]) := by
  obtain ⟨hrst, rfl⟩ | ⟨-, -, x, xs, i, hp, hd, he⟩ | ⟨-, hr, hp, hb, x, xs, hg, he⟩ | ⟨-, hr, hp, hb, x, xs, hs, he⟩ |
    ⟨-, hf, d, rfl⟩ | ⟨-, -, hbusy, rfl⟩ := step_outcomes h
  · refine .inl ⟨fun hh => ?_, rfl, rfl, by simp [hrst]⟩
    exact absurd (rst_of_ready hh.ready.1) (by simp [hrst])
  · obtain ⟨-, -, hsIn, hgIn, -, -, -, hc⟩ := exec_block_frame (blockToken_decodePT hd) he
    refine .inl ⟨fun hh => ?_, hgIn, hsIn, fun _ => hc⟩
    rw [hh.ready.2] at hp; cases hp
  · obtain ⟨-, -, hsIn, hgIn, -, -, -, hc⟩ := exec_block_frame (blockToken_decodeGT x) he
    exact .inr (.inl ⟨State.gReady_iff.2 ⟨hb, hr, hp⟩, x, by rw [hg, hgIn], hsIn, hc⟩)
  · obtain ⟨-, -, hsIn, hgIn, -, -, -, hc⟩ := exec_block_frame (blockToken_decodeST x) he
    exact .inr (.inr ⟨State.sReady_iff.2 ⟨hb, hr, hp⟩, x, by rw [hs, hsIn], hgIn, hc⟩)
  · exact .inl ⟨fun hh => hh.fetchBlock_ne_none hf, rfl, rfl, fun _ => rfl⟩
  · obtain ⟨hgIn, hsIn, hc⟩ := microStep_inputs s
    refine .inl ⟨fun hh => ?_, hgIn, hsIn, fun _ => hc⟩
    obtain ⟨-, -, hcrem, hclit⟩ := State.ready_iff.1 hh.ready.1
    simp [State.ceIdle, hcrem, hclit] at hbusy

/-- Only one of the two ports is the block's (rule R192). -/
theorem State.not_gReady_and_sReady (s : State) : ¬ (s.gReady = true ∧ s.sReady = true) := by
  rintro ⟨hg, hs⟩
  have hcore := (State.gReady_iff.1 hg).1
  rw [(State.sReady_iff.1 hs).1] at hcore
  cases hcore

/-- No port is ready while a word stands on the hand-over (assumption 10). -/
theorem State.not_ready_of_handOver {s : State} (hp : s.pIn ≠ []) : s.gReady = false ∧ s.sReady = false := by
  simp only [← Bool.not_eq_true, State.gReady_iff, State.sReady_iff]
  exact ⟨fun h => hp h.2.2, fun h => hp h.2.2⟩

/-- Settles O13: the three cases of `step_ports`. -/
theorem tokensAreTakenOnceInOrder : Obligations.TokensAreTakenOnceInOrder := by
  intro s t h
  obtain ⟨hno, hgIn, hsIn, hc⟩ | ⟨hr, w, hgIn, hsIn, hc⟩ | ⟨hr, w, hsIn, hgIn, hc⟩ := step_ports h
  · exact ⟨.inl hgIn, .inl hsIn, fun hr hv => absurd (.inl ⟨hr, hv⟩) hno,
      fun hr hv => absurd (.inr ⟨hr, hv⟩) hno,
      State.not_ready_of_handOver, fun h0 => .inl ⟨hgIn, hsIn, hc h0⟩⟩
  · exact ⟨.inr ⟨hr, w, hgIn⟩, .inl hsIn, fun _ _ => by rw [hgIn]; rfl,
      fun hs _ => (s.not_gReady_and_sReady ⟨hr, hs⟩).elim,
      State.not_ready_of_handOver, fun _ => .inr (.inl ⟨w, hgIn, hsIn, hc⟩)⟩
  · exact ⟨.inl hgIn, .inr ⟨hr, w, hsIn⟩, fun hg _ => (s.not_gReady_and_sReady ⟨hg, hr⟩).elim,
      fun _ _ => by rw [hsIn]; rfl,
      State.not_ready_of_handOver, fun _ => .inr (.inr ⟨w, hsIn, hgIn, hc⟩)⟩

/-! ### The packer's addresses -/

/-- The cell of a pixel of the frame is a cell of the frame buffer (rule R51). -/
theorem cellAddr_lt {cfg : Config} {r c : Nat} (hr : r < cfg.h) (hc : c < cfg.w) : cellAddr cfg r c < cfg.npix :=
  calc r * cfg.w + c < r * cfg.w + cfg.w := by omega
    _ = (r + 1) * cfg.w := (Nat.succ_mul r cfg.w).symm
    _ ≤ cfg.h * cfg.w := Nat.mul_le_mul_right _ hr
    _ = cfg.npix := Nat.mul_comm _ _

/-- A cell is the pixel at the quotient and the remainder of its address by the width. -/
theorem cellAddr_eq_iff {cfg : Config} {r c a : Nat} (hc : c < cfg.w) :
    cellAddr cfg r c = a ↔ a / cfg.w = r ∧ a % cfg.w = c := by
  rw [Nat.div_mod_unique (by omega), cellAddr, Nat.mul_comm, Nat.add_comm]
  simp [hc]

/-- The packer reads cells of the frame buffer alone (rule R52). -/
theorem blockAddr_lt {cfg : Config} {y x r c : Nat} (hy : y < cfg.gh) (hx : x < cfg.gw) (hr : r < 3) (hc : c < 2) :
    blockAddr cfg y x r c < cfg.npix := by
  unfold Config.gh at hy
  unfold Config.gw at hx
  exact cellAddr_lt (by omega) (by omega)

/-- The grid cell and the lane that read a given cell are the quotients and remainders of its row and column. -/
theorem blockAddr_eq_iff {cfg : Config} {y x r c a : Nat} (hx : x < cfg.gw) (hr : r < 3) (hc : c < 2) :
    blockAddr cfg y x r c = a ↔
      y = a / cfg.w / 3 ∧ x = a % cfg.w / 2 ∧ r = a / cfg.w % 3 ∧ c = a % cfg.w % 2 := by
  unfold Config.gw at hx
  rw [blockAddr, cellAddr_eq_iff (by omega)]
  omega

/-- Settles O16: `blockAddr_eq_iff` gives the one block and lane of each cell. -/
theorem packerBlocksTileFrame : Obligations.PackerBlocksTileFrame := by
  intro cfg hw
  refine ⟨fun _ _ _ _ => rfl, fun _ _ _ _ => blockAddr_lt, fun a ha => ?_⟩
  obtain ⟨hw2, hwEven, -, hh3, -⟩ := (config_wf_iff cfg).1 hw
  have hrow : a / cfg.w < cfg.h := Nat.div_lt_of_lt_mul ha
  have hcol : a % cfg.w < cfg.w := Nat.mod_lt a (by omega)
  have hy : a / cfg.w / 3 < cfg.gh := by unfold Config.gh; omega
  have hx : a % cfg.w / 2 < cfg.gw := by unfold Config.gw; omega
  have hr : a / cfg.w % 3 < 3 := Nat.mod_lt _ (by decide)
  have hc : a % cfg.w % 2 < 2 := Nat.mod_lt _ (by decide)
  exact ⟨_, _, _, _, ⟨hy, hx, hr, hc, (blockAddr_eq_iff hx hr hc).2 ⟨rfl, rfl, rfl, rfl⟩⟩,
    fun _ _ _ _ _ hx' hr' hc' => (blockAddr_eq_iff hx' hr' hc').1⟩

/-- The glyph of a grid cell depends on the pixels of the frame alone. -/
theorem glyph_congr {cfg : Config} {px px' : Nat → Bool} (h : ∀ a, a < cfg.npix → px' a = px a) {y x : Nat}
    (hy : y < cfg.gh) (hx : x < cfg.gw) : glyph cfg px' y x = glyph cfg px y x := by
  have hlane : ∀ r c, r < 3 → c < 2 → px' (blockAddr cfg y x r c) = px (blockAddr cfg y x r c) :=
    fun r c hr hc => h _ (blockAddr_lt hy hx hr hc)
  simp only [glyph, hlane, Nat.reduceLT]

/-! ### The frame buffer -/

/-- A store to the first cell not yet written extends the written cells by one. -/
theorem State.written_writeCell {s : State} (h : ∀ a, a < s.wp → (Memory.get? s.fb a).isSome = true) (p : Bool) {a : Nat}
    (ha : a < s.wp + 1) : (Memory.get? (s.writeCell s.wp p).fb a).isSome = true := by
  rw [State.writeCell_fb]
  by_cases heq : a = s.wp
  · rw [heq, Memory.get?_set_self]; rfl
  · rw [Memory.get?_set_of_ne heq]; exact h a (by omega)

/-- Settles O15: the read-after-write laws, and R38 (e) with one more cell stored. -/
theorem frameBufferReadAfterWrite : Obligations.FrameBufferReadAfterWrite := fun s a p =>
  ⟨State.readCell_writeCell_self s a p, fun _ h => State.readCell_writeCell_of_ne h s p,
    fun hs hlast _ ha => State.written_writeCell hs.written p (hlast ▸ ha)⟩

/-- `t` is `s` but for the frame-buffer cells from `n` on, and the count of resets. -/
structure State.AgreesBelow (n : Nat) (s t : State) : Prop where
  rest : t = { s with fb := t.fb, epoch := t.epoch }
  read : ∀ a, a < n → t.readCell a = s.readCell a

theorem State.AgreesBelow.mono {m n : Nat} {s t : State} (h : s.AgreesBelow n t) (hle : m ≤ n) : s.AgreesBelow m t :=
  ⟨h.rest, fun a ha => h.read a (by omega)⟩

/-- The same store to cell `n` of both makes them agree in one cell more. -/
theorem State.AgreesBelow.store {n : Nat} {s t : State} (h : s.AgreesBelow n t) (p : Bool) (wp : Nat) :
    ((s.writeCell n p).setWp wp).AgreesBelow (n + 1) ((t.writeCell n p).setWp wp) where
  rest := by rw [h.rest]; rfl
  read a ha := by
    change (t.writeCell n p).readCell a = (s.writeCell n p).readCell a
    by_cases heq : a = n
    · rw [heq, State.readCell_writeCell_self, State.readCell_writeCell_self]
    · rw [State.readCell_writeCell_of_ne heq, State.readCell_writeCell_of_ne heq]
      exact h.read a (by omega)

/-- The packer's scan of two states that agree in the whole frame: it reads no more of them than the frame. -/
theorem State.AgreesBelow.scanned {s t : State} (h : s.AgreesBelow s.cfg.npix t) :
    (scan s).state.AgreesBelow s.cfg.npix (scan t).state := by
  have hhost : t = s.withHost s.sIn s.gIn s.dec s.consumed t.fb t.epoch := h.rest
  have hcfg : t.cfg = s.cfg := by rw [h.rest]
  have hscan : scan t = (scan s).map (·.withHost s.sIn s.gIn s.dec s.consumed t.fb t.epoch) := by
    conv_lhs => rw [hhost]
    refine scan_withHost _ _ _ _ _ _ s fun y x hy hx => ?_
    rw [← hhost]
    unfold State.glyphAt
    rw [hcfg]
    exact glyph_congr h.read hy hx
  have frs := scan_frame s
  have frt := scan_frame t
  constructor
  · rw [frt.fb, frt.epoch, hscan, Flow.state_map, State.withHost, ← frs.sIn, ← frs.gIn, ← frs.dec, ← frs.consumed]
  · rw [State.readCell_congr frs.fb frs.epoch, State.readCell_congr frt.fb frt.epoch]
    exact h.read

/-- The same sample loaded in two states that agree in the cells of the frame so far. -/
theorem State.AgreesBelow.sampleLoaded {s t : State} (h : s.AgreesBelow s.wp t) (d : Byte) :
    (loadSample d s).state.AgreesBelow (loadSample d s).state.wp (loadSample d t).state := by
  have hcfg : t.cfg = s.cfg := by rw [h.rest]
  have hwpEq : t.wp = s.wp := by rw [h.rest]
  by_cases hlast : s.wp = s.cfg.npix - 1
  · rw [loadSample_last hlast, loadSample_last (by rw [hcfg, hwpEq, hlast]), hcfg, hwpEq, (scan_frame _).wp]
    have hstored := (h.store (thr s.cfg.thresh d) 0).mono (m := s.cfg.npix) (by omega)
    exact hstored.scanned.mono (Nat.zero_le _)
  · rw [loadSample_within hlast, loadSample_within (by rwa [hcfg, hwpEq]), hcfg, hwpEq]
    exact h.store _ _

/-- Settles O17: the sample is taken by both states, and loading it keeps their agreement below `wp`. -/
theorem staleCellsNeverReachOutput : Obligations.StaleCellsNeverReachOutput := by
  intro s s' t d hs hs' hr hb hrest hread h
  have hagree : s.AgreesBelow s.wp s' := ⟨hrest, hread⟩
  rw [exec_s_ready hs.cfgOk hb hr hs.wp, Host.Outcome.next.injEq] at h
  subst h
  have hloaded := hagree.sampleLoaded d
  refine ⟨(loadSample d s').state, exec_s_ready hs'.cfgOk ?_ ?_ hs'.wp, hloaded.rest, hloaded.read⟩
  · rw [hrest]; exact hb
  · rw [hrest]; exact hr

end Sys2Proof.Machine

/-! ## Proofs: the four formats, the bytes the encoder emits, and the text of tokens (O1, O2, O3, O4, O5, O6, O38) -/

namespace Sys2Proof.Machine

/-! ### Words and instructions -/

/-- Settles O1: the round trips of `Laws.RoundTrip`, one per row of the opcode table. -/
theorem decodeOfEncodeIsIdentity : Obligations.DecodeOfEncodeIsIdentity := fun cntW i h =>
  match i with
  | .s d => Laws.RoundTrip.s d cntW h
  | .fin => Laws.RoundTrip.fin cntW h
  | .g v => Laws.RoundTrip.g v cntW h
  | .eof => Laws.RoundTrip.eof cntW h
  | .eos => Laws.RoundTrip.eos cntW h
  | .grsv => Laws.RoundTrip.grsv cntW h
  | .pair v c => Laws.RoundTrip.pair v c cntW h
  | .meof => Laws.RoundTrip.meof cntW h
  | .meos => Laws.RoundTrip.meos cntW h
  | .endByte => Laws.RoundTrip.endByte cntW h
  | .blk n => Laws.RoundTrip.blk n cntW h
  | .rsv1 => Laws.RoundTrip.rsv1 cntW h
  | .lit v => Laws.RoundTrip.lit v cntW h
  | .rsvf0 => Laws.RoundTrip.rsvf0 cntW h
  | .ful n => Laws.RoundTrip.ful n cntW h

/-- A byte is made of its two fields (rule R71). -/
theorem byte_eq_iff (b b' : Byte) : b = b' ↔ cbTag b = cbTag b' ∧ cbLen b = cbLen b' := by
  refine ⟨by rintro rfl; exact ⟨rfl, rfl⟩, fun ⟨htag, hlen⟩ => ?_⟩
  have happend : ∀ x : Byte, cbTag x ++ cbLen x = x := by decide
  rw [← happend b, htag, hlen, happend]

/-- `END` is the byte of tag `0b00` and length 0 (rule R72). -/
theorem byte_eq_end_iff (b : Byte) : b = 0x00 ↔ cbTag b = 0 ∧ cbLen b = 0 := byte_eq_iff b 0x00

/-- `RSVF0` is the byte of tag `0b11` and length 0 (rule R72). -/
theorem byte_eq_rsvf0_iff (b : Byte) : b = 0xC0 ↔ cbTag b = 3 ∧ cbLen b = 0 := byte_eq_iff b 0xC0

/-- The class of a compact byte by its two fields, one case per row of rule R72. -/
theorem decodeCB_cases (b : Byte) :
    (cbTag b = 0 ∧ cbLen b = 0 ∧ decodeCB b = .endByte) ∨
    (cbTag b = 0 ∧ cbLen b ≠ 0 ∧ decodeCB b = .blk (cbLen b)) ∨
    (cbTag b = 1 ∧ decodeCB b = .rsv1) ∨
    (cbTag b = 2 ∧ decodeCB b = .lit b) ∨
    (cbTag b = 3 ∧ cbLen b = 0 ∧ decodeCB b = .rsvf0) ∨
    (cbTag b = 3 ∧ cbLen b ≠ 0 ∧ decodeCB b = .ful (cbLen b)) := by
  have htag : ∀ t : BitVec 2, t = 0 ∨ t = 1 ∨ t = 2 ∨ t = 3 := by decide
  simp only [decodeCB, byte_eq_end_iff, byte_eq_rsvf0_iff]
  obtain ht | ht | ht | ht := htag (cbTag b)
  · by_cases hl : cbLen b = 0#6 <;> simp [ht, hl]
  · simp [ht]
  · simp [ht]
  · by_cases hl : cbLen b = 0#6 <;> simp [ht, hl]

/-- Settles O3: each case of `decodeCB_cases` meets one class and no other. -/
theorem compactByteClassesPartition : Obligations.CompactByteClassesPartition := by
  intro b
  have hlit : cbTag 0x80#8 = 2#2 ∧ cbTag 0xBF#8 = 2#2 := by decide
  rw [byte_eq_end_iff, byte_eq_rsvf0_iff]
  obtain ⟨ht, hl, hd⟩ | ⟨ht, hl, hd⟩ | ⟨ht, hd⟩ | ⟨ht, hd⟩ | ⟨ht, hl, hd⟩ | ⟨ht, hl, hd⟩ := decodeCB_cases b
  · simp [ht, hl, hd, hlit]
  · simpa [ht, hd, hlit] using hl
  · simp [ht, hd, hlit]
  · simp [ht, hd, hlit]
  · simp [ht, hl, hd, hlit]
  · simpa [ht, hd, hlit] using hl

/-- Settles O2: the guard of each class is its operand's range, and a count is a remainder of `2 ^ CNT_W`. -/
theorem decodedInstrIsWellFormed : Obligations.DecodedInstrIsWellFormed := by
  intro cntW p i h
  cases p with
  | st w =>
    cases h
    obtain ⟨d, hd⟩ | hd := decodeST_cases w <;> rw [hd] <;> rfl
  | gt w =>
    cases h
    unfold decodeGT
    split_ifs <;> rfl
  | pt w =>
    change decodePT cntW w = .ok i at h
    unfold decodePT at h
    split_ifs at h <;> cases h
    · exact decide_eq_true (Nat.mod_lt _ (Nat.two_pow_pos cntW))
    · rfl
    · rfl
  | cb b =>
    cases h
    obtain ⟨-, -, hd⟩ | ⟨-, hl, hd⟩ | ⟨-, hd⟩ | ⟨ht, hd⟩ | ⟨-, -, hd⟩ | ⟨-, hl, hd⟩ := decodeCB_cases b <;> rw [hd]
    · rfl
    · exact decide_eq_true hl
    · rfl
    · exact decide_eq_true ht
    · rfl
    · exact decide_eq_true hl

/-- Settles O4: `decodePT_kind` for the P words, and the S and G words for every value of their data. -/
theorem kindFieldSelectsToken : Obligations.KindFieldSelectsToken := by
  intro d cntW v c hc
  obtain ⟨heof, heos, hrsv⟩ := decodeGT_kinds d
  have hfields := pairFields_lt v hc
  simp only [decode, decodeST_sample, decodeST_fin, decodeGT_glyph, heof, heos, hrsv, Nat.add_assoc, true_and]
  refine ⟨?_, decodePT_kind 1 hfields (by decide), decodePT_kind 2 hfields (by decide), decodePT_kind 3 hfields (by decide)⟩
  rw [Nat.zero_mul, Nat.zero_add]
  exact decodePT_pair v hc

/-- Settles O5: a word is its token's encoding (O1), or has data that its kind ignores (`decodeST_fin`, `decodeGT_kinds`). -/
theorem sampleWordsDecodeRight : Obligations.SampleWordsDecodeRight := by
  have henc : ∀ i : Instr, i.wf 11 = true → decode 11 (encode 11 i) = .ok i := decodeOfEncodeIsIdentity 11
  obtain ⟨heof, -, -⟩ := decodeGT_kinds 0xAB
  obtain ⟨-, heos, -⟩ := decodeGT_kinds 0xCD
  obtain ⟨-, -, hrsv⟩ := decodeGT_kinds 0xFF
  exact ⟨henc (.s 200) rfl, congrArg Except.ok (decodeST_fin 0xFF), henc (.g 150) rfl, congrArg Except.ok heof,
    congrArg Except.ok heos, congrArg Except.ok hrsv, henc (.pair 128 70) rfl, henc .meof rfl, henc (.blk 7) rfl,
    henc (.ful 2) rfl, henc (.lit 150) rfl⟩

/-! ### The bytes of a record -/

/-- A byte of a pair is a byte of one of its chunks (rules R142, R145). -/
theorem mem_chunk {v b : Byte} (c : Nat) (hb : b ∈ chunk v c) : ∃ n, 1 ≤ n ∧ n ≤ 63 ∧ b ∈ piece v n := by
  induction c using Nat.strongRecOn with
  | ind c ih =>
    obtain rfl | hc := Nat.eq_zero_or_pos c
    · cases hb
    · have hpos := chunkLen_pos hc
      rw [chunk_pos hc, List.mem_append] at hb
      obtain hb | hb := hb
      · exact ⟨chunkLen c, hpos, Nat.min_le_right _ _, hb⟩
      · exact ih (c - chunkLen c) (by omega) hb

/-- A count within the longest run is one chunk. -/
theorem chunk_of_le_maxRun {v : Byte} {c : Nat} (hc : 0 < c) (hle : c ≤ 63) : chunk v c = piece v c := by
  have hlen : chunkLen c = c := Nat.min_eq_left hle
  rw [chunk_pos hc, hlen, Nat.sub_self, chunk_zero, List.append_nil]

/-- A chunk of more than one special glyph is one run byte (rule R142). -/
theorem piece_run {v : Byte} {n : Nat} (hv : isSpecial v = true) (hn : n ≠ 1) : piece v n = [runByte v n] := by
  simp [piece, isLiteralChunk, hv, hn]

/-- The special glyphs are blank and full (rule R142). -/
theorem isSpecial_iff {v : Byte} : isSpecial v = true ↔ v = glyphBlank ∨ v = glyphFull := by simp [isSpecial]

/-- A byte of a chunk is the glyph itself or, where the glyph is special and the chunk longer than one, its run byte
(rule R142). -/
theorem mem_piece {v b : Byte} {n : Nat} (hb : b ∈ piece v n) :
    b = v ∨ n ≠ 1 ∧ isSpecial v = true ∧ b = runByte v n := by
  unfold piece at hb
  split at hb
  · exact .inl (List.eq_of_mem_replicate hb)
  · rename_i hrun
    exact .inr (by simpa [isLiteralChunk, and_assoc] using And.intro hrun hb)

/-- A blank run byte is its length (rule R73). -/
theorem runByte_blank_toNat : ∀ n ≤ 63, (runByte glyphBlank n).toNat = n := by decide

/-- A full run byte is its length above `0xC0` (rule R73). -/
theorem runByte_full_toNat : ∀ n ≤ 63, (runByte glyphFull n).toNat = 0xC0 + n := by decide

/-- The values of rule R77, by their ranges. -/
theorem emittable_iff (b : Byte) : emittable b = true ↔ b.toNat = 0 ∨ (0x02 ≤ b.toNat ∧ b.toNat ≤ 0x3F) ∨
    (0x80 ≤ b.toNat ∧ b.toNat ≤ 0xBF) ∨ 0xC2 ≤ b.toNat := by
  simp [emittable, or_assoc, ← BitVec.toNat_inj]

/-- The bytes of a glyph's pair are emittable and no terminator (rule R77). -/
theorem emittable_of_mem_chunk {v b : Byte} {c : Nat} (hv : isGlyph v = true) (hb : b ∈ chunk v c) :
    emittable b = true ∧ b.toNat ≠ 0 := by
  obtain ⟨n, hpos, hle, hb⟩ := mem_chunk c hb
  rw [emittable_iff]
  obtain rfl | ⟨hn, hs, rfl⟩ := mem_piece hb
  · have hglyph := (isGlyph_iff b).1 hv
    omega
  · obtain rfl | rfl := isSpecial_iff.1 hs
    · rw [runByte_blank_toNat n hle]
      omega
    · rw [runByte_full_toNat n hle]
      omega

/-- The pairs' values are values of the sequence. -/
theorem mem_of_mem_rle {p : Byte × Nat} {gs : List Byte} (hp : p ∈ rle gs) : p.1 ∈ gs := by
  induction gs with
  | nil => cases hp
  | cons g rest ih =>
    suffices h : p.1 = g ∨ p ∈ rle rest from List.mem_cons.2 (h.imp_right ih)
    by_cases hg : rest.head? = some g
    · obtain ⟨vs, rfl⟩ := List.head?_eq_some_iff.1 hg
      obtain ⟨k, ps, hk⟩ := rle_cons_eq g vs
      rw [rle_cons_of_head_eq hk] at hp
      obtain rfl | hp := List.mem_cons.1 hp
      · exact .inl rfl
      · exact .inr (hk ▸ List.mem_cons_of_mem _ hp)
    · rw [rle_cons_of_head_ne hg] at hp
      obtain rfl | hp := List.mem_cons.1 hp
      · exact .inl rfl
      · exact .inr hp

/-- The bytes of a frame of glyph codes, before its terminator. -/
theorem emittable_of_mem_compact {gs : List Byte} {b : Byte} (hgs : AllGlyphs gs) (hb : b ∈ compact (rle gs)) :
    emittable b = true ∧ b.toNat ≠ 0 := by
  obtain ⟨p, hp, hb⟩ := List.mem_flatMap.1 hb
  exact emittable_of_mem_chunk (hgs p.1 (mem_of_mem_rle hp)) hb

/-- The record of a frame of one glyph, no longer than the longest run. -/
theorem encodeFrame_replicate (v : Byte) {n : Nat} (hpos : 0 < n) (hle : n ≤ 63) :
    encodeFrame (List.replicate n v) = piece v n ++ [0x00] := by
  obtain ⟨k, rfl⟩ := Nat.exists_eq_add_of_le' hpos
  have hrle := rle_replicate_append (g := v) (rest := []) nofun k
  rw [List.append_nil] at hrle
  rw [encodeFrame, hrle, rle_nil, compact_cons, compact_nil, List.append_nil, chunk_of_le_maxRun hpos hle]

/-- A run byte of more than one special glyph stands in the record of a frame of that many. -/
theorem runByte_mem_encodeFrame {v : Byte} {n : Nat} (hv : isSpecial v = true) (hn : 2 ≤ n) (hle : n ≤ 63) :
    runByte v n ∈ encodeFrame (List.replicate n v) := by
  rw [encodeFrame_replicate v (by omega) hle, piece_run hv (by omega)]
  exact List.mem_append_left _ (List.mem_singleton_self _)

/-- A literal stands in the record of a frame of one glyph. -/
theorem mem_encodeFrame_singleton (v : Byte) : v ∈ encodeFrame [v] := by
  have h := encodeFrame_replicate v (n := 1) (by decide) (by decide)
  rw [List.replicate_one] at h
  simp [h, piece, isLiteralChunk]

/-- A frame of one glyph code is a frame of glyph codes. -/
theorem allGlyphs_replicate {v : Byte} (hv : isGlyph v = true) (n : Nat) : AllGlyphs (List.replicate n v) := fun _ hg =>
  List.eq_of_mem_replicate hg ▸ hv

/-- Every value of rule R77 is in the record of an empty frame, of a blank or full one, or of one glyph. -/
theorem exists_mem_encodeFrame {b : Byte} (hb : emittable b = true) : ∃ gs, AllGlyphs gs ∧ b ∈ encodeFrame gs := by
  obtain h | ⟨h2, hle⟩ | ⟨h128, h191⟩ | hC2 := (emittable_iff b).1 hb
  · obtain rfl : b = 0x00 := BitVec.eq_of_toNat_eq h
    exact ⟨[], nofun, List.mem_singleton_self _⟩
  · have hrun : runByte glyphBlank b.toNat = b := BitVec.eq_of_toNat_eq (runByte_blank_toNat _ hle)
    exact ⟨_, allGlyphs_replicate (by decide) _, hrun ▸ runByte_mem_encodeFrame (by decide) h2 hle⟩
  · exact ⟨[b], allGlyphs_replicate ((isGlyph_iff b).2 ⟨h128, h191⟩) 1, mem_encodeFrame_singleton b⟩
  · have hlt := b.isLt
    have hrun : runByte glyphFull (b.toNat - 0xC0) = b :=
      BitVec.eq_of_toNat_eq (by rw [runByte_full_toNat _ (by omega)]; omega)
    exact ⟨_, allGlyphs_replicate (by decide) _, hrun ▸ runByte_mem_encodeFrame (by decide) (by omega) (by omega)⟩

/-- Settles O38: the two inclusions, and the count of the values. -/
theorem emittableBytesExactly : Obligations.EmittableBytesExactly := by
  refine ⟨fun gs hgs => ⟨fun b hb => ?_, fun hzero => ?_⟩, fun b => exists_mem_encodeFrame, by rfl⟩
  · obtain hb | hb := List.mem_append.1 hb
    · exact (emittable_of_mem_compact hgs hb).1
    · rw [List.mem_singleton.1 hb]
      decide
  · exact (emittable_of_mem_compact hgs hzero).2 rfl

/-! ### The text of tokens -/

/-- A decimal digit is read back (rule R88). -/
theorem digitValue_digitChar : ∀ n < 10, digitValue 10 (digitChar n) = some n := by decide

/-- A decimal digit is none of the characters to which the reader gives a meaning of their own. -/
theorem digitChar_ne : ∀ n < 10, digitChar n ≠ ' ' ∧ digitChar n ≠ ';' ∧ digitChar n ≠ 'x' := by decide

/-- The number of a list of decimal digits, after the number `acc` of the digits before them. -/
def digitsNumber (acc : Nat) (ds : List Nat) : Nat := ds.foldl (fun a d => a * 10 + d) acc

theorem readDigits_map_digitChar {ds : List Nat} (hds : ∀ d ∈ ds, d < 10) (acc : Nat) :
    readDigits 10 acc (ds.map digitChar) = some (digitsNumber acc ds) := by
  induction ds generalizing acc with
  | nil => rfl
  | cons d ds ih =>
    obtain ⟨hd, hds⟩ := List.forall_mem_cons.1 hds
    rw [List.map_cons, readDigits, digitValue_digitChar d hd]
    exact ih hds _

/-- A number in decimal is the characters of its digits. -/
theorem decimal_eq_map {n : Nat} (hn : n < 1000) :
    ∃ ds, ds ≠ [] ∧ (∀ d ∈ ds, d < 10) ∧ decimal n = ds.map digitChar ∧ digitsNumber 0 ds = n := by
  unfold decimal
  split
  · exact ⟨[n], by simp, by simpa, rfl, by simp [digitsNumber]⟩
  · split
    · exact ⟨[n / 10, n % 10], by simp, by simp; omega, rfl, by simp [digitsNumber]; omega⟩
    · exact ⟨[n / 100, n / 10 % 10, n % 10], by simp, by simp; omega, rfl, by simp [digitsNumber]; omega⟩

/-- A number without the letter `x` of a hexadecimal number is read in decimal. -/
theorem readNumber_of_no_x {cs : List Char} (hne : cs ≠ []) (hx : 'x' ∉ cs) :
    readNumber cs = readDigits 10 0 cs := by
  unfold readNumber
  split
  · contradiction
  · simp at hx
  · rfl

/-- A number in decimal is a word without blanks, comments or the letter `x` of a hexadecimal number. -/
theorem decimal_chars {n : Nat} (hn : n < 1000) :
    decimal n ≠ [] ∧ ' ' ∉ decimal n ∧ ';' ∉ decimal n ∧ 'x' ∉ decimal n := by
  obtain ⟨ds, hne, hds, hdec, -⟩ := decimal_eq_map hn
  have hchars : ∀ c ∈ decimal n, c ≠ ' ' ∧ c ≠ ';' ∧ c ≠ 'x' := by
    rw [hdec, List.forall_mem_map]
    exact fun d hd => digitChar_ne d (hds d hd)
  exact ⟨by simpa [hdec] using hne, fun h => (hchars _ h).1 rfl, fun h => (hchars _ h).2.1 rfl,
    fun h => (hchars _ h).2.2 rfl⟩

/-- A number in decimal is read back (rule R88). -/
theorem readNumber_decimal {n : Nat} (hn : n < 1000) : readNumber (decimal n) = some n := by
  obtain ⟨ds, -, hds, hdec, hval⟩ := decimal_eq_map hn
  obtain ⟨hne, -, -, hx⟩ := decimal_chars hn
  rw [readNumber_of_no_x hne hx, hdec, readDigits_map_digitChar hds, hval]

/-- A byte's operand in decimal is read back (rule R88). -/
theorem readByte_decimal (d : Byte) : readByte (decimal d.toNat) = some d := by
  have hlt := d.isLt
  simp [readByte, readNumber_decimal (show d.toNat < 1000 by omega), hlt]

/-- A comment is cut off with its `;` (rule R88). -/
theorem stripComment_append {line : List Char} (h : ';' ∉ line) (comment : List Char) :
    stripComment (line ++ ';' :: comment) = line := by
  induction line with
  | nil => rfl
  | cons c cs ih =>
    obtain ⟨hc, hcs⟩ := List.ne_and_not_mem_of_not_mem_cons h
    rw [List.cons_append, stripComment, if_neg (Ne.symm hc), ih hcs]

/-- Characters that are no blanks lengthen the word being read. -/
theorem splitWords_append {w : List Char} (hw : ' ' ∉ w) (cur cs : List Char) :
    splitWords cur (w ++ cs) = splitWords (w.reverse ++ cur) cs := by
  induction w generalizing cur with
  | nil => rfl
  | cons c w ih =>
    obtain ⟨hc, hw⟩ := List.ne_and_not_mem_of_not_mem_cons hw
    rw [List.cons_append, splitWords, if_neg (Ne.symm hc), ih hw, List.reverse_cons, List.append_assoc]
    rfl

/-- A blank ends the word before it. -/
theorem splitWords_word {w : List Char} (hne : w ≠ []) (hw : ' ' ∉ w) (cs : List Char) :
    splitWords [] (w ++ ' ' :: cs) = w :: splitWords [] cs := by
  rw [splitWords_append hw, List.append_nil, splitWords, if_pos rfl, if_neg (by simpa using hne), List.reverse_reverse]

/-- A line of a mnemonic and a decimal number, with a comment after it, is those two words. -/
theorem assembleLine_operand (cfg : Config) {m : Char} (hblank : m ≠ ' ') (hsemi : m ≠ ';') {n : Nat} (hn : n < 1000) :
    assembleLine cfg ([m, ' '] ++ decimal n ++ [' ', ';', ' ', 'x']) = assembleWords cfg [[m], decimal n] := by
  obtain ⟨hne, hnoblank, hnosemi, -⟩ := decimal_chars hn
  have hline : [m, ' '] ++ decimal n ++ [' ', ';', ' ', 'x'] = ([m] ++ ' ' :: (decimal n ++ [' '])) ++ ';' :: [' ', 'x'] := by
    simp
  have hstrip : ';' ∉ [m] ++ ' ' :: (decimal n ++ [' ']) := by simp [Ne.symm hsemi, hnosemi]
  rw [assembleLine, hline, stripComment_append hstrip, splitWords_word (by simp) (by simpa using Ne.symm hblank),
    splitWords_word hne hnoblank]
  rfl

/-- Settles O6: the operand of `S` and `G` is read back by `readByte_decimal`; the other lines are constant. -/
theorem tokenTextReadsBack : Obligations.TokenTextReadsBack := by
  intro cfg d i hi
  have hlt : d.toNat < 1000 := by have := d.isLt; omega
  simp only [List.mem_cons, List.not_mem_nil, or_false] at hi
  obtain rfl | rfl | rfl | rfl | rfl := hi
  · exact ⟨_, rfl, by rw [assembleLine_operand cfg (by decide) (by decide) hlt, assembleWords, readByte_decimal]; rfl⟩
  · exact ⟨_, rfl, by rw [assembleLine_operand cfg (by decide) (by decide) hlt, assembleWords, readByte_decimal]; rfl⟩
  · exact ⟨_, rfl, rfl⟩
  · exact ⟨_, rfl, rfl⟩
  · exact ⟨_, rfl, rfl⟩

end Sys2Proof.Machine

/-! ## Proofs: the front end, from the threshold to the record of a frame (O18, O19, O20, O21, O22, O23, O24) -/

namespace Sys2Proof.Machine

/-! ### The threshold -/

theorem thr_iff {thresh d : Byte} : thr thresh d = true ↔ thresh.toNat ≤ d.toNat := decide_eq_true_iff

/-- Settles O18: each clause is the inequality of `thr_iff`. -/
theorem thresholdIsInclusive : Obligations.ThresholdIsInclusive :=
  ⟨fun _ _ => thr_iff, by decide, by decide, by decide, by decide, fun _ => thr_iff.2 (Nat.zero_le _),
    fun thresh => thr_iff.2 (Nat.le_of_lt_succ thresh.isLt)⟩

/-- The byte a thresholded sample is stored as (rules R53, R100). -/
theorem pixelByte_thr (thresh d : Byte) : pixelByte (thr thresh d) = if thresh.toNat ≤ d.toNat then 1 else 0 := by
  simp only [pixelByte, thr_iff]

/-! ### The glyph of a block -/

theorem lane_eq_mul (p : Bool) (weight : Nat) : lane p weight = p.toNat * weight := by
  cases p <;> simp [lane]

/-- A glyph code as a number: no weight is lost, since they add up to less than 256 (rule R102). -/
theorem glyph_toNat (cfg : Config) (px : Nat → Bool) (y x : Nat) :
    (glyph cfg px y x).toNat = 128 + (px (blockAddr cfg y x 0 0)).toNat * 1 + (px (blockAddr cfg y x 0 1)).toNat * 2
      + (px (blockAddr cfg y x 1 0)).toNat * 4 + (px (blockAddr cfg y x 1 1)).toNat * 8
      + (px (blockAddr cfg y x 2 0)).toNat * 16 + (px (blockAddr cfg y x 2 1)).toNat * 32 := by
  have hbit : ∀ r c, (px (blockAddr cfg y x r c)).toNat ≤ 1 := fun _ _ => Bool.toNat_le _
  have h00 := hbit 0 0
  have h01 := hbit 0 1
  have h10 := hbit 1 0
  have h11 := hbit 1 1
  have h20 := hbit 2 0
  have h21 := hbit 2 1
  simp only [glyph, lane_eq_mul, BitVec.toNat_ofNat]
  omega

/-- The six lanes of a block and the tag, read back from the byte that adds them up. -/
theorem lanes_bits : ∀ p0 p1 p2 p3 p4 p5 : Bool,
    let v := BitVec.ofNat 8 (128 + lane p0 1 + lane p1 2 + lane p2 4 + lane p3 8 + lane p4 16 + lane p5 32)
    v.getLsbD 0 = p0 ∧ v.getLsbD 1 = p1 ∧ v.getLsbD 2 = p2 ∧ v.getLsbD 3 = p3 ∧ v.getLsbD 4 = p4 ∧ v.getLsbD 5 = p5 ∧
      cbTag v = 2 := by decide

theorem cbTag_glyph (cfg : Config) (px : Nat → Bool) (y x : Nat) : cbTag (glyph cfg px y x) = 2 := by
  obtain ⟨-, -, -, -, -, -, htag⟩ := lanes_bits _ _ _ _ _ _
  exact htag

/-- The packer sends glyph codes only (rules R86, R104). -/
theorem isGlyph_glyph (cfg : Config) (px : Nat → Bool) (y x : Nat) : isGlyph (glyph cfg px y x) = true :=
  decide_eq_true (cbTag_glyph cfg px y x)

/-- Bit `2*r + c` of a glyph code is the pixel of row `r`, column `c` of the block (rule R102). -/
theorem getLsbD_glyph (cfg : Config) (px : Nat → Bool) (y x : Nat) {r c : Nat} (hr : r < 3) (hc : c < 2) :
    (glyph cfg px y x).getLsbD (2 * r + c) = px (blockAddr cfg y x r c) := by
  obtain ⟨h0, h1, h2, h3, h4, h5, -⟩ := lanes_bits (px (blockAddr cfg y x 0 0)) (px (blockAddr cfg y x 0 1))
    (px (blockAddr cfg y x 1 0)) (px (blockAddr cfg y x 1 1)) (px (blockAddr cfg y x 2 0)) (px (blockAddr cfg y x 2 1))
  match r, c, hr, hc with
  | 0, 0, _, _ => exact h0
  | 0, 1, _, _ => exact h1
  | 1, 0, _, _ => exact h2
  | 1, 1, _, _ => exact h3
  | 2, 0, _, _ => exact h4
  | 2, 1, _, _ => exact h5

/-- Settles O19: the sum, the bits and the tag of `glyph`. -/
theorem glyphPacksBlockPixels : Obligations.GlyphPacksBlockPixels := fun cfg px y x =>
  ⟨glyph_toNat cfg px y x, fun _ _ => getLsbD_glyph cfg px y x, cbTag_glyph cfg px y x⟩

/-- The frame in which every block shows the six low bits of `k`, bit `2*r + c` at row `r`, column `c`. -/
def tiledFrame (cfg : Config) (k a : Nat) : Bool := k.testBit (2 * (a / cfg.w % 3) + a % cfg.w % 2)

theorem tiledFrame_blockAddr {cfg : Config} (k y : Nat) {x r c : Nat} (hx : x < cfg.gw) (hr : r < 3) (hc : c < 2) :
    tiledFrame cfg k (blockAddr cfg y x r c) = k.testBit (2 * r + c) := by
  obtain ⟨-, -, hrow, hcol⟩ := (blockAddr_eq_iff (y := y) hx hr hc).1 rfl
  rw [tiledFrame, ← hrow, ← hcol]

/-- A number below 64 is the sum of its six bits. -/
theorem sum_six_bits : ∀ k < 64, (k.testBit 0).toNat * 1 + (k.testBit 1).toNat * 2 + (k.testBit 2).toNat * 4
    + (k.testBit 3).toNat * 8 + (k.testBit 4).toNat * 16 + (k.testBit 5).toNat * 32 = k := by decide

/-- Every value of six bits is the glyph of some frame (rule R104). -/
theorem glyph_tiledFrame {cfg : Config} {k : Nat} (hk : k < 64) (y : Nat) {x : Nat} (hx : x < cfg.gw) :
    (glyph cfg (tiledFrame cfg k) y x).toNat = 128 + k := by
  have hsum := sum_six_bits k hk
  simp only [glyph_toNat, tiledFrame_blockAddr k y hx, Nat.reduceLT, Nat.reduceMul, Nat.reduceAdd]
  omega

/-- Settles O20: the range is that of a glyph code, and `tiledFrame` gives every value in it. -/
theorem glyphRangeIsExact : Obligations.GlyphRangeIsExact := by
  intro cfg y x _ _ hx
  refine ⟨fun px => (isGlyph_iff _).1 (isGlyph_glyph cfg px y x), fun n hlo hhi => ?_, by simp [glyph_toNat],
    by simp [glyph_toNat]⟩
  have hn : (glyph cfg (tiledFrame cfg (n - 128)) y x).toNat = 128 + (n - 128) := glyph_tiledFrame (by omega) y hx
  exact ⟨_, hn.trans (by omega)⟩

/-! ### The grid in row-major order -/

theorem length_gridCells (cfg : Config) : (gridCells cfg).length = cfg.cells := by
  simp [gridCells, Config.cells, Nat.mul_comm]

/-- A configuration of the hardware has a grid cell. -/
theorem config_cells_pos {cfg : Config} (hw : cfg.wf = true) : 0 < cfg.cells := by
  obtain ⟨-, -, hgh, hgw⟩ := config_ranges_pos hw
  exact Nat.mul_pos hgw hgh

/-- Position `y * w + x` of `h` rows of `w` cells each is the cell `(y, x)`. -/
theorem getElem?_rows {w h y x : Nat} (hy : y < h) (hx : x < w) :
    ((List.range h).flatMap fun y => (List.range w).map fun x => (y, x))[y * w + x]? = some (y, x) := by
  induction h with
  | zero => cases hy
  | succ h ih =>
    have hlen : ((List.range h).flatMap fun y => (List.range w).map fun x => (y, x)).length = h * w := by simp
    rw [List.range_succ, List.flatMap_append]
    obtain hlt | rfl := Nat.lt_succ_iff_lt_or_eq.1 hy
    · have hrow : y * w + x < h * w := by
        calc y * w + x < (y + 1) * w := by rw [Nat.succ_mul]; omega
          _ ≤ h * w := Nat.mul_le_mul_right w hlt
      rw [List.getElem?_append_left (by rwa [hlen]), ih hlt]
    · rw [List.getElem?_append_right (by rw [hlen]; omega), hlen]
      simp [hx]

/-- Settles O21: `pack` maps `glyph` over the grid. -/
theorem packIsRowMajor : Obligations.PackIsRowMajor := by
  intro cfg px
  refine ⟨by rw [pack, List.length_map, length_gridCells], fun y x hy hx => ?_⟩
  rw [pack, List.getElem?_map, gridCells, getElem?_rows hy hx]
  rfl

/-! ### The length of a record -/

theorem length_chunk_le (v : Byte) (c : Nat) : (chunk v c).length ≤ c := by
  induction c using Nat.strongRecOn with
  | ind c ih =>
    obtain rfl | hc := Nat.eq_zero_or_pos c
    · rfl
    · have hpos := chunkLen_pos hc
      have hle := chunkLen_le c
      have hrest := ih (c - chunkLen c) (by omega)
      have hpiece : (piece v (chunkLen c)).length ≤ chunkLen c := by
        unfold piece
        split
        · rw [List.length_replicate]
        · exact hpos
      rw [chunk_pos hc, List.length_append]
      omega

/-- A run of at least one glyph has at least one byte. -/
theorem chunk_ne_nil (v : Byte) {c : Nat} (hc : 0 < c) : chunk v c ≠ [] := by
  have hpos := chunkLen_pos hc
  have hpiece : piece v (chunkLen c) ≠ [] := by
    unfold piece
    split
    · rw [Ne, List.replicate_eq_nil_iff]; omega
    · nofun
  rw [chunk_pos hc]
  exact List.append_ne_nil_of_left_ne_nil hpiece _

/-- The counts of the pairs add up to the length of the sequence (rule R121 (b)). -/
theorem sum_counts_rle (gs : List Byte) : ((rle gs).map (·.2)).sum = gs.length := by
  induction gs with
  | nil => rfl
  | cons g rest ih =>
    by_cases hg : rest.head? = some g
    · obtain ⟨vs, rfl⟩ := List.head?_eq_some_iff.1 hg
      obtain ⟨k, ps, hk⟩ := rle_cons_eq g vs
      rw [hk] at ih
      rw [rle_cons_of_head_eq hk]
      simp only [List.map_cons, List.sum_cons, List.length_cons] at *
      omega
    · rw [rle_cons_of_head_ne hg, List.map_cons, List.sum_cons, ih, List.length_cons, Nat.add_comm]

theorem length_compact_le (ps : List (Byte × Nat)) : (compact ps).length ≤ (ps.map (·.2)).sum := by
  rw [compact, List.length_flatMap]
  exact List.sum_le_sum fun p _ => length_chunk_le p.1 p.2

/-- A record has at most one byte a glyph, and its terminator. -/
theorem length_encodeFrame_le (gs : List Byte) : (encodeFrame gs).length ≤ gs.length + 1 := by
  have hlen := length_compact_le (rle gs)
  rw [sum_counts_rle] at hlen
  rw [encodeFrame, List.length_append, List.length_singleton]
  omega

/-- The record of a frame with a glyph has a byte before its terminator. -/
theorem two_le_length_encodeFrame {gs : List Byte} (hgs : gs ≠ []) : 2 ≤ (encodeFrame gs).length := by
  obtain ⟨g, rest, rfl⟩ := List.exists_cons_of_ne_nil hgs
  obtain ⟨k, ps, hk⟩ := rle_cons_eq g rest
  have hpos := List.length_pos_of_ne_nil (chunk_ne_nil g (show 0 < k + 1 by omega))
  rw [encodeFrame, hk, compact_cons, List.length_append, List.length_append, List.length_singleton]
  omega

/-! ### The packer's scan sends the frame's record -/

/-- A run ahead of another value, or of the end, is sent first. -/
theorem encodeFrame_run_append {v : Byte} {rest : List Byte} (h : rest.head? ≠ some v) (n : Nat) :
    encodeFrame (List.replicate (n + 1) v ++ rest) = chunk v (n + 1) ++ encodeFrame rest := by
  rw [encodeFrame, rle_replicate_append h, compact_cons, List.append_assoc, encodeFrame]

/-- `s` after the bytes `bs` that end a frame: no open run, and the compact encoder idle. The values `v`, `y`, `x` left in
`cv`, `sy` and `sx` are dead there. -/
def State.frameSent (s : State) (v : Byte) (y x : Nat) (bs : List Byte) : State :=
  { s with openRun := none, cv := v, crem := 0, clit := 0, sy := y, sx := x, out := s.out ++ bs }

/-- In a state that takes tokens between frames only the dead values and the output change. -/
theorem State.frameSent_ready {s : State} (hr : s.ready = true) (hrun : s.openRun = none) (v : Byte) (y x : Nat)
    (bs : List Byte) : s.frameSent v y x bs = { s with cv := v, sy := y, sx := x, out := s.out ++ bs } := by
  obtain ⟨-, -, hcrem, hclit⟩ := State.ready_iff.1 hr
  simp [State.frameSent, hrun, hcrem, hclit]

/-- The bytes of a pair sent in mid-frame stand before those that end the frame. -/
theorem State.frameSent_of_ceDone (s : State) (y x : Nat) (v : Byte) (r : Option OpenRun) (cv : Byte) (y' x' : Nat)
    (bs bs' : List Byte) :
    (((s.setScan y x).ceDone v bs).setRun r).frameSent cv y' x' bs' = s.frameSent cv y' x' (bs ++ bs') := by
  simp [State.frameSent, State.ceDone, State.setRun, State.setScan]

/-- The rest of a scan and its `EOF`, from an open run of `n + 1` glyphs that no glyph left can overflow: the record of the
open run and the glyphs left. -/
theorem scanCells_eof_of_open (cells : List (Nat × Nat)) (s : State) (v : Byte) (n : Nat)
    (hrun : s.openRun = some ⟨v, n + 1⟩) (hv : isGlyph v = true) (hfit : n + 1 + cells.length ≤ s.cfg.cntMax) :
    ∃ cv y x, (scanCells cells s).andThen (sendG .eof) =
      .goes (s.frameSent cv y x (encodeFrame (List.replicate (n + 1) v ++ cells.map fun p => s.glyphAt p.1 p.2))) := by
  induction cells generalizing s v n with
  | nil =>
    refine ⟨v, s.sy, s.sx, ?_⟩
    rw [scanCells, Flow.andThen_goes, sendG, rleEof_closes hrun hv, List.map_nil,
      encodeFrame_run_append (v := v) (rest := []) nofun]
    simp [State.frameSent, State.ceDone, State.setRun, State.emit]
  | cons p rest ih =>
    obtain ⟨y, x⟩ := p
    rw [List.length_cons] at hfit
    rw [scanCells, sendG, List.map_cons]
    by_cases hg : s.glyphAt y x = v
    · have hext : rleG v (s.setScan y x) = .goes ((s.setScan y x).setRun (some ⟨v, n + 2⟩)) :=
        rleG_extends (r := ⟨v, n + 1⟩) hrun (show n + 1 ≠ s.cfg.cntMax by omega)
      obtain ⟨cv, y', x', h⟩ := ih ((s.setScan y x).setRun (some ⟨v, n + 2⟩)) v (n + 1) rfl hv
        (show n + 2 + rest.length ≤ s.cfg.cntMax by omega)
      refine ⟨cv, y', x', ?_⟩
      rw [hg, hext, Flow.andThen_goes, h, List.replicate_succ', List.append_assoc]
      rfl
    · have hclose : rleG (s.glyphAt y x) (s.setScan y x) = .goes
          (((s.setScan y x).ceDone v (chunk v (n + 1))).setRun (some ⟨s.glyphAt y x, 1⟩)) :=
        rleG_closes (s := s.setScan y x) hrun hg hv
      obtain ⟨cv, y', x', h⟩ := ih (((s.setScan y x).ceDone v (chunk v (n + 1))).setRun (some ⟨s.glyphAt y x, 1⟩))
        (s.glyphAt y x) 0 rfl (isGlyph_glyph _ _ y x) (show 0 + 1 + rest.length ≤ s.cfg.cntMax by omega)
      have hrecord := encodeFrame_run_append (v := v) (rest := s.glyphAt y x :: rest.map fun p => s.glyphAt p.1 p.2)
        (by simpa using hg) n
      refine ⟨cv, y', x', ?_⟩
      rw [hclose, Flow.andThen_goes, h, State.frameSent_of_ceDone, hrecord]
      rfl

/-- `SCAN()` between frames sends the record of the packed frame (rule R106); no run overflows, since the frame has at
most `CNT_MAX` cells (rule R9). -/
theorem scan_sends_record {s : State} (hw : s.cfg.wf = true) (hb : s.cfg.block = .pipe) (hr : s.ready = true)
    (hrun : s.openRun = none) :
    ∃ cv y x, scan s =
      .goes { s with cv := cv, sy := y, sx := x, out := s.out ++ encodeFrame (pack s.cfg s.readCell) } := by
  obtain ⟨-, -, -, -, -, hcore | hcells⟩ := (config_wf_iff s.cfg).1 hw
  · rw [hb] at hcore; cases hcore
  have hpos : 0 < (gridCells s.cfg).length := length_gridCells s.cfg ▸ config_cells_pos hw
  obtain ⟨⟨y, x⟩, rest, hcons⟩ := List.exists_cons_of_length_pos hpos
  have hlen : rest.length + 1 = s.cfg.cells := by rw [← length_gridCells, hcons, List.length_cons]
  have hopen := rleG_opens (v := s.glyphAt y x) (s := s.setScan y x) hrun
  obtain ⟨cv, y', x', h⟩ := scanCells_eof_of_open rest ((s.setScan y x).setRun (some ⟨s.glyphAt y x, 1⟩))
    (s.glyphAt y x) 0 rfl (isGlyph_glyph _ _ y x) (show 0 + 1 + rest.length ≤ s.cfg.cntMax by omega)
  refine ⟨cv, y', x', ?_⟩
  rw [← State.frameSent_ready hr hrun, scan, pack, hcons, scanCells, sendG, hopen, Flow.andThen_goes, h]
  rfl

/-! ### The tokens of port `S` -/

/-- Settles O22: the store of `loadSample_within`. -/
theorem sampleWithinFrame : Obligations.SampleWithinFrame := by
  intro d s hw hb hr hwp
  rw [exec_s_ready hw hb hr (by omega), loadSample_within (by omega), ← pixelByte_thr]
  rfl

/-- Settles O23: the scan that the last sample starts is `scan_sends_record`, from the state with the sample stored. -/
theorem lastSampleEmitsFrameRecord : Obligations.LastSampleEmitsFrameRecord := by
  intro d s hw hb hr hrun hlast
  obtain ⟨cv, y, x, hscan⟩ := scan_sends_record (s := (s.writeCell s.wp (thr s.cfg.thresh d)).setWp 0) hw hb hr hrun
  refine ⟨cv, y, x, ?_⟩
  intro px
  have hlen : (pack s.cfg px).length = s.cfg.cells := (packIsRowMajor s.cfg px).1
  refine ⟨?_, two_le_length_encodeFrame (List.ne_nil_of_length_pos (hlen ▸ config_cells_pos hw)),
    hlen ▸ length_encodeFrame_le _⟩
  rw [exec_s_ready hw hb hr (by omega), loadSample_last (by omega), hscan, ← pixelByte_thr]
  rfl

theorem exec_fin_inside {s : State} (hw : s.cfg.wf = true) (hb : s.cfg.block = .pipe) (hr : s.ready = true)
    (hwp : s.wp ≠ 0) : exec .fin s = .next { s with fc := .proto, st := .fault } := by
  rw [exec_fin_ready hw hb hr, endSamples_inside hwp]
  rfl

theorem exec_fin_between {s : State} (hw : s.cfg.wf = true) (hb : s.cfg.block = .pipe) (hr : s.ready = true)
    (hwp : s.wp = 0) (hrun : s.openRun = none) : exec .fin s = .next { s with out := s.out ++ [0x00], st := .done } := by
  rw [exec_fin_ready hw hb hr, endSamples_between hwp, rleEos_ends hrun]
  rfl

theorem exec_fin_open {s : State} (hw : s.cfg.wf = true) (hb : s.cfg.block = .pipe) (hr : s.ready = true)
    (hwp : s.wp = 0) {r : OpenRun} (hrun : s.openRun = some r) :
    exec .fin s = .next { s with fc := .proto, st := .fault } := by
  rw [exec_fin_ready hw hb hr, endSamples_between hwp, rleEos_open hrun]
  rfl

/-- Settles O24: the three cases of `FIN`, and the second of them at reset. -/
theorem finEndsStreamOrFaults : Obligations.FinEndsStreamOrFaults := by
  refine fun s => ⟨fun _ d => congrArg Except.ok (decodeST_fin d), fun hw hb hr => ⟨exec_fin_inside hw hb hr,
    exec_fin_between hw hb hr, fun hwp hrun => ?_⟩, exec_fin_between (by decide) rfl rfl rfl rfl, rfl⟩
  obtain ⟨r, hopen⟩ := Option.ne_none_iff_exists'.1 hrun
  exact exec_fin_open hw hb hr hwp hopen

end Sys2Proof.Machine

/-! ## Proofs: the run-length stage (O25, O26, O27, O28, O29, O30, O31) -/

namespace Sys2Proof.Machine

/-! ### `rle` run by run -/

/-- A sequence begins with the run of its first value: the value and as much of the rest as equals it. -/
theorem cons_eq_run_append (g : Byte) (rest : List Byte) :
    g :: rest = List.replicate ((rest.takeWhile (· == g)).length + 1) g ++ rest.dropWhile (· == g) := by
  have htake : rest.takeWhile (· == g) = List.replicate (rest.takeWhile (· == g)).length g :=
    List.eq_replicate_of_mem fun b hb => eq_of_beq (List.mem_takeWhile_imp (p := (· == g)) hb)
  rw [List.replicate_succ, List.cons_append, ← htake, List.takeWhile_append_dropWhile]

/-- What follows a run does not begin with its value. -/
theorem head?_dropWhile_beq_ne (g : Byte) (rest : List Byte) : (rest.dropWhile (· == g)).head? ≠ some g := by
  intro h
  have hnot := List.head?_dropWhile_not (· == g) rest
  simp [h] at hnot

/-- Settles O25: the first run and what follows it, one pair by `rle_replicate_append`. -/
theorem rleTakesLongestPrefix : Obligations.RleTakesLongestPrefix := by
  refine ⟨rle_nil, fun g rest => ?_⟩
  rw [cons_eq_run_append, rle_replicate_append (head?_dropWhile_beq_ne g rest), Nat.add_comm]

/-- Induction over a sequence run by run. -/
theorem runs_induction {P : List Byte → Prop} (nil : P [])
    (run : ∀ g n rest, rest.head? ≠ some g → P rest → P (List.replicate (n + 1) g ++ rest)) : ∀ gs, P gs
  | [] => nil
  | g :: rest => by
    rw [cons_eq_run_append]
    exact run g _ _ (head?_dropWhile_beq_ne g rest) (runs_induction nil run _)
termination_by gs => gs.length
decreasing_by exact Nat.lt_succ_of_le (List.length_dropWhile_le _ _)

/-- Rule R121 (a). -/
theorem one_le_of_mem_rle (gs : List Byte) : ∀ p ∈ rle gs, 1 ≤ p.2 := by
  induction gs using runs_induction with
  | nil => nofun
  | run g n rest h ih =>
    rw [rle_replicate_append h]
    exact List.forall_mem_cons.2 ⟨Nat.le_add_left 1 n, ih⟩

/-- The first pair's value is the first value. -/
theorem head?_rle (gs : List Byte) : (rle gs).head?.map Prod.fst = gs.head? := by
  cases gs with
  | nil => rfl
  | cons g rest =>
    obtain ⟨k, ps, h⟩ := rle_cons_eq g rest
    rw [h]
    rfl

/-- Rule R121 (c). -/
theorem isChain_rle (gs : List Byte) : (rle gs).IsChain (fun p q => p.1 ≠ q.1) := by
  induction gs using runs_induction with
  | nil => exact .nil
  | run g n rest h ih =>
    rw [rle_replicate_append h]
    refine ih.cons fun q hq hgq => h ?_
    rw [← head?_rle, hq]
    exact congrArg some hgq.symm

@[simp] theorem expandPairs_nil : expandPairs [] = [] := rfl

@[simp] theorem expandPairs_cons (v : Byte) (c : Nat) (ps : List (Byte × Nat)) :
    expandPairs ((v, c) :: ps) = List.replicate c v ++ expandPairs ps := rfl

/-- Rule R121 (d). -/
theorem expandPairs_rle (gs : List Byte) : expandPairs (rle gs) = gs := by
  induction gs using runs_induction with
  | nil => rfl
  | run g n rest h ih => rw [rle_replicate_append h, expandPairs_cons, ih]

/-- Pairs of positive counts expand to a sequence that begins with the first pair's value. -/
theorem head?_expandPairs {ps : List (Byte × Nat)} (hpos : ∀ p ∈ ps, 1 ≤ p.2) :
    (expandPairs ps).head? = ps.head?.map Prod.fst := by
  cases ps with
  | nil => rfl
  | cons p ps =>
    obtain ⟨v, c⟩ := p
    obtain ⟨n, rfl⟩ := Nat.exists_eq_add_of_le' (hpos (v, c) List.mem_cons_self)
    rfl

/-- Rule R121 (e): pairs with properties (a) and (c) are those of the sequence they expand to. -/
theorem rle_expandPairs {ps : List (Byte × Nat)} (hpos : ∀ p ∈ ps, 1 ≤ p.2)
    (hchain : ps.IsChain (fun p q => p.1 ≠ q.1)) : rle (expandPairs ps) = ps := by
  induction ps with
  | nil => rfl
  | cons p ps ih =>
    obtain ⟨v, c⟩ := p
    obtain ⟨hc, hrest⟩ := List.forall_mem_cons.1 hpos
    obtain ⟨hne, hdiffer⟩ := List.isChain_cons.1 hchain
    obtain ⟨n, rfl⟩ := Nat.exists_eq_add_of_le' hc
    have hhead : (expandPairs ps).head? ≠ some v := by
      rw [head?_expandPairs hrest, Ne, Option.map_eq_some_iff]
      rintro ⟨q, hq, rfl⟩
      exact hne q hq rfl
    rw [expandPairs_cons, rle_replicate_append hhead, ih hrest hdiffer]

/-- Rule R121 (f). -/
theorem rle_eq_nil_iff {gs : List Byte} : rle gs = [] ↔ gs = [] := by
  rw [← List.head?_eq_none_iff, ← List.head?_eq_none_iff, ← head?_rle, Option.map_eq_none_iff]

/-- Settles O26: the six properties, each a lemma above. -/
theorem rleProperties : Obligations.RleProperties := by
  refine fun gs => ⟨one_le_of_mem_rle gs, sum_counts_rle gs, isChain_rle gs, expandPairs_rle gs, ?_, rle_eq_nil_iff⟩
  rintro ps hpos hchain rfl
  exact (rle_expandPairs hpos hchain).symm

/-! ### The tokens of port `G` that the block takes -/

section
variable {s : State} {v : Byte} {r : OpenRun} (hw : s.cfg.wf = true) (hr : s.ready = true)
include hw hr

theorem exec_g_eq (v : Byte) : exec (.g v) s = .next (rleG v s).state := exec_g_ready hw hr (.inl ⟨v, rfl, rfl⟩)

theorem exec_eof_eq : exec .eof s = .next (rleEof s).state := exec_g_ready hw hr (.inr (.inl ⟨rfl, rfl⟩))

theorem exec_eos_eq : exec .eos s = .next (rleEos s).state := exec_g_ready hw hr (.inr (.inr (.inl ⟨rfl, rfl⟩)))

theorem exec_grsv_eq : exec .grsv s = .next { s with fc := .proto, st := .fault } :=
  exec_g_ready hw hr (.inr (.inr (.inr ⟨rfl, rfl⟩)))

theorem exec_g_opens (h : s.openRun = none) : exec (.g v) s = .next { s with openRun := some ⟨v, 1⟩ } := by
  rw [exec_g_eq hw hr, rleG_opens h]
  rfl

theorem exec_g_extends (h : s.openRun = some r) (hc : r.rc ≠ s.cfg.cntMax) :
    exec (.g r.rv) s = .next { s with openRun := some ⟨r.rv, r.rc + 1⟩ } := by
  rw [exec_g_eq hw hr, rleG_extends h hc]
  rfl

theorem exec_g_overflows (h : s.openRun = some r) (hc : r.rc = s.cfg.cntMax) :
    exec (.g r.rv) s = .next { s with fc := .ovf, st := .fault } := by
  rw [exec_g_eq hw hr, rleG_overflows h hc]
  rfl

theorem exec_g_closes (h : s.openRun = some r) (hv : v ≠ r.rv) (hg : isGlyph r.rv = true) :
    exec (.g v) s = .next { s with openRun := some ⟨v, 1⟩, cv := r.rv, out := s.out ++ chunk r.rv r.rc } := by
  rw [exec_g_eq hw hr, rleG_closes h hv hg, State.ceDone_ready hr]
  rfl

theorem exec_g_invalid (h : s.openRun = some r) (hv : v ≠ r.rv) (hg : isGlyph r.rv = false) :
    exec (.g v) s = .next { s with fc := .inv, st := .fault } := by
  rw [exec_g_eq hw hr, rleG_invalid h hv hg]
  rfl

theorem exec_eof_empty (h : s.openRun = none) : exec .eof s = .next { s with out := s.out ++ [0x00] } := by
  rw [exec_eof_eq hw hr, rleEof_empty h]
  rfl

theorem exec_eof_closes (h : s.openRun = some r) (hg : isGlyph r.rv = true) :
    exec .eof s = .next { s with openRun := none, cv := r.rv, out := s.out ++ chunk r.rv r.rc ++ [0x00] } := by
  rw [exec_eof_eq hw hr, rleEof_closes h hg, State.ceDone_ready hr]
  rfl

theorem exec_eof_invalid (h : s.openRun = some r) (hg : isGlyph r.rv = false) :
    exec .eof s = .next { s with fc := .inv, st := .fault } := by
  rw [exec_eof_eq hw hr, rleEof_invalid h hg]
  rfl

theorem exec_eos_ends (h : s.openRun = none) : exec .eos s = .next { s with out := s.out ++ [0x00], st := .done } := by
  rw [exec_eos_eq hw hr, rleEos_ends h]
  rfl

theorem exec_eos_open (h : s.openRun = some r) : exec .eos s = .next { s with fc := .proto, st := .fault } := by
  rw [exec_eos_eq hw hr, rleEos_open h]
  rfl

end

/-- Settles O27: the five cases of `G`, and the chunk of the rule's example. -/
theorem glyphTokenMeaning : Obligations.GlyphTokenMeaning := by
  refine fun v s => ⟨fun _ => congrArg Except.ok (decodeGT_glyph v), fun hw hr =>
    ⟨exec_g_opens hw hr, ?_, ?_, ?_, ?_, fun h => ⟨128, ?_⟩⟩⟩
  · rintro r h rfl hc
    exact exec_g_extends hw hr h hc
  · rintro r h rfl hc
    exact exec_g_overflows hw hr h hc
  · intro r h hv hlo hhi
    exact ⟨r.rv, exec_g_closes hw hr h hv ((isGlyph_iff r.rv).2 ⟨hlo, hhi⟩)⟩
  · intro r h hv hout
    exact exec_g_invalid hw hr h hv ((isGlyph_eq_false_iff r.rv).2 hout)
  · have hchunk : chunk 128 70 = [0x3F, 0x07] := by decide
    rw [exec_g_closes hw hr h (by decide) (by decide), hchunk]

/-- Settles O28: the three cases of `EOF`, and the chunk of the rule's example. -/
theorem endOfFrameMeaning : Obligations.EndOfFrameMeaning := by
  refine fun s => ⟨fun _ d => congrArg Except.ok (decodeGT_kinds d).1, fun hw hr =>
    ⟨exec_eof_empty hw hr, ?_, ?_, fun h => ⟨191, ?_⟩⟩⟩
  · intro r h hlo hhi
    exact ⟨r.rv, exec_eof_closes hw hr h ((isGlyph_iff r.rv).2 ⟨hlo, hhi⟩)⟩
  · intro r h hout
    exact exec_eof_invalid hw hr h ((isGlyph_eq_false_iff r.rv).2 hout)
  · have hchunk : chunk 191 2 = [0xC2] := by decide
    rw [exec_eof_closes hw hr h (by decide), hchunk, List.append_assoc]
    rfl

/-- Settles O29: the two cases of `EOS`, and the rule's examples run from reset. -/
theorem endOfStreamMeaning : Obligations.EndOfStreamMeaning := fun _ =>
  ⟨fun _ d => congrArg Except.ok (decodeGT_kinds d).2.1,
    fun hw hr => ⟨exec_eos_ends hw hr, fun _ => exec_eos_open hw hr⟩,
    exec_eos_ends (by decide) rfl rfl, 0x80, rfl⟩

/-- Settles O30: the reserved token raises `PROTO` at once, at reset too. -/
theorem reservedTokenRaisesProto : Obligations.ReservedTokenRaisesProto := fun _ =>
  ⟨fun _ d => congrArg Except.ok (decodeGT_kinds d).2.2, exec_grsv_eq, rfl, exec_grsv_eq (by decide) rfl, rfl⟩

/-! ### The glyphs of a frame -/

/-- Feeding a token that answers a next state, and the tokens after it. -/
theorem feed_cons {i : Instr} {s u : State} (h : exec i s = .next u) (is : List Instr) : feed (i :: is) s = feed is u := by
  rw [feed, h]

/-- A block that has stopped takes none of the glyphs fed to it. -/
theorem feed_g_stopped {s t : State} {gs : List Byte} (h : feed (gs.map Instr.g) s = .next t) (hw : s.cfg.wf = true)
    (hst : s.st ≠ .run) : t = s := by
  induction gs with
  | nil =>
    cases h
    rfl
  | cons g rest ih =>
    have hstay : exec (.g g) s = .next s := accept_not_ready hw (State.not_ready_of_stopped hst)
    rw [List.map_cons, feed_cons hstay] at h
    exact ih h

/-- The pairs of `gs` but the last were sent after `out`, and the run register of `t` holds the last (rule R128). -/
def State.HoldsLastPair (t : State) (out gs : List Byte) : Prop :=
  ∃ ps r, rle gs = ps ++ [(r.rv, r.rc)] ∧ t.openRun = some r ∧ t.out = out ++ compact ps

/-- Sending the run ahead of another value is sending the first pair. -/
theorem State.HoldsLastPair.run_append {t : State} {out rest : List Byte} {v : Byte} {n : Nat}
    (h : t.HoldsLastPair (out ++ chunk v (n + 1)) rest) (hv : rest.head? ≠ some v) :
    t.HoldsLastPair out (List.replicate (n + 1) v ++ rest) := by
  obtain ⟨ps, r, hrle, hrun, hout⟩ := h
  refine ⟨(v, n + 1) :: ps, r, ?_, hrun, ?_⟩
  · rw [rle_replicate_append hv, hrle, List.cons_append]
  · rw [hout, compact_cons, List.append_assoc]

/-- Glyphs fed to a run of `n + 1` values `v` without a fault. -/
theorem feed_g_of_open {gs : List Byte} {s t : State} {v : Byte} {n : Nat} (h : feed (gs.map Instr.g) s = .next t)
    (hfc : t.fc = .none) (hw : s.cfg.wf = true) (hr : s.ready = true) (hrun : s.openRun = some ⟨v, n + 1⟩) :
    t.HoldsLastPair s.out (List.replicate (n + 1) v ++ gs) := by
  induction gs generalizing s v n with
  | nil =>
    cases h
    exact ⟨[], ⟨v, n + 1⟩, rle_replicate_append (by simp) n, hrun, (List.append_nil _).symm⟩
  | cons g rest ih =>
    rw [List.map_cons] at h
    by_cases hg : g = v
    · subst hg
      by_cases hc : n + 1 = s.cfg.cntMax
      · rw [feed_cons (exec_g_overflows hw hr hrun hc)] at h
        rw [feed_g_stopped h hw nofun] at hfc
        cases hfc
      · rw [feed_cons (exec_g_extends hw hr hrun hc)] at h
        have hrest := ih h hw hr rfl
        rw [List.append_cons, ← List.replicate_succ']
        exact hrest
    · cases hv : isGlyph v with
      | false =>
        rw [feed_cons (exec_g_invalid hw hr hrun hg hv)] at h
        rw [feed_g_stopped h hw nofun] at hfc
        cases hfc
      | true =>
        rw [feed_cons (exec_g_closes hw hr hrun hg hv)] at h
        exact (ih (n := 0) h hw hr rfl).run_append (by simpa using hg)

/-- Settles O31: the first glyph opens a run, and the others are `feed_g_of_open`. -/
theorem runRegisterHoldsLastPair : Obligations.RunRegisterHoldsLastPair := by
  intro s t gs hs h hfc
  have hr : s.ready = true := State.ready_iff.2 ⟨hs.rst, hs.st, hs.crem, hs.clit⟩
  refine ⟨?_, fun hgs => ?_⟩
  · rintro rfl
    cases h
    exact ⟨hs.closed, rfl⟩
  · obtain ⟨g, rest, rfl⟩ := List.exists_cons_of_ne_nil hgs
    rw [List.map_cons, feed_cons (exec_g_opens hs.cfgOk hr hs.closed)] at h
    have hlast := feed_g_of_open (n := 0) h hfc hs.cfgOk hr rfl
    exact hlast

end Sys2Proof.Machine

/-! ## Proofs: the compact-encoder stage (O32, O33, O34, O35, O36, O37, O39) -/

namespace Sys2Proof.Machine

/-! ### The micro-steps, and the bytes owed -/

theorem State.ceIdle_iff {s : State} : s.ceIdle = true ↔ s.crem = 0 ∧ s.clit = 0 := by simp [State.ceIdle]

/-- A busy compact encoder continues a literal chunk or starts a chunk, and never may do both (rules R143, R144). -/
theorem State.ceIdle_eq_false_iff {s : State} : s.ceIdle = false ↔ 0 < s.clit ∨ (s.clit = 0 ∧ 0 < s.crem) := by
  rw [← Bool.not_eq_true, State.ceIdle_iff]
  omega

theorem isSpecial_eq_false_iff {v : Byte} : isSpecial v = false ↔ v ≠ 128 ∧ v ≠ 191 := by
  rw [← Bool.not_eq_true, isSpecial_iff, not_or]
  rfl

theorem isLiteralChunk_iff {v : Byte} {n : Nat} : isLiteralChunk v n = true ↔ n = 1 ∨ (v ≠ 128 ∧ v ≠ 191) := by
  rw [← isSpecial_eq_false_iff]
  simp [isLiteralChunk]

theorem isLiteralChunk_special {v : Byte} {n : Nat} (hv : isSpecial v = true) (hn : n ≠ 1) :
    isLiteralChunk v n = false := by
  simp [isLiteralChunk, hv, hn]

theorem microStep_continues {s : State} (hlit : 0 < s.clit) : microStep s = continueChunk s := if_pos hlit

theorem microStep_starts {s : State} (hlit : s.clit = 0) (hrem : 0 < s.crem) : microStep s = startChunk s := by
  simp [microStep, hlit, hrem]

theorem microStep_idle {s : State} (hidle : s.ceIdle = true) : microStep s = s := by
  obtain ⟨hrem, hlit⟩ := State.ceIdle_iff.1 hidle
  simp [microStep, hrem, hlit]

theorem startChunk_literal {s : State} (h : isLiteralChunk s.cv (chunkLen s.crem) = true) :
    startChunk s = (s.setCe s.cv (s.crem - chunkLen s.crem) (chunkLen s.crem - 1)).emit s.cv := if_pos h

theorem startChunk_run {s : State} (h : isLiteralChunk s.cv (chunkLen s.crem) = false) :
    startChunk s = (s.setCe s.cv (s.crem - chunkLen s.crem) s.clit).emit (runByte s.cv (chunkLen s.crem)) :=
  if_neg (Bool.eq_false_iff.1 h)

/-- A micro-step of a busy compact encoder emits one byte, lowers `crem + clit` and changes no other register. -/
theorem microStep_busy {s : State} (hbusy : s.ceIdle = false) :
    ∃ rem lit b, microStep s = (s.setCe s.cv rem lit).emit b ∧ rem + lit < s.crem + s.clit := by
  obtain hlit | ⟨hlit, hrem⟩ := State.ceIdle_eq_false_iff.1 hbusy
  · exact ⟨s.crem, s.clit - 1, s.cv, microStep_continues hlit, by omega⟩
  · have hpos := chunkLen_pos hrem
    have hle := chunkLen_le s.crem
    rw [microStep_starts hlit hrem]
    cases h : isLiteralChunk s.cv (chunkLen s.crem) with
    | true => exact ⟨_, _, _, startChunk_literal h, by omega⟩
    | false => exact ⟨_, _, _, startChunk_run h, by omega⟩

/-- The bytes the compact encoder still owes: the literals of the current chunk, and the chunks of what remains. -/
def State.owed (s : State) : List Byte := List.replicate s.clit s.cv ++ chunk s.cv s.crem

/-- `s` with the bytes it owes emitted. -/
def State.served (s : State) : State := s.ceDone s.cv s.owed

theorem State.owed_eq_nil_iff {s : State} : s.owed = [] ↔ s.ceIdle = true := by
  rw [State.owed, List.append_eq_nil_iff, List.replicate_eq_nil_iff, State.ceIdle_iff]
  refine ⟨fun ⟨hlit, hrem⟩ => ⟨?_, hlit⟩, fun ⟨hrem, hlit⟩ => ⟨hlit, by rw [hrem, chunk_zero]⟩⟩
  by_contra h
  exact chunk_ne_nil s.cv (Nat.pos_of_ne_zero h) hrem

theorem State.served_of_idle {s : State} (hidle : s.ceIdle = true) : s.served = s := by
  obtain ⟨hrem, hlit⟩ := State.ceIdle_iff.1 hidle
  rw [State.served, State.owed_eq_nil_iff.2 hidle]
  cases s
  simp_all [State.ceDone]

/-- A micro-step is on the way to the state in which the loop of rule R142 ends (`drain_eq`). -/
theorem served_microStep (s : State) : (microStep s).served = s.served := by
  cases hidle : s.ceIdle with
  | true => rw [microStep_idle hidle]
  | false =>
    obtain ⟨rem, lit, b, hstep, hlt⟩ := microStep_busy hidle
    obtain ⟨n, hn⟩ := Nat.exists_eq_add_one_of_ne_zero (Nat.ne_of_gt (Nat.zero_lt_of_lt hlt))
    have hfuel : (microStep s).crem + (microStep s).clit ≤ n := by
      rw [hstep]
      exact Nat.le_of_lt_succ (hlt.trans_eq hn)
    have hdrain : drain (n + 1) s = drain n (microStep s) := by simp [drain, hidle]
    calc (microStep s).served = drain n (microStep s) := (drain_eq n _ hfuel).symm
      _ = drain (n + 1) s := hdrain.symm
      _ = s.served := drain_eq (n + 1) s (Nat.le_of_eq hn)

/-- A micro-step emits the first byte owed. -/
theorem owed_microStep (s : State) : (microStep s).owed = s.owed.tail := by
  cases hidle : s.ceIdle with
  | true => rw [microStep_idle hidle, State.owed_eq_nil_iff.2 hidle, List.tail_nil]
  | false =>
    obtain ⟨rem, lit, b, hstep, -⟩ := microStep_busy hidle
    have hout : (microStep s).out ++ (microStep s).owed = s.out ++ s.owed := congrArg State.out (served_microStep s)
    have hemit : (microStep s).out = s.out ++ [b] := by rw [hstep]; rfl
    rw [hemit, List.append_assoc, List.append_cancel_left_eq] at hout
    rw [← hout]
    rfl

theorem owed_iterate_microStep (s : State) (k : Nat) : (microStep^[k] s).owed = s.owed.drop k := by
  induction k with
  | zero => rfl
  | succ k ih => rw [Function.iterate_succ_apply', owed_microStep, ih, List.tail_drop]

theorem served_iterate_microStep (s : State) (k : Nat) : (microStep^[k] s).served = s.served := by
  induction k with
  | zero => rfl
  | succ k ih => rw [Function.iterate_succ_apply', served_microStep, ih]

/-- As many micro-steps as there are bytes owed emit those bytes and leave the compact encoder idle. -/
theorem iterate_microStep_owed (s : State) : microStep^[s.owed.length] s = s.served := by
  have hidle : (microStep^[s.owed.length] s).ceIdle = true := by
    rw [← State.owed_eq_nil_iff, owed_iterate_microStep, List.drop_length]
  rw [← served_iterate_microStep s s.owed.length, State.served_of_idle hidle]

/-- Fewer leave it busy. -/
theorem iterate_microStep_busy {s : State} {k : Nat} (hk : k < s.owed.length) : (microStep^[k] s).ceIdle = false := by
  rw [← Bool.not_eq_true, ← State.owed_eq_nil_iff, owed_iterate_microStep, List.drop_eq_nil_iff]
  omega

/-- In `RUN`, with no byte for the reference decoder, the steps of a busy compact encoder are its micro-steps. -/
theorem run_eq_iterate_microStep {s : State} {k : Nat} (hw : s.cfg.wf = true) (hrst : s.rst = false) (hst : s.st = .run)
    (hdec : s.dec.verdict = .running → ∀ b bs, s.dec.input ≠ some (b :: bs)) (hk : k ≤ s.owed.length) :
    Host.Core.run core k s = .next (microStep^[k] s) := by
  induction k generalizing s with
  | zero => rfl
  | succ k ih =>
    have hbusy : s.ceIdle = false := iterate_microStep_busy (k := 0) (by omega)
    have hrest : k ≤ (microStep s).owed.length := by
      rw [owed_microStep, List.length_tail]
      omega
    obtain ⟨rem, lit, b, hstep, -⟩ := microStep_busy hbusy
    rw [run_step k (step_busy hw hrst hst hbusy (fetchByte_eq_none.2 hdec)), Function.iterate_succ_apply]
    rw [hstep] at hrest ⊢
    exact ih hw hrst hst hdec hrest

/-- Settles O33: the branches of a micro-step, and from an accepted pair the bytes owed are `chunk(v, c)`. -/
theorem microStepsSerialiseChunk : Obligations.MicroStepsSerialiseChunk := by
  refine ⟨fun s => State.ceIdle_eq_false_iff, fun s => microStep_continues, ?_, fun s => microStep_idle,
    fun v c s _ => ⟨iterate_microStep_owed { s with cv := v, crem := c, clit := 0 },
      fun k hk => iterate_microStep_busy hk⟩, ?_⟩
  · intro s hlit hrem n
    rw [microStep_starts hlit hrem]
    refine ⟨fun h => startChunk_literal (isLiteralChunk_iff.2 h), fun hn hcv => ?_, fun hn hcv => ?_⟩
    · rw [startChunk_run (isLiteralChunk_special (by rw [hcv]; decide) hn), hcv]
      rfl
    · rw [startChunk_run (isLiteralChunk_special (by rw [hcv]; decide) hn), hcv]
      rfl
  · intro s hw hrst hst hdec
    refine ⟨fun hbusy => step_busy hw hrst hst hbusy (fetchByte_eq_none.2 hdec), fun v c _ => ?_⟩
    have hrun := run_eq_iterate_microStep (s := { s with cv := v, crem := c, clit := 0 }) hw hrst hst hdec (Nat.le_refl _)
    rw [iterate_microStep_owed] at hrun
    exact hrun

/-! ### The bytes of a pair in closed form -/

theorem piece_literal {v : Byte} {n : Nat} (h : n = 1 ∨ (v ≠ 128 ∧ v ≠ 191)) : piece v n = List.replicate n v :=
  if_pos (isLiteralChunk_iff.2 h)

theorem chunk_one (v : Byte) : chunk v 1 = [v] := rfl

/-- Settles O34: `chunk_pos` cuts off one chunk, and a piece is its literals or its run byte. -/
theorem chunkEquations : Obligations.ChunkEquations := by
  refine fun v _ => ⟨chunk_zero v, fun c => chunk_pos, fun n => piece_literal, fun n hn hv => ?_, fun n hn hv => ?_⟩
  · subst hv
    exact piece_run (by decide) (by omega)
  · subst hv
    exact piece_run (by decide) (by omega)

/-- A glyph that is not special has no runs (rule R149). -/
theorem chunk_not_special {v : Byte} (hv : isSpecial v = false) (c : Nat) : chunk v c = List.replicate c v := by
  have hpiece : ∀ n, piece v n = List.replicate n v := fun n => if_pos (by simp [isLiteralChunk, hv])
  induction c using Nat.strongRecOn with
  | ind c ih =>
    obtain rfl | hc := Nat.eq_zero_or_pos c
    · rfl
    · have hpos := chunkLen_pos hc
      rw [chunk_pos hc, hpiece, ih (c - chunkLen c) (by omega), List.replicate_append_replicate,
        Nat.add_sub_cancel' (chunkLen_le c)]

/-- The longest runs of a special glyph come first (rule R149). -/
theorem chunk_longest_runs {v : Byte} (hv : isSpecial v = true) (q r : Nat) :
    chunk v (63 * q + r) = List.replicate q (runByte v 63) ++ chunk v r := by
  induction q with
  | zero => rw [Nat.mul_zero, Nat.zero_add, List.replicate_zero, List.nil_append]
  | succ q ih =>
    have hlen : chunkLen (63 * (q + 1) + r) = 63 := Nat.min_eq_right (show 63 ≤ 63 * (q + 1) + r by omega)
    have hrest : 63 * (q + 1) + r - 63 = 63 * q + r := by omega
    rw [chunk_pos (by omega), hlen, piece_run hv (by decide), hrest, ih]
    rfl

/-- More than one special glyph, and no more than the longest run, is one run byte. -/
theorem chunk_run {v : Byte} {n : Nat} (hv : isSpecial v = true) (hn : 2 ≤ n) (hle : n ≤ 63) :
    chunk v n = [runByte v n] := by
  rw [chunk_of_le_maxRun (by omega) hle, piece_run hv (by omega)]

/-- The run byte as a number: setting the tag is adding `0xC0` (rule R73). -/
theorem runByte_eq_ofNat {v : Byte} {n : Nat} (hv : isSpecial v = true) (hn : n ≤ 63) :
    runByte v n = BitVec.ofNat 8 (if v = 128 then n else 192 + n) := by
  obtain rfl | rfl := isSpecial_iff.1 hv
  · rfl
  · refine BitVec.eq_of_toNat_eq ?_
    rw [runByte_full_toNat n hn]
    exact (Nat.mod_eq_of_lt (show 192 + n < 256 by omega)).symm

/-- Settles O35: the longest runs, then the bytes of the remainder. -/
theorem chunkClosedForm : Obligations.ChunkClosedForm := by
  intro v q r _ hr
  refine ⟨fun hblank hfull => chunk_not_special (isSpecial_eq_false_iff.2 ⟨hblank, hfull⟩) _, ?_⟩
  intro hspecial runOf
  have hv : isSpecial v = true := isSpecial_iff.2 hspecial
  have hrunOf : ∀ n ≤ 63, runByte v n = runOf n := fun n hn => runByte_eq_ofNat hv hn
  rw [chunk_longest_runs hv, hrunOf 63 (by decide)]
  refine ⟨?_, ?_, fun h2 => ?_⟩
  · rintro rfl
    rw [chunk_zero, List.append_nil]
  · rintro rfl
    rw [chunk_one]
  · rw [chunk_run hv h2 (by omega), hrunOf r (by omega)]

/-! ### Byte counts -/

/-- The bytes of a special glyph's pair: one for each run of 63 and one for a remainder (rule R151). -/
theorem length_chunk_special {v : Byte} (hv : isSpecial v = true) (c : Nat) : (chunk v c).length = (c + 62) / 63 := by
  have hlt : c % 63 < 63 := Nat.mod_lt c (by decide)
  have hrest : (chunk v (c % 63)).length = min (c % 63) 1 := by
    obtain h | h | h : c % 63 = 0 ∨ c % 63 = 1 ∨ 2 ≤ c % 63 := by omega
    · rw [h]
      rfl
    · rw [h]
      rfl
    · rw [chunk_run hv h (by omega), List.length_singleton]
      omega
  have hcut := chunk_longest_runs hv (c / 63) (c % 63)
  rw [Nat.div_add_mod] at hcut
  rw [hcut, List.length_append, List.length_replicate, hrest]
  omega

theorem length_chunk_not_special {v : Byte} (hv : isSpecial v = false) (c : Nat) : (chunk v c).length = c := by
  rw [chunk_not_special hv, List.length_replicate]

/-- No byte of a pair stands for more than 63 cells. -/
theorem le_length_chunk (v : Byte) (c : Nat) : c ≤ 63 * (chunk v c).length := by
  cases hv : isSpecial v with
  | true => rw [length_chunk_special hv]; omega
  | false => rw [length_chunk_not_special hv]; omega

theorem sum_counts_le_length_compact (ps : List (Byte × Nat)) : (ps.map (·.2)).sum ≤ 63 * (compact ps).length := by
  rw [compact, List.length_flatMap, ← List.sum_map_mul_left]
  exact List.sum_le_sum fun p _ => le_length_chunk p.1 p.2

/-- A record has a byte for every 63 glyphs at least, and its terminator. -/
theorem le_length_encodeFrame (gs : List Byte) : (gs.length + 62) / 63 + 1 ≤ (encodeFrame gs).length := by
  have hlen := sum_counts_le_length_compact (rle gs)
  rw [sum_counts_rle] at hlen
  rw [encodeFrame, List.length_append, List.length_singleton]
  omega

/-- Settles O36: the counts of a pair by its kind of glyph, and the two bounds of a record. -/
theorem byteCounts : Obligations.ByteCounts := by
  refine ⟨fun v c _ hv => length_chunk_not_special hv c, fun v c hv => length_chunk_special hv c,
    fun gs _ _ => ⟨le_length_encodeFrame gs, length_encodeFrame_le gs⟩, fun gs _ hlen => ?_, rfl⟩
  have hle := le_length_encodeFrame gs
  have hge := length_encodeFrame_le gs
  rw [hlen] at hle hge
  exact ⟨hle, hge⟩

/-! ### What a byte of a pair is, and how it is read back -/

/-- The fields of a blank run byte. -/
theorem runByte_blank_fields : ∀ n ≤ 63,
    cbTag (runByte glyphBlank n) = 0 ∧ (cbLen (runByte glyphBlank n)).toNat = n := by decide

/-- The fields of a full run byte. -/
theorem runByte_full_fields : ∀ n ≤ 63,
    cbTag (runByte glyphFull n) = 3 ∧ (cbLen (runByte glyphFull n)).toNat = n := by decide

theorem cbTag_of_isGlyph {v : Byte} (hv : isGlyph v = true) : cbTag v = 2 := of_decide_eq_true hv

/-- A byte of a glyph's pair is a literal or a run byte of length 2 to 63 (rule R150). -/
theorem fields_of_mem_chunk {v b : Byte} {c : Nat} (hv : isGlyph v = true) (hb : b ∈ chunk v c) :
    cbTag b = 2 ∨ (cbTag b = 0 ∨ cbTag b = 3) ∧ 2 ≤ (cbLen b).toNat ∧ (cbLen b).toNat ≤ 63 := by
  obtain ⟨n, hpos, hle, hb⟩ := mem_chunk c hb
  obtain rfl | ⟨hn, hs, rfl⟩ := mem_piece hb
  · exact .inl (cbTag_of_isGlyph hv)
  · obtain rfl | rfl := isSpecial_iff.1 hs
    · obtain ⟨htag, hlen⟩ := runByte_blank_fields n hle
      exact .inr ⟨.inl htag, by omega⟩
    · obtain ⟨htag, hlen⟩ := runByte_full_fields n hle
      exact .inr ⟨.inr htag, by omega⟩

theorem decodeFrameLoop_literal {v : Byte} (hv : isGlyph v = true) (cells bs : List Byte) :
    decodeFrameLoop cells (v :: bs) = decodeFrameLoop (cells ++ [v]) bs := by
  have htag : cbTag v = 2 := cbTag_of_isGlyph hv
  have hend : v ≠ 0x00 := ne_of_apply_ne cbTag (by rw [htag]; decide)
  rw [decodeFrameLoop, if_neg hend, if_neg (by rw [htag]; decide), if_pos htag]

theorem decodeFrameLoop_run {v : Byte} {n : Nat} (hv : isSpecial v = true) (hpos : 1 ≤ n) (hle : n ≤ 63)
    (cells bs : List Byte) :
    decodeFrameLoop cells (runByte v n :: bs) = decodeFrameLoop (cells ++ List.replicate n v) bs := by
  obtain rfl | rfl := isSpecial_iff.1 hv
  · obtain ⟨htag, hlen⟩ := runByte_blank_fields n hle
    have hend : runByte glyphBlank n ≠ 0x00 := fun h => by
      rw [h] at hlen
      exact Nat.ne_of_lt hpos hlen
    rw [decodeFrameLoop, if_neg hend, if_pos htag, hlen]
  · obtain ⟨htag, hlen⟩ := runByte_full_fields n hle
    have hend : runByte glyphFull n ≠ 0x00 := ne_of_apply_ne cbTag (by rw [htag]; decide)
    have hrsv : runByte glyphFull n ≠ 0xC0 := fun h => by
      rw [h] at hlen
      exact Nat.ne_of_lt hpos hlen
    rw [decodeFrameLoop, if_neg hend, if_neg (by rw [htag]; decide), if_neg (by rw [htag]; decide),
      if_pos ⟨htag, hrsv⟩, hlen]

theorem decodeFrameLoop_literals {v : Byte} (hv : isGlyph v = true) (n : Nat) (cells bs : List Byte) :
    decodeFrameLoop cells (List.replicate n v ++ bs) = decodeFrameLoop (cells ++ List.replicate n v) bs := by
  induction n generalizing cells with
  | zero => rw [List.replicate_zero, List.nil_append, List.append_nil]
  | succ n ih =>
    rw [List.replicate_succ, List.cons_append, decodeFrameLoop_literal hv, ih, List.append_assoc, List.singleton_append]

/-- Each chunk is read back as its cells. -/
theorem decodeFrameLoop_piece {v : Byte} {n : Nat} (hv : isGlyph v = true) (hpos : 1 ≤ n) (hle : n ≤ 63)
    (cells bs : List Byte) :
    decodeFrameLoop cells (piece v n ++ bs) = decodeFrameLoop (cells ++ List.replicate n v) bs := by
  unfold piece
  split
  · exact decodeFrameLoop_literals hv n cells bs
  · rename_i hrun
    obtain ⟨-, hs⟩ : n ≠ 1 ∧ isSpecial v = true := by simpa [isLiteralChunk] using hrun
    exact decodeFrameLoop_run hs hpos hle cells bs

/-- The bytes of a pair are read back as its cells (rule R150 (f)). -/
theorem decodeFrameLoop_chunk {v : Byte} (hv : isGlyph v = true) (c : Nat) (cells bs : List Byte) :
    decodeFrameLoop cells (chunk v c ++ bs) = decodeFrameLoop (cells ++ List.replicate c v) bs := by
  induction c using Nat.strongRecOn generalizing cells with
  | ind c ih =>
    obtain rfl | hc := Nat.eq_zero_or_pos c
    · rw [chunk_zero, List.nil_append, List.replicate_zero, List.append_nil]
    · have hpos := chunkLen_pos hc
      rw [chunk_pos hc, List.append_assoc, decodeFrameLoop_piece hv hpos (Nat.min_le_right _ _),
        ih (c - chunkLen c) (by omega), List.append_assoc, List.replicate_append_replicate,
        Nat.add_sub_cancel' (chunkLen_le c)]

/-- Settles O37: properties (a), (b) and (e) by the fields of a byte of the pair. -/
theorem emittedByteProperties : Obligations.EmittedByteProperties := by
  intro v c hv _
  refine ⟨fun hzero => (emittable_of_mem_chunk hv hzero).2 rfl, fun b hb htag => ?_, fun hs => chunk_not_special hs c, ?_,
    fun b hb => ?_, fun t => ?_⟩
  · obtain hlit | ⟨-, hlen⟩ := fields_of_mem_chunk hv hb
    · rw [hlit] at htag
      exact absurd htag (by decide)
    · exact hlen
  · rintro rfl
    exact chunk_one v
  · obtain ⟨-, -, hrsv1, -, hrsvf0, -⟩ := compactByteClassesPartition b
    rw [Ne, Ne, hrsv1, hrsvf0, byte_eq_rsvf0_iff]
    obtain htag | ⟨htag | htag, hlen, -⟩ := fields_of_mem_chunk hv hb
    · simp [htag]
    · simp [htag]
    · refine ⟨by simp [htag], ?_⟩
      rintro ⟨-, h0⟩
      rw [h0] at hlen
      exact absurd hlen (by decide)
  · rw [decodeFrame, decodeFrameLoop_chunk hv]
    rfl

/-! ### The P tokens that the block takes -/

section
variable {s : State} (hw : s.cfg.wf = true) (hr : s.ready = true)
include hw hr

theorem exec_pair_glyph {v : Byte} (hv : isGlyph v = true) (c : Nat) :
    exec (.pair v c) s = .next { s with cv := v, out := s.out ++ chunk v c } := by
  have hrun : exec (.pair v c) s = .next (cePair v c s).state := accept_ready hw hr
  rw [hrun, cePair_glyph hv, Flow.state_goes, State.ceDone_ready hr]

theorem exec_pair_invalid {v : Byte} (hv : isGlyph v = false) (c : Nat) :
    exec (.pair v c) s = .next { s with fc := .inv, st := .fault } := by
  have hrun : exec (.pair v c) s = .next (cePair v c s).state := accept_ready hw hr
  rw [hrun, cePair_not_glyph hv]
  rfl

theorem exec_meof_ready : exec .meof s = .next { s with out := s.out ++ [0x00] } := accept_ready hw hr

theorem exec_meos_ready : exec .meos s = .next { s with out := s.out ++ [0x00], st := .done } := accept_ready hw hr

end

/-- Settles O32: the two outcomes of `cePair`, and the bytes of the rule's examples. -/
theorem pairTokenMeaning : Obligations.PairTokenMeaning := by
  refine fun v c s hw hr => ⟨fun cntW hc => decodePT_pair v hc, fun htag => ?_, fun htag => ?_,
    ⟨chunk_zero v, chunk_one v⟩, by decide, by decide⟩
  · exact exec_pair_glyph hw hr (decide_eq_true htag) c
  · exact exec_pair_invalid hw hr (decide_eq_false htag) c

/-- Settles O39: `decodePT_kind` for the words, and the bytes of the two tokens; in the example `cv` is left at 191. -/
theorem terminatorTokensMeaning : Obligations.TerminatorTokensMeaning := by
  refine ⟨fun cntW x hx => ⟨?_, decodePT_kind 2 hx (by decide)⟩, fun s hw hr =>
    ⟨exec_meof_ready hw hr, exec_meos_ready hw hr, 191, ?_⟩, exec_meos_ready (by decide) rfl⟩
  · have hkind := decodePT_kind 1 hx (by decide)
    rw [Nat.one_mul] at hkind
    exact hkind
  · have hchunk : chunk 191 2 = [0xC2] := by decide
    have hpair : exec (.pair 191 2) s = .next { s with cv := 191, out := s.out ++ [0xC2] } :=
      hchunk ▸ exec_pair_glyph hw hr (by decide) 2
    have hmeof := exec_meof_ready (s := { s with cv := 191, out := s.out ++ [0xC2] }) hw hr
    rw [feed_cons hpair, feed_cons hmeof, feed, List.append_assoc]
    rfl

end Sys2Proof.Machine

/-! ## Proofs: the compact-byte classes and the reference decoder (O40, O41, O42, O43, O44, O45, O46, O60) -/

namespace Sys2Proof.Machine

/-! ### The compact round trip -/

/-- What the loop of `decode_stream` makes of the frame it has decoded, with the frames before it (rule R167). -/
def FrameResult.inStream (k : Nat) (frames : List (List Byte)) : FrameResult → StreamResult
  | .invalid => .invalid
  | .truncated => .truncated
  | .frame cells rest => if cells = [] then .frames frames rest else decodeStreamLoop k (frames ++ [cells]) rest

theorem decodeStreamLoop_succ (k : Nat) (frames : List (List Byte)) (bs : List Byte) :
    decodeStreamLoop (k + 1) frames bs = (decodeFrame bs).inStream k frames := by
  rw [decodeStreamLoop]
  cases decodeFrame bs <;> rfl

/-- The bytes of pairs of glyph codes are read back as the cells the pairs expand to. -/
theorem decodeFrameLoop_compact {ps : List (Byte × Nat)} (hps : ∀ p ∈ ps, isGlyph p.1 = true) (cells bs : List Byte) :
    decodeFrameLoop cells (compact ps ++ bs) = decodeFrameLoop (cells ++ expandPairs ps) bs := by
  induction ps generalizing cells with
  | nil => rw [compact_nil, List.nil_append, expandPairs_nil, List.append_nil]
  | cons p ps ih =>
    obtain ⟨v, c⟩ := p
    obtain ⟨hv, hrest⟩ := List.forall_mem_cons.1 hps
    rw [compact_cons, List.append_assoc, decodeFrameLoop_chunk hv, ih hrest, expandPairs_cons, List.append_assoc]

/-- The frame form of rule R168. -/
theorem decodeFrame_encodeFrame {gs : List Byte} (hgs : AllGlyphs gs) (t : List Byte) :
    decodeFrame (encodeFrame gs ++ t) = .frame gs t := by
  have hps : ∀ p ∈ rle gs, isGlyph p.1 = true := fun p hp => hgs p.1 (mem_of_mem_rle hp)
  rw [decodeFrame, encodeFrame, List.append_assoc, decodeFrameLoop_compact hps, expandPairs_rle]
  rfl

theorem encodeStream_cons (f : List Byte) (fs : List (List Byte)) :
    encodeStream (f :: fs) = encodeFrame f ++ encodeStream fs := by
  simp [encodeStream]

/-- The stream form of rule R168, for any fuel that lasts and after any frames. -/
theorem decodeStreamLoop_encodeStream {fs : List (List Byte)} (hfs : ∀ f ∈ fs, AllGlyphs f) (hne : ∀ f ∈ fs, f ≠ [])
    {k : Nat} (hk : (encodeStream fs).length ≤ k) (frames : List (List Byte)) :
    decodeStreamLoop k frames (encodeStream fs) = .frames (frames ++ fs) [] := by
  induction fs generalizing k frames with
  | nil =>
    obtain ⟨k, rfl⟩ := Nat.exists_eq_add_of_le' hk
    rw [List.append_nil]
    rfl
  | cons f fs ih =>
    obtain ⟨hf, hfs⟩ := List.forall_mem_cons.1 hfs
    obtain ⟨hfne, hne⟩ := List.forall_mem_cons.1 hne
    have hrecord := two_le_length_encodeFrame hfne
    rw [encodeStream_cons] at hk ⊢
    rw [List.length_append] at hk
    obtain ⟨k, rfl⟩ := Nat.exists_eq_add_of_le' (show 1 ≤ k by omega)
    rw [decodeStreamLoop_succ, decodeFrame_encodeFrame hf, FrameResult.inStream, if_neg hfne, ih hfs hne (by omega),
      List.append_assoc, List.singleton_append]

/-- Settles O45: the pairs of `rle` expand to the frame, and the stream is read frame by frame. -/
theorem compactRoundTrip : Obligations.CompactRoundTrip :=
  ⟨fun _ t hgs => decodeFrame_encodeFrame hgs t,
    fun _ hfs hne => decodeStreamLoop_encodeStream hfs hne (Nat.le_succ _) []⟩

/-! ### Terminator safety -/

/-- A record has one terminator. -/
theorem count_zero_encodeFrame {gs : List Byte} (hgs : AllGlyphs gs) : (encodeFrame gs).count 0x00 = 1 := by
  have hbody : (compact (rle gs)).count 0x00 = 0 :=
    List.count_eq_zero.2 fun hzero => (emittable_of_mem_compact hgs hzero).2 rfl
  rw [encodeFrame, List.count_append, hbody]
  rfl

/-- A stream has one terminator for each frame, and its own. -/
theorem count_zero_encodeStream {fs : List (List Byte)} (hfs : ∀ f ∈ fs, AllGlyphs f) :
    (encodeStream fs).count 0x00 = fs.length + 1 := by
  induction fs with
  | nil => rfl
  | cons f fs ih =>
    obtain ⟨hf, hfs⟩ := List.forall_mem_cons.1 hfs
    rw [encodeStream_cons, List.count_append, count_zero_encodeFrame hf, ih hfs, List.length_cons, Nat.add_comm]

/-- Settles O46: no byte of a pair is a terminator, so the two counts are those of the appended ones. -/
theorem terminatorSafety : Obligations.TerminatorSafety :=
  ⟨fun _ hgs => ⟨count_zero_encodeFrame hgs, List.getLast?_concat⟩,
    fun _ hfs => ⟨count_zero_encodeStream hfs, List.getLast?_concat, by rw [encodeStream, List.flatMap_def]⟩⟩

/-! ### The byte ranges of the classes -/

/-- A byte as the number its two fields make (rule R71). -/
theorem toNat_eq_fields : ∀ b : Byte, b.toNat = 64 * (cbTag b).toNat + (cbLen b).toNat := by decide

theorem decodeCB_blank_range {b : Byte} (hpos : 1 ≤ b.toNat) (hle : b.toNat ≤ 0x3F) :
    decodeCB b = .blk (cbLen b) ∧ (cbLen b).toNat = b.toNat := by
  have hfields := toNat_eq_fields b
  obtain ⟨-, hblk, -⟩ := compactByteClassesPartition b
  exact ⟨hblk.2 ⟨by bv_omega, by bv_omega⟩, by omega⟩

theorem decodeCB_reserved_range {b : Byte} (hge : 0x40 ≤ b.toNat) (hle : b.toNat ≤ 0x7F) : decodeCB b = .rsv1 := by
  have hfields := toNat_eq_fields b
  obtain ⟨-, -, hrsv1, -⟩ := compactByteClassesPartition b
  exact hrsv1.2 (by bv_omega)

theorem decodeCB_literal_range {b : Byte} (hge : 0x80 ≤ b.toNat) (hle : b.toNat ≤ 0xBF) : decodeCB b = .lit b :=
  decodeCB_lit b (cbTag_of_isGlyph ((isGlyph_iff b).2 ⟨hge, hle⟩))

theorem decodeCB_full_range {b : Byte} (hge : 0xC1 ≤ b.toNat) :
    decodeCB b = .ful (cbLen b) ∧ (cbLen b).toNat = b.toNat - 0xC0 := by
  have hfields := toNat_eq_fields b
  have hlt := b.isLt
  obtain ⟨-, -, -, -, -, hful, -⟩ := compactByteClassesPartition b
  exact ⟨hful.2 ⟨by bv_omega, by bv_omega⟩, by omega⟩

/-- A byte the encoder can emit is in no reserved class (rules R77, R165). -/
theorem not_reserved_of_emittable {b : Byte} (hb : emittable b = true) : decodeCB b ≠ .rsv1 ∧ decodeCB b ≠ .rsvf0 := by
  have hfields := toNat_eq_fields b
  obtain ⟨-, -, hrsv1, -, hrsvf0, -⟩ := compactByteClassesPartition b
  rw [emittable_iff] at hb
  rw [Ne, Ne, hrsv1, hrsvf0]
  exact ⟨by bv_omega, by bv_omega⟩

/-! ### What a byte does to a running reference decoder -/

/-- A running reference decoder reads the byte it is offered. -/
theorem decoderTakes_running {s : State} (h : s.dec.verdict = .running) (d : RefDecoder) :
    decoderTakes s d = .next (s.setDec d) := if_pos h

/-- `END` with cells ends the frame. -/
theorem RefDecoder.endFrame_of_ne {d : RefDecoder} (h : d.cells ≠ []) :
    d.endFrame = { d with frames := d.frames ++ [d.cells], cells := [] } := if_neg h

/-- `END` without cells ends the stream. -/
theorem RefDecoder.endFrame_of_eq {d : RefDecoder} (h : d.cells = []) : d.endFrame = { d with verdict := .complete } :=
  if_pos h

/-- Settles O40: the ranges by the byte's fields, and each class appends its cells. -/
theorem runAndLiteralBytesExtendCells : Obligations.RunAndLiteralBytesExtendCells :=
  ⟨fun _ => ⟨decodeCB_blank_range, decodeCB_literal_range, decodeCB_full_range⟩,
    fun _ h => ⟨fun _ => decoderTakes_running h _, fun _ => decoderTakes_running h _, fun _ => decoderTakes_running h _⟩⟩

/-- Settles O41: the two branches of `RefDecoder.endFrame`. -/
theorem endByteEndsFrameOrStream : Obligations.EndByteEndsFrameOrStream := by
  refine ⟨rfl, fun s h => ⟨fun hcells => ?_, fun hcells => ?_⟩, by decide⟩
  · rw [← RefDecoder.endFrame_of_ne hcells]
    exact decoderTakes_running h _
  · rw [← RefDecoder.endFrame_of_eq hcells]
    exact decoderTakes_running h _

/-- A reserved byte stops a running reference decoder. -/
theorem exec_reserved {i : Instr} (hi : i ∈ [Instr.rsv1, .rsvf0]) {s : State} (h : s.dec.verdict = .running) :
    exec i s = .next (s.setDec (s.dec.stop .invalid)) := by
  obtain rfl | rfl : i = .rsv1 ∨ i = .rsvf0 := by simpa using hi
  · exact decoderTakes_running h _
  · exact decoderTakes_running h _

/-- Settles O42: `RefDecoder.stop` drops the frames, and every byte of a record is emittable (O38). -/
theorem reservedBytesAreInvalid : Obligations.ReservedBytesAreInvalid := by
  refine ⟨fun _ => decodeCB_reserved_range, rfl, fun s h i hi => ⟨_, exec_reserved hi h, rfl, rfl, rfl, rfl⟩,
    fun gs hgs b hb => not_reserved_of_emittable ?_⟩
  obtain ⟨hrecords, -⟩ := emittableBytesExactly
  exact (hrecords gs hgs).1 b hb

/-- Settles O60: a compact byte sets the decoder, to one with the same unread bytes, or changes nothing. -/
theorem byteClassesFrame : Obligations.ByteClassesFrame := by
  intro i s t hi h
  obtain ⟨f, hinput, hf⟩ := exec_byte hi
  rw [hf] at h
  split at h
  · cases h
    exact ⟨rfl, hinput s.dec, fun _ => rfl, fun hstop => absurd ‹_› hstop⟩
  · cases h
    exact ⟨rfl, rfl, fun _ => rfl, fun _ => rfl⟩

/-! ### The block does not read the reference decoder -/

/-- Two updates that do the same to the state a rule ended in do the same to the rule's end. -/
theorem Flow.map_congr {u u' : State → State} {f : Flow} (h : u f.state = u' f.state) : f.map u = f.map u' := by
  cases f with
  | goes s => exact congrArg Flow.goes h
  | raised s => exact congrArg Flow.raised h

/-- Another decoder is another host's part with the rest of it kept. -/
theorem State.withHost_eq_setDec {s t : State} (hsIn : t.sIn = s.sIn) (hgIn : t.gIn = s.gIn)
    (hconsumed : t.consumed = s.consumed) (hfb : t.fb = s.fb) (hepoch : t.epoch = s.epoch) (d : RefDecoder) :
    t.withHost s.sIn s.gIn d s.consumed s.fb s.epoch = t.setDec d := by
  rw [← hsIn, ← hgIn, ← hconsumed, ← hfb, ← hepoch]
  rfl

theorem sendG_setDec (g : GToken) (s : State) (d : RefDecoder) :
    sendG g (s.setDec d) = (sendG g s).map (·.setDec d) := by
  have fr := sendG_frame g s
  exact (sendG_withHost s.sIn s.gIn d s.consumed s.fb s.epoch g s).trans
    (Flow.map_congr (State.withHost_eq_setDec fr.sIn fr.gIn fr.consumed fr.fb fr.epoch d))

theorem sendP_setDec (p : PToken) (s : State) (d : RefDecoder) :
    sendP p (s.setDec d) = (sendP p s).map (·.setDec d) := by
  have fr := (sendP_frame p s).1
  exact (sendP_withHost s.sIn s.gIn d s.consumed s.fb s.epoch p s).trans
    (Flow.map_congr (State.withHost_eq_setDec fr.sIn fr.gIn fr.consumed fr.fb fr.epoch d))

theorem scan_setDec (s : State) (d : RefDecoder) : scan (s.setDec d) = (scan s).map (·.setDec d) := by
  have fr := scan_frame s
  exact (scan_withHost s.sIn s.gIn d s.consumed s.fb s.epoch s fun _ _ _ _ => rfl).trans
    (Flow.map_congr (State.withHost_eq_setDec fr.sIn fr.gIn fr.consumed fr.fb fr.epoch d))

theorem loadSample_setDec (b : Byte) (s : State) (d : RefDecoder) :
    loadSample b (s.setDec d) = (loadSample b s).map (·.setDec d) := by
  by_cases hlast : s.wp = s.cfg.npix - 1
  · rw [loadSample_last hlast, loadSample_last (s := s.setDec d) hlast, ← scan_setDec]
    rfl
  · rw [loadSample_within hlast, loadSample_within (s := s.setDec d) hlast]
    rfl

theorem endSamples_setDec (s : State) (d : RefDecoder) : endSamples (s.setDec d) = (endSamples s).map (·.setDec d) := by
  rw [endSamples_eq_sendG, endSamples_eq_sendG, ← sendG_setDec]
  rfl

/-- A guarded rule that does not read the decoder answers the same next state with another one. -/
theorem accept_setDec {f : State → Flow} {s t : State} {d : RefDecoder} (hf : f (s.setDec d) = (f s).map (·.setDec d))
    (h : accept s (finish (f s)) = .next t) : accept (s.setDec d) (finish (f (s.setDec d))) = .next (t.setDec d) := by
  obtain ⟨hw, ⟨hr, rfl⟩ | ⟨hr, h⟩⟩ := accept_cases h
  · exact accept_not_ready hw hr
  · cases h
    rw [hf, finish, Flow.state_map]
    exact accept_ready hw hr

/-- So does a sample, whose guard does not read it either. -/
theorem execS_setDec {b : Byte} {s t : State} (h : execS b s = .next t) (d : RefDecoder) :
    execS b (s.setDec d) = .next (t.setDec d) := by
  obtain ⟨hb, hw, ⟨hr, rfl⟩ | ⟨hr, hwp, rfl⟩⟩ := execS_cases h
  · exact (onPortS_pipe hb).trans (accept_not_ready hw hr)
  · rw [← Flow.state_map (·.setDec d), ← loadSample_setDec]
    exact exec_s_ready hw hb hr hwp

/-- A token of the block answers the same next state with another decoder (rule R160). -/
theorem exec_block_setDec {i : Instr} {s t : State} (hi : blockToken i = true) (h : exec i s = .next t)
    (d : RefDecoder) : exec i (s.setDec d) = .next (t.setDec d) := by
  cases i with
  | s b => exact execS_setDec h d
  | fin =>
    obtain ⟨hb, h⟩ := onPortS_cases h
    exact (onPortS_pipe hb).trans (accept_setDec (endSamples_setDec s d) h)
  | g | eof | eos | grsv => exact accept_setDec (sendG_setDec _ s d) h
  | pair | meof | meos => exact accept_setDec (sendP_setDec _ s d) h
  | endByte | blk | rsv1 | lit | rsvf0 | ful => cases hi

/-- Settles O44: `exec_block_setDec` for the block, and `exec_byte` for the decoder. -/
theorem decoderAndBlockAreSeparate : Obligations.DecoderAndBlockAreSeparate := by
  refine ⟨fun i s t d hi h => ?_, fun i s hi => ?_⟩
  · obtain ⟨-, -, -, -, -, hdec, -⟩ := exec_block_frame hi h
    exact ⟨hdec, exec_block_setDec hi h d⟩
  · obtain ⟨f, -, hf⟩ := exec_byte hi
    by_cases hrun : s.dec.verdict = .running
    · refine ⟨f s.dec, by rw [hf, if_pos hrun]; rfl, fun u hu => ?_⟩
      rw [hf, hu, if_pos hrun]
      rfl
    · refine ⟨s.dec, by rw [hf, if_neg hrun], fun u hu => ?_⟩
      rw [hf, ← hu, if_neg (by rwa [hu])]

/-! ### Steps of the machine while the block is offered nothing -/

/-- A configuration of the hardware without reset whose compact encoder is idle and to which no word is offered: its
steps are the reference decoder's. -/
structure State.Quiet (s : State) : Prop where
  cfgOk : s.cfg.wf = true
  rst : s.rst = false
  idle : s.ceIdle = true
  pIn : s.pIn = []
  gIn : s.gIn = []
  sIn : s.sIn = []

/-- It does not matter which decoder stands there. -/
theorem State.Quiet.setDec {s : State} (h : s.Quiet) (d : RefDecoder) : (s.setDec d).Quiet :=
  ⟨h.cfgOk, h.rst, h.idle, h.pIn, h.gIn, h.sIn⟩

theorem State.Quiet.fetch_eq {s : State} (h : s.Quiet) : fetch s = fetchByte s := by
  have hblock : fetchBlock s = none := by
    unfold fetchBlock fetchPort
    rw [h.pIn, h.gIn, h.sIn]
    cases s.cfg.block <;> simp
  rw [fetch, hblock]

/-- A running decoder reads its next byte. -/
theorem State.Quiet.step_byte {s : State} (h : s.Quiet) (b : Byte) (bs cells : List Byte) (frames : List (List Byte)) :
    step (s.setDec ⟨some (b :: bs), cells, frames, .running⟩) =
      exec (decodeCB b) (s.setDec ⟨some bs, cells, frames, .running⟩) :=
  step_fetch h.cfgOk h.rst (h.setDec _).fetch_eq rfl

/-- A running decoder whose bytes ran out answers `truncated` (rule R166). -/
theorem State.Quiet.step_truncated {s : State} (h : s.Quiet) (cells : List Byte) (frames : List (List Byte)) :
    step (s.setDec ⟨some [], cells, frames, .running⟩) = .next (s.setDec ⟨some [], [], [], .truncated⟩) := by
  have hq := h.setDec ⟨some [], cells, frames, .running⟩
  rw [step_idle hq.cfgOk hq.rst hq.fetch_eq, idleStep, if_neg (by simp [hq.idle]), if_pos ⟨rfl, rfl⟩]
  rfl

/-- A decoder that has returned takes nothing more, and every further step leaves the state (assumption 6). -/
theorem State.Quiet.run_returned {s : State} (h : s.Quiet) {d : RefDecoder} (hv : d.verdict ≠ .running) (k : Nat) :
    Host.Core.run core k (s.setDec d) = .next (s.setDec d) := by
  have hq := h.setDec d
  have hfetch : fetch (s.setDec d) = none := by
    rw [hq.fetch_eq, fetchByte_eq_none]
    exact fun hrun => absurd hrun hv
  have hstep : step (s.setDec d) = .next (s.setDec d) := by
    rw [step_idle hq.cfgOk hq.rst hfetch, idleStep, if_neg (by simp [hq.idle]), if_neg fun hrun => hv hrun.1]
  induction k with
  | zero => rfl
  | succ k ih => rw [run_step k hstep, ih]

/-! ### Its run over a byte sequence -/

/-- What a byte other than `END` is, to a running reference decoder and to `decode_frame` alike: cells to append, or
reserved. -/
theorem byte_appends_or_stops {b : Byte} (hb : b ≠ 0x00) :
    (∃ gs, (∀ cells bs, decodeFrameLoop cells (b :: bs) = decodeFrameLoop (cells ++ gs) bs) ∧
      ∀ s : State, s.dec.verdict = .running → exec (decodeCB b) s = .next (s.setDec (s.dec.append gs))) ∨
    ((∀ cells bs, decodeFrameLoop cells (b :: bs) = .invalid) ∧
      ∀ s : State, s.dec.verdict = .running → exec (decodeCB b) s = .next (s.setDec (s.dec.stop .invalid))) := by
  obtain ⟨ht, hl, -⟩ | ⟨ht, -, hd⟩ | ⟨ht, hd⟩ | ⟨ht, hd⟩ | ⟨ht, hl, hd⟩ | ⟨ht, hl, hd⟩ := decodeCB_cases b
  · exact absurd ((byte_eq_end_iff b).2 ⟨ht, hl⟩) hb
  · refine .inl ⟨List.replicate (cbLen b).toNat glyphBlank, fun cells bs => ?_, fun s h => ?_⟩
    · rw [decodeFrameLoop, if_neg hb, if_pos ht]
    · rw [hd]
      exact decoderTakes_running h _
  · refine .inr ⟨fun cells bs => ?_, fun s h => ?_⟩
    · rw [decodeFrameLoop, if_neg hb]
      simp [ht]
    · rw [hd]
      exact decoderTakes_running h _
  · refine .inl ⟨[b], decodeFrameLoop_literal (decide_eq_true ht), fun s h => ?_⟩
    rw [hd]
    exact decoderTakes_running h _
  · obtain rfl := (byte_eq_rsvf0_iff b).2 ⟨ht, hl⟩
    exact .inr ⟨fun _ _ => rfl, fun s h => decoderTakes_running h _⟩
  · have hne : b ≠ 0xC0 := fun h => hl ((byte_eq_rsvf0_iff b).1 h).2
    refine .inl ⟨List.replicate (cbLen b).toNat glyphFull, fun cells bs => ?_, fun s h => ?_⟩
    · rw [decodeFrameLoop, if_neg hb, if_neg (by simp [ht]), if_neg (by simp [ht]), if_pos ⟨ht, hne⟩]
    · rw [hd]
      exact decoderTakes_running h _

/-- From any point of a frame: as many steps as bytes, and one more, return what `decode_stream` makes of the rest, for
any fuel that lasts. -/
theorem State.Quiet.run_decoder {s : State} (h : s.Quiet) (bs : List Byte) {k : Nat} (hk : bs.length ≤ k)
    (cells : List Byte) (frames : List (List Byte)) :
    ∃ d, Host.Core.run core (bs.length + 1) (s.setDec ⟨some bs, cells, frames, .running⟩) = .next (s.setDec d) ∧
      d.result = some ((decodeFrameLoop cells bs).inStream k frames) := by
  induction bs generalizing k cells frames with
  | nil => exact ⟨⟨some [], [], [], .truncated⟩, run_step 0 (h.step_truncated cells frames), rfl⟩
  | cons b bs ih =>
    have hstep := h.step_byte b bs cells frames
    by_cases hb : b = 0x00
    · subst hb
      have hend : step (s.setDec ⟨some (0x00 :: bs), cells, frames, .running⟩) =
          .next (s.setDec (RefDecoder.endFrame ⟨some bs, cells, frames, .running⟩)) := hstep
      have hframe : decodeFrameLoop cells (0x00 :: bs) = .frame cells bs := rfl
      rw [List.length_cons, run_step _ hend, hframe, FrameResult.inStream]
      by_cases hcells : cells = []
      · rw [RefDecoder.endFrame_of_eq hcells, if_pos hcells]
        exact ⟨_, h.run_returned (nofun : Verdict.complete ≠ .running) _, rfl⟩
      · obtain ⟨k, rfl⟩ := Nat.exists_eq_add_of_le' (Nat.one_le_of_lt hk)
        rw [RefDecoder.endFrame_of_ne hcells, if_neg hcells, decodeStreamLoop_succ]
        exact ih (Nat.le_of_succ_le_succ hk) [] _
    · obtain ⟨gs, hframe, hexec⟩ | ⟨hframe, hexec⟩ := byte_appends_or_stops hb
      · rw [List.length_cons, run_step _ (hstep.trans (hexec _ rfl)), hframe]
        exact ih (Nat.le_of_succ_le hk) _ _
      · rw [List.length_cons, run_step _ (hstep.trans (hexec _ rfl)), hframe]
        exact ⟨_, h.run_returned (nofun : Verdict.invalid ≠ .running) _, rfl⟩

/-- Settles O43: the run from the beginning of the first frame. -/
theorem decoderStepsComputeDecodeStream : Obligations.DecoderStepsComputeDecodeStream := by
  intro s bs hw hrst hidle hp hg hs
  have hquiet : s.Quiet := ⟨hw, hrst, hidle, hp, hg, hs⟩
  obtain ⟨d, hrun, hresult⟩ := hquiet.run_decoder bs (Nat.le_refl _) [] []
  rw [decodeStream, decodeStreamLoop_succ]
  exact ⟨s.setDec d, hrun, hresult, rfl⟩

end Sys2Proof.Machine

/-! ## Proofs: the run state, and what a frame leaves (O11, O49) -/

namespace Sys2Proof.Machine

/-! ### The run state -/

/-- A step without reset leaves `st` and `fc`, or takes a word: of the hand-over, of port `G` or of port `S`. -/
theorem step_same_or_word {s t : State} (hrst : s.rst = false) (h : step s = .next t) :
    (t.st = s.st ∧ t.fc = s.fc) ∨ (s.ready = true ∧
      ((∃ x i, s.pIn = x :: t.pIn ∧ decodePT s.cfg.cntW x = .ok i ∧ exec i { s with pIn := t.pIn } = .next t) ∨
       (s.cfg.block = .core ∧ s.pIn = [] ∧ ∃ x, s.gIn = x :: t.gIn ∧ t.consumed = s.consumed ++ [decodeGT x] ∧
         exec (decodeGT x) { s with gIn := t.gIn, consumed := t.consumed } = .next t) ∨
       (s.cfg.block = .pipe ∧ s.pIn = [] ∧ ∃ x, s.sIn = x :: t.sIn ∧ t.consumed = s.consumed ++ [decodeST x] ∧
         exec (decodeST x) { s with sIn := t.sIn, consumed := t.consumed } = .next t))) := by
  obtain ⟨hset, -⟩ | ⟨-, hr, x, xs, i, hp, hd, he⟩ | ⟨-, hr, hp, hb, x, xs, hg, he⟩ | ⟨-, hr, hp, hb, x, xs, hs, he⟩ |
    ⟨-, -, d, rfl⟩ | ⟨-, -, hbusy, rfl⟩ := step_outcomes h
  · rw [hrst] at hset; cases hset
  · obtain ⟨-, -, -, -, hpIn, -⟩ := exec_block_frame (blockToken_decodePT hd) he
    exact .inr ⟨hr, .inl ⟨x, i, hpIn ▸ hp, hd, hpIn ▸ he⟩⟩
  · obtain ⟨-, -, -, hgIn, -, -, -, hc⟩ := exec_block_frame (blockToken_decodeGT x) he
    refine .inr ⟨hr, .inr (.inl ⟨hb, hp, x, by rw [hgIn]; exact hg, hc, ?_⟩)⟩
    rw [hgIn, hc]
    exact he
  · obtain ⟨-, -, hsIn, -, -, -, -, hc⟩ := exec_block_frame (blockToken_decodeST x) he
    refine .inr ⟨hr, .inr (.inr ⟨hb, hp, x, by rw [hsIn]; exact hs, hc, ?_⟩)⟩
    rw [hsIn, hc]
    exact he
  · exact .inl ⟨rfl, rfl⟩
  · obtain ⟨rem, lit, b, hstep, -⟩ := microStep_busy hbusy
    rw [hstep]
    exact .inl ⟨rfl, rfl⟩

/-- How a step without reset ends: with a fault recorded; or with `fc` as it was, and `st` but for the end of the
stream. -/
theorem step_ends {s t : State} (hrst : s.rst = false) (h : step s = .next t) :
    (t.st = .fault ∧ t.fc ≠ .none) ∨ (t.fc = s.fc ∧ (t.st = s.st ∨ t.st = .done)) := by
  obtain ⟨hst, hfc⟩ | ⟨-, ⟨x, i, -, hd, he⟩ | ⟨-, -, x, -, -, he⟩ | ⟨-, -, x, -, -, he⟩⟩ := step_same_or_word hrst h
  · exact .inr ⟨hfc, .inl hst⟩
  · have hends := exec_block_ends (blockToken_decodePT hd) he
    exact hends
  · have hends := exec_block_ends (blockToken_decodeGT x) he
    exact hends
  · have hends := exec_block_ends (blockToken_decodeST x) he
    exact hends

/-- A word of port `G` is a glyph, the end of a frame or of the stream, or reserved. -/
theorem decodeGT_cases (w : BitVec 10) :
    (∃ v, decodeGT w = .g v) ∨ decodeGT w = .eof ∨ decodeGT w = .eos ∨ decodeGT w = .grsv := by
  unfold decodeGT
  split_ifs
  · exact .inl ⟨_, rfl⟩
  · exact .inr (.inl rfl)
  · exact .inr (.inr (.inl rfl))
  · exact .inr (.inr (.inr rfl))

/-- The tokens that end the stream (rule R184; `MEOS` on the hand-over). -/
theorem mem_of_exec_done {i : Instr} {s t : State} (hi : blockToken i = true) (h : exec i s = .next t)
    (hrun : s.st = .run) (hdone : t.st = .done) : i ∈ [Instr.fin, .eos, .meos] := by
  by_contra hend
  obtain hst | hst := exec_block_st hi hend h <;> rw [hdone] at hst
  · rw [hrun] at hst; cases hst
  · cases hst

/-- `EOS` ends the stream between frames only. -/
theorem openRun_of_exec_eos_done {s t : State} (h : exec .eos s = .next t) (hdone : t.st = .done)
    (hw : s.cfg.wf = true) (hr : s.ready = true) : s.openRun = none := by
  by_contra hne
  obtain ⟨r, hopen⟩ := Option.ne_none_iff_exists'.1 hne
  rw [exec_eos_open hw hr hopen] at h
  cases h
  cases hdone

/-- `FIN` ends the stream between frames only. -/
theorem wp_openRun_of_exec_fin_done {s t : State} (h : exec .fin s = .next t) (hdone : t.st = .done)
    (hw : s.cfg.wf = true) (hb : s.cfg.block = .pipe) (hr : s.ready = true) : s.wp = 0 ∧ s.openRun = none := by
  have hwp : s.wp = 0 := by
    by_contra hne
    rw [exec_fin_inside hw hb hr hne] at h
    cases h
    cases hdone
  rw [exec_fin_ready hw hb hr, endSamples_between hwp] at h
  exact ⟨hwp, openRun_of_exec_eos_done ((exec_eos_eq hw hr).trans h) hdone hw hr⟩

/-- From `RUN` to `DONE` leads `EOS` on a `CORE`, `FIN` on a `PIPE`, or `MEOS` on the hand-over. -/
theorem step_done {s t : State} (hrst : s.rst = false) (h : step s = .next t) (hrun : s.st = .run) (hdone : t.st = .done) :
    (∃ w ws, s.cfg.block = .core ∧ s.gIn = w :: ws ∧ decodeGT w = .eos ∧ s.openRun = none) ∨
    (∃ w ws, s.cfg.block = .pipe ∧ s.sIn = w :: ws ∧ decodeST w = .fin ∧ s.wp = 0 ∧ s.openRun = none) ∨
    (∃ w ws, s.pIn = w :: ws ∧ decodePT s.cfg.cntW w = .ok .meos) := by
  have hw := step_wf h
  obtain ⟨hst, -⟩ | ⟨hr, ⟨x, i, hp, hd, he⟩ | ⟨hb, -, x, hg, -, he⟩ | ⟨hb, -, x, hs, -, he⟩⟩ := step_same_or_word hrst h
  · rw [hdone, hrun] at hst; cases hst
  · have hmem := mem_of_exec_done (blockToken_decodePT hd) he hrun hdone
    obtain ⟨v, c, rfl⟩ | rfl | rfl := decodePT_cases hd
    · simp at hmem
    · simp at hmem
    · exact .inr (.inr ⟨x, _, hp, hd⟩)
  · have hmem := mem_of_exec_done (blockToken_decodeGT x) he hrun hdone
    obtain ⟨v, hx⟩ | hx | hx | hx := decodeGT_cases x
    · simp [hx] at hmem
    · simp [hx] at hmem
    · rw [hx] at he
      have hclosed := openRun_of_exec_eos_done he hdone hw hr
      exact .inl ⟨x, _, hb, hg, hx, hclosed⟩
    · simp [hx] at hmem
  · have hmem := mem_of_exec_done (blockToken_decodeST x) he hrun hdone
    obtain ⟨d, hx⟩ | hx := decodeST_cases x
    · simp [hx] at hmem
    · rw [hx] at he
      have hbetween := wp_openRun_of_exec_fin_done he hdone hw hb hr
      exact .inr (.inl ⟨x, _, hb, hs, hx, hbetween⟩)

/-- Settles O11: only a word taken moves `st` (`step_same_or_word`), and a fault shows in `fc` (`step_ends`). -/
theorem runStateTransitions : Obligations.RunStateTransitions := by
  intro s t h
  refine ⟨fun hrst => ?_, fun hrst => ?_, fun hrst => step_done hrst h, fun hrst hrun hfault => ⟨?_, ?_⟩, fun hrst hst => ?_⟩
  · rw [step_reset (step_wf h) hrst] at h
    cases h
    rfl
  · by_cases hrun : s.st = .run
    · rw [hrun]; rfl
    · rw [step_stopped hrun hrst h]
      cases hst : s.st with
      | run => exact absurd hst hrun
      | done => rfl
      | fault => rfl
  · obtain ⟨-, hfc⟩ | ⟨-, hst | hst⟩ := step_ends hrst h
    · exact hfc
    · rw [hfault, hrun] at hst; cases hst
    · rw [hfault] at hst; cases hst
  · obtain ⟨hst, -⟩ | ⟨-, ⟨x, i, hp, hd, -⟩ | ⟨hb, hp, x, hg, hc, -⟩ | ⟨hb, hp, x, hs, hc, -⟩⟩ :=
      step_same_or_word hrst h
    · rw [hfault, hrun] at hst; cases hst
    · exact .inr (.inr ⟨x, i, hp, hd⟩)
    · exact .inl ⟨x, hb, hp, hg, hc⟩
    · exact .inr (.inl ⟨x, hb, hp, hs, hc⟩)
  · obtain ⟨hfault, -⟩ | ⟨hfc, -⟩ := step_ends hrst h
    · exact absurd hfault hst
    · exact hfc

/-! ### What a frame leaves -/

/-- A state of the invariant that takes tokens and has no open run is like the reset state in all that rule R189 names. -/
theorem State.Inv.fresh {s : State} (hs : s.Inv) (hr : s.ready = true) (hrun : s.openRun = none) : s.Fresh := by
  obtain ⟨hrst, hst, hcrem, hclit⟩ := State.ready_iff.1 hr
  exact ⟨hs.cfgOk, hrst, hst, hs.fault.2 (by rw [hst]; nofun), hrun, hcrem, hclit⟩

/-- A token of the block after which it is still in `RUN` leaves it taking tokens. -/
theorem exec_block_ready {i : Instr} {s t : State} (hi : blockToken i = true) (h : exec i s = .next t)
    (hr : s.ready = true) (hst : t.st = .run) : t.ready = true := by
  obtain ⟨-, hrst, -⟩ := exec_block_frame hi h
  obtain ⟨hcrem, hclit⟩ := exec_block_ce hi h
  exact State.ready_congr hr hrst (hst.trans (State.ready_iff.1 hr).2.1.symm) hcrem hclit

/-- Settles O49: the invariant is kept, the run register closed, and no fault raised (for a sample, O23). -/
theorem endOfFrameLeavesFreshState : Obligations.EndOfFrameLeavesFreshState := by
  refine ⟨fun s t hs hr h hst => ?_, fun s t d hs hr hb hlast h => ?_, fun c hw => ⟨hw, rfl, rfl, rfl, rfl, rfl, rfl⟩⟩
  · obtain ⟨-, hrun, -⟩ := State.ready_iff.1 hr
    have hstill : t.st = .run := (exec_block_st (i := .eof) rfl (by simp) h).elim (·.trans hrun) (absurd · hst)
    have hinv : t.Inv := exec_block_inv (i := .eof) rfl (fun _ _ => nofun) hs h
    refine hinv.fresh (exec_block_ready (i := .eof) rfl h hr hstill) ?_
    rw [exec_eof_eq hs.cfgOk hr] at h
    cases h
    exact (sendG_eof_closes s).resolve_left hst
  · obtain ⟨-, hrun, -⟩ := State.ready_iff.1 hr
    have hopen := hs.closed hb hrun
    obtain ⟨v, y, x, hexec, -⟩ := lastSampleEmitsFrameRecord d s hs.cfgOk hb hr hopen hlast
    have hinv : t.Inv := exec_block_inv (i := .s d) rfl (fun _ _ => nofun) hs h
    rw [hexec] at h
    cases h
    exact ⟨hinv.fresh hr hopen, rfl⟩

end Sys2Proof.Machine

/-! ## Proofs: the pipeline from the tokens offered to the bytes (O47, O48) -/

namespace Sys2Proof.Machine

/-! ### The tokens a port offers, and runs that take them -/

/-- The tokens offered on the block's own port, in order (rules R6, R65). -/
def State.offered (s : State) : List Instr :=
  match s.cfg.block with
  | .core => s.gIn.map decodeGT
  | .pipe => s.sIn.map decodeST

theorem State.offered_core {s : State} (hb : s.cfg.block = .core) : s.offered = s.gIn.map decodeGT := by
  simp [State.offered, hb]

theorem State.offered_pipe {s : State} (hb : s.cfg.block = .pipe) : s.offered = s.sIn.map decodeST := by
  simp [State.offered, hb]

/-- The next step takes a word of the block's port where one is offered, and no fault has been raised. -/
structure State.TakesPort (s : State) : Prop where
  cfgOk : s.cfg.wf = true
  ready : s.ready = true
  fc : s.fc = .none
  pIn : s.pIn = []

theorem State.TakesPort.st {s : State} (hs : s.TakesPort) : s.st = .run := (State.ready_iff.1 hs.ready).2.1

/-- `s` with the words of its ports replaced and the token `i` in the history: what the rule of a token taken starts
from. -/
def State.tookWord (s : State) (sIn : List (BitVec 9)) (gIn : List (BitVec 10)) (i : Instr) : State :=
  { s with sIn := sIn, gIn := gIn, consumed := s.consumed ++ [i] }

/-- A step of a block that takes words of its port runs the first token offered. -/
theorem State.TakesPort.step_offered {s : State} (hs : s.TakesPort) {i : Instr} {is : List Instr}
    (ho : s.offered = i :: is) :
    ∃ sIn gIn, step s = exec i (s.tookWord sIn gIn i) ∧ (s.tookWord sIn gIn i).offered = is ∧ blockToken i = true := by
  obtain ⟨-, hportG, hportS, -⟩ := stepRunsDecodedInstr
  cases hb : s.cfg.block with
  | core =>
    rw [State.offered_core hb] at ho
    obtain ⟨w, ws, hg, rfl, rfl⟩ := List.map_eq_cons_iff.1 ho
    exact ⟨s.sIn, ws, hportG s w ws hs.cfgOk hb hs.ready hs.pIn hg, State.offered_core hb, blockToken_decodeGT w⟩
  | pipe =>
    rw [State.offered_pipe hb] at ho
    obtain ⟨w, ws, hg, rfl, rfl⟩ := List.map_eq_cons_iff.1 ho
    exact ⟨ws, s.gIn, hportS s w ws hs.cfgOk hb hs.ready hs.pIn hg, State.offered_pipe hb, blockToken_decodeST w⟩

/-- As many steps as `is` has tokens take these off the port, emit the bytes `bs` and end in `t`, which takes more. -/
structure State.Runs (s : State) (is : List Instr) (bs : List Byte) (t : State) : Prop where
  run : Host.Core.run core is.length s = .next t
  takes : t.TakesPort
  offered : s.offered = is ++ t.offered
  cfg : t.cfg = s.cfg
  out : t.out = s.out ++ bs

theorem State.Runs.refl {s : State} (hs : s.TakesPort) : s.Runs [] [] s :=
  ⟨rfl, hs, rfl, rfl, (List.append_nil _).symm⟩

/-- `k` steps and then `l` more, for any machine of the host's interface. -/
theorem run_add {M : Host.Core} {k l : Nat} {s t : M.State} (h : M.run k s = .next t) : M.run (k + l) s = M.run l t := by
  induction k generalizing s with
  | zero =>
    cases h
    rw [Nat.zero_add]
  | succ k ih =>
    cases hs : M.step s with
    | next u =>
      rw [run_next k hs] at h
      rw [Nat.succ_add, run_next _ hs, ih h]
    | fault r => simp [Host.Core.run, hs] at h
    | refused r => simp [Host.Core.run, hs] at h

theorem State.Runs.trans {s t u : State} {is js : List Instr} {bs bs' : List Byte} (h : s.Runs is bs t)
    (k : t.Runs js bs' u) : s.Runs (is ++ js) (bs ++ bs') u where
  run := by rw [List.length_append]; exact (run_add h.run).trans k.run
  takes := k.takes
  offered := by rw [h.offered, k.offered, List.append_assoc]
  cfg := k.cfg.trans h.cfg
  out := by rw [k.out, h.out, List.append_assoc]

/-- The tokens after those taken are still offered. -/
theorem State.Runs.rest {s t : State} {is js : List Instr} {bs : List Byte} (h : s.Runs is bs t)
    (ho : s.offered = is ++ js) : t.offered = js :=
  List.append_cancel_left (h.offered.symm.trans ho)

/-- A token that leaves the block in `RUN` is a run of one step. -/
theorem State.TakesPort.runs_token {s : State} (hs : s.TakesPort) {i : Instr} {is : List Instr}
    (ho : s.offered = i :: is) :
    ∃ sIn gIn, ∀ u bs, exec i (s.tookWord sIn gIn i) = .next u → u.st = .run → u.out = s.out ++ bs → s.Runs [i] bs u := by
  obtain ⟨sIn, gIn, hstep, hrest, hi⟩ := hs.step_offered ho
  refine ⟨sIn, gIn, fun u bs h hst hout => ?_⟩
  obtain ⟨hcfg, -, hsIn, hgIn, hpIn, -⟩ := exec_block_frame hi h
  have hoffered : u.offered = (s.tookWord sIn gIn i).offered := by rw [State.offered, State.offered, hcfg, hsIn, hgIn]
  have hfc := exec_block_fc hi h (by rw [hst]; nofun)
  exact
    { run := run_step 0 (hstep.trans h)
      takes := ⟨hcfg ▸ hs.cfgOk, exec_block_ready hi h hs.ready hst, hfc.trans hs.fc, hpIn.trans hs.pIn⟩
      offered := by rw [ho, hoffered, hrest]; rfl
      cfg := hcfg
      out := hout }

/-- A further token, the last one offered, with what its rule does. -/
theorem State.Runs.last_token {s t : State} {is : List Instr} {bs : List Byte} (h : s.Runs is bs t) {i : Instr}
    (ho : s.offered = is ++ [i]) :
    ∃ sIn gIn, (t.tookWord sIn gIn i).offered = [] ∧
      ∀ u, exec i (t.tookWord sIn gIn i) = .next u → Host.Core.run core (is ++ [i]).length s = .next u := by
  obtain ⟨sIn, gIn, hstep, hrest, -⟩ := h.takes.step_offered (h.rest ho)
  refine ⟨sIn, gIn, hrest, fun u hexec => ?_⟩
  rw [List.length_append]
  exact (run_add h.run).trans (run_step 0 (hstep.trans hexec))

/-- The tokens of one frame after another, from what each frame does between frames (`P`). -/
theorem runs_flatMap {α : Type} {P : State → Prop} {tokens : α → List Instr} {bytes : α → List Byte} {fs : List α}
    {c : Config} (hframe : ∀ f ∈ fs, ∀ s is, s.cfg = c → s.TakesPort → P s → s.offered = tokens f ++ is →
      ∃ t, s.Runs (tokens f) (bytes f) t ∧ P t)
    {s : State} {is : List Instr} (hc : s.cfg = c) (hs : s.TakesPort) (hP : P s)
    (ho : s.offered = fs.flatMap tokens ++ is) :
    ∃ t, s.Runs (fs.flatMap tokens) (fs.flatMap bytes) t ∧ P t := by
  induction fs generalizing s with
  | nil => exact ⟨s, .refl hs, hP⟩
  | cons f fs ih =>
    obtain ⟨hf, hfs⟩ := List.forall_mem_cons.1 hframe
    rw [List.flatMap_cons, List.append_assoc] at ho
    obtain ⟨t, hrun, hPt⟩ := hf s _ hc hs hP ho
    obtain ⟨u, hrun', hPu⟩ := ih hfs (hrun.cfg.trans hc) hrun.takes hPt (hrun.rest ho)
    exact ⟨u, hrun.trans hrun', hPu⟩

/-! ### `CORE` -/

/-- The first pair of a sequence that begins with `n + 1` values `v` counts at least those. -/
theorem rle_replicate_append_first (v : Byte) (rest : List Byte) (n : Nat) :
    ∃ k ps, rle (List.replicate (n + 1) v ++ rest) = (v, n + 1 + k) :: ps := by
  induction n with
  | zero =>
    obtain ⟨k, ps, h⟩ := rle_cons_eq v rest
    exact ⟨k, ps, by rw [Nat.zero_add, Nat.add_comm]; exact h⟩
  | succ n ih =>
    obtain ⟨k, ps, h⟩ := ih
    exact ⟨k, ps, by rw [List.replicate_succ, List.cons_append, rle_cons_of_head_eq h, Nat.add_right_comm]⟩

/-- A run at the beginning of a frame whose runs fit is no longer than `CNT_MAX`. -/
theorem RunsFit.run_le {cfg : Config} {v : Byte} {n : Nat} {rest : List Byte}
    (h : RunsFit cfg (List.replicate (n + 1) v ++ rest)) : n + 1 ≤ cfg.cntMax := by
  obtain ⟨k, ps, hrle⟩ := rle_replicate_append_first v rest n
  have hle : n + 1 + k ≤ cfg.cntMax := h (v, n + 1 + k) (hrle ▸ List.mem_cons_self)
  omega

/-- The runs after the first of a frame whose runs fit do too. -/
theorem RunsFit.of_run_append {cfg : Config} {v : Byte} {n : Nat} {rest : List Byte}
    (h : RunsFit cfg (List.replicate (n + 1) v ++ rest)) (hv : rest.head? ≠ some v) : RunsFit cfg rest := fun p hp =>
  h p (by rw [rle_replicate_append hv]; exact List.mem_cons_of_mem _ hp)

/-- The rest of a frame on port `G` and its `EOF`, from an open run of `n + 1` glyphs `v`: the record of that run and the
glyphs left. -/
theorem runs_frame_of_open {gs : List Byte} {s : State} {v : Byte} {n : Nat} {is : List Instr} (hs : s.TakesPort)
    (hrun : s.openRun = some ⟨v, n + 1⟩) (ho : s.offered = frameTokens gs ++ is) (hv : isGlyph v = true)
    (hgs : AllGlyphs gs) (hfit : RunsFit s.cfg (List.replicate (n + 1) v ++ gs)) :
    ∃ t, s.Runs (frameTokens gs) (encodeFrame (List.replicate (n + 1) v ++ gs)) t ∧ t.openRun = none := by
  induction gs generalizing s v n with
  | nil =>
    obtain ⟨sIn, gIn, htoken⟩ := hs.runs_token ho
    have hexec := exec_eof_closes (s := s.tookWord sIn gIn .eof) hs.cfgOk hs.ready hrun hv
    refine ⟨_, htoken _ _ hexec hs.st ?_, rfl⟩
    rw [encodeFrame_run_append (v := v) (rest := []) nofun]
    exact List.append_assoc ..
  | cons g rest ih =>
    obtain ⟨hg, hrest⟩ := List.forall_mem_cons.1 hgs
    obtain ⟨sIn, gIn, htoken⟩ := hs.runs_token ho
    by_cases hgv : g = v
    · subst hgv
      rw [List.append_cons, ← List.replicate_succ'] at hfit ⊢
      have hmax : n + 1 ≠ s.cfg.cntMax := by
        have := hfit.run_le
        omega
      have hexec := exec_g_extends (s := s.tookWord sIn gIn (.g g)) hs.cfgOk hs.ready hrun hmax
      have hone := htoken _ [] hexec hs.st (List.append_nil _).symm
      obtain ⟨t, hruns, hclosed⟩ := ih hone.takes rfl (hone.rest ho) hg hrest hfit
      exact ⟨t, hone.trans hruns, hclosed⟩
    · have hne : (g :: rest).head? ≠ some v := by simpa using hgv
      have hexec := exec_g_closes (s := s.tookWord sIn gIn (.g g)) hs.cfgOk hs.ready hrun hgv hv
      have hone := htoken _ _ hexec hs.st rfl
      obtain ⟨t, hruns, hclosed⟩ := ih (n := 0) hone.takes rfl (hone.rest ho) hg hrest (hfit.of_run_append hne)
      rw [encodeFrame_run_append hne]
      exact ⟨t, hone.trans hruns, hclosed⟩

/-- The tokens of a frame of glyph codes whose runs fit emit the frame's record (rules R128, R187). -/
theorem runs_frameTokens {f : List Byte} {s : State} {is : List Instr} (hs : s.TakesPort) (hrun : s.openRun = none)
    (ho : s.offered = frameTokens f ++ is) (hf : AllGlyphs f) (hfit : RunsFit s.cfg f) :
    ∃ t, s.Runs (frameTokens f) (encodeFrame f) t ∧ t.openRun = none := by
  cases f with
  | nil =>
    obtain ⟨sIn, gIn, htoken⟩ := hs.runs_token ho
    have hexec := exec_eof_empty (s := s.tookWord sIn gIn .eof) hs.cfgOk hs.ready hrun
    exact ⟨_, htoken _ _ hexec hs.st rfl, hrun⟩
  | cons g rest =>
    obtain ⟨hg, hrest⟩ := List.forall_mem_cons.1 hf
    obtain ⟨sIn, gIn, htoken⟩ := hs.runs_token ho
    have hexec := exec_g_opens (s := s.tookWord sIn gIn (.g g)) (v := g) hs.cfgOk hs.ready hrun
    have hone := htoken _ [] hexec hs.st (List.append_nil _).symm
    obtain ⟨t, hruns, hclosed⟩ := runs_frame_of_open (n := 0) hone.takes rfl (hone.rest ho) hg hrest hfit
    exact ⟨t, hone.trans hruns, hclosed⟩

/-- A `CORE` to which no token is offered has no word on port `G`. -/
theorem State.gIn_eq_nil {s : State} (hb : s.cfg.block = .core) (ho : s.offered = []) : s.gIn = [] := by
  rwa [State.offered_core hb, List.map_eq_nil_iff] at ho

/-- A state like the reset state takes the words then offered to it. -/
theorem State.Fresh.takesPort {s : State} (h : s.Fresh) (hp : s.pIn = []) (sIn : List (BitVec 9))
    (gIn : List (BitVec 10)) : State.TakesPort { s with sIn := sIn, gIn := gIn } :=
  ⟨h.cfgOk, State.ready_iff.2 ⟨h.rst, h.st, h.crem, h.clit⟩, h.fc, hp⟩

/-- The tokens of frames of glyph codes whose runs fit emit their records, one after another. -/
theorem runs_frames {fs : List (List Byte)} {s : State} {is : List Instr} (hs : s.TakesPort)
    (hrun : s.openRun = none) (ho : s.offered = fs.flatMap frameTokens ++ is) (hglyphs : ∀ f ∈ fs, AllGlyphs f)
    (hfit : ∀ f ∈ fs, RunsFit s.cfg f) :
    ∃ t, s.Runs (fs.flatMap frameTokens) (fs.flatMap encodeFrame) t ∧ t.openRun = none := by
  refine runs_flatMap (c := s.cfg) (P := fun u => u.openRun = none) ?_ rfl hs hrun ho
  intro f hf u js hcfg hu hclosed ho'
  exact runs_frameTokens hu hclosed ho' (hglyphs f hf) (hcfg ▸ hfit f hf)

/-- Settles O47: frame by frame, and `EOS` between frames. -/
theorem coreComputesEncodeStream : Obligations.CoreComputesEncodeStream := by
  intro s fs hs hb hp hglyphs hfit
  have hports : ∀ ws : List (BitVec 10), State.TakesPort { s with gIn := ws } := hs.takesPort hp s.sIn
  refine ⟨fun ws hws => ?_, fun ws hws => ?_⟩
  · have ho := (State.offered_core (s := { s with gIn := ws }) hb).trans hws
    rw [← List.length_map (f := decodeGT), hws]
    obtain ⟨t, hruns, hclosed⟩ := runs_frames (hports ws) hs.closed ho hglyphs hfit
    obtain ⟨sIn, gIn, hempty, hlast⟩ := hruns.last_token ho
    have hexec := exec_eos_ends (s := t.tookWord sIn gIn .eos) hruns.takes.cfgOk hruns.takes.ready hclosed
    refine ⟨_, hlast _ hexec, State.gIn_eq_nil (hruns.cfg ▸ hb) hempty, rfl, hruns.takes.fc, hclosed, ?_⟩
    rw [encodeStream, ← List.append_assoc, ← hruns.out]
    rfl
  · have ho := (State.offered_core (s := { s with gIn := ws }) hb).trans (hws.trans (List.append_nil _).symm)
    rw [← List.length_map (f := decodeGT), hws]
    obtain ⟨t, hruns, -⟩ := runs_frames (hports ws) hs.closed ho hglyphs hfit
    exact ⟨t, hruns.run, State.gIn_eq_nil (hruns.cfg ▸ hb) (hruns.rest ho), hruns.takes.st, hruns.out⟩

/-! ### `PIPE` -/

/-- A `PIPE` to which no token is offered has no word on port `S`. -/
theorem State.sIn_eq_nil {s : State} (hb : s.cfg.block = .pipe) (ho : s.offered = []) : s.sIn = [] := by
  rwa [State.offered_pipe hb, List.map_eq_nil_iff] at ho

/-- The packed frame depends on the pixels of the frame alone. -/
theorem pack_congr {cfg : Config} {px px' : Nat → Bool} (h : ∀ a, a < cfg.npix → px' a = px a) :
    pack cfg px' = pack cfg px :=
  List.map_congr_left fun _ hp => glyph_congr h (mem_gridCells.1 hp).1 (mem_gridCells.1 hp).2

/-- A `PIPE` between tokens in mid-frame: the samples `p` of the frame were taken, and their cells hold their pixels
(rules R38, R53, R105). -/
structure State.Loaded (p : List Byte) (s : State) : Prop where
  block : s.cfg.block = .pipe
  closed : s.openRun = none
  wp : s.wp = p.length
  read : ∀ a, a < p.length → s.readCell a = thr s.cfg.thresh (p.getD a 0)

/-- Storing one sample more. -/
theorem State.Loaded.read_store {p : List Byte} {s : State} (hl : s.Loaded p) (d : Byte) {a : Nat}
    (ha : a < p.length + 1) :
    (s.writeCell s.wp (thr s.cfg.thresh d)).readCell a = thr s.cfg.thresh ((p ++ [d]).getD a 0) := by
  rw [hl.wp]
  obtain hlt | rfl := Nat.lt_succ_iff_lt_or_eq.1 ha
  · rw [State.readCell_writeCell_of_ne (by omega), hl.read a hlt, List.getD_append _ _ _ _ hlt]
  · rw [State.readCell_writeCell_self, List.getD_append_right _ _ _ _ (Nat.le_refl _), Nat.sub_self]
    rfl

/-- Samples before the last of their frame emit nothing (rule R105). -/
theorem runs_samples {d p : List Byte} {s : State} {is : List Instr} (hs : s.TakesPort) (hl : s.Loaded p)
    (hlen : p.length + d.length < s.cfg.npix) (ho : s.offered = d.map Instr.s ++ is) :
    ∃ t, s.Runs (d.map Instr.s) [] t ∧ t.Loaded (p ++ d) := by
  induction d generalizing s p with
  | nil => exact ⟨s, .refl hs, (List.append_nil p).symm ▸ hl⟩
  | cons b d ih =>
    have hsucc : (p ++ [b]).length = p.length + 1 := List.length_append
    rw [List.length_cons] at hlen
    obtain ⟨sIn, gIn, htoken⟩ := hs.runs_token ho
    have hexec := sampleWithinFrame b (s.tookWord sIn gIn (.s b)) hs.cfgOk hl.block hs.ready
      (show s.wp + 1 < s.cfg.npix by rw [hl.wp]; omega)
    rw [← pixelByte_thr] at hexec
    have hone := htoken _ [] hexec hs.st (List.append_nil _).symm
    have hlen' : (p ++ [b]).length + d.length < s.cfg.npix := by omega
    obtain ⟨t, hruns, hloaded⟩ := ih hone.takes
      ⟨hl.block, hl.closed, (congrArg (· + 1) hl.wp).trans hsucc.symm, fun a ha => hl.read_store b (hsucc ▸ ha)⟩
      hlen' (hone.rest ho)
    rw [List.append_assoc] at hloaded
    exact ⟨t, hone.trans hruns, hloaded⟩

/-- The last sample of a frame emits the record of the packed frame, all of it (rules R105, R106, R188). -/
theorem runs_lastSample {p : List Byte} {b : Byte} {s : State} {is : List Instr} (hs : s.TakesPort) (hl : s.Loaded p)
    (hlen : p.length + 1 = s.cfg.npix) (ho : s.offered = .s b :: is) :
    ∃ t, s.Runs [.s b] (encodeFrame (fe s.cfg (p ++ [b]))) t ∧ t.Loaded [] := by
  obtain ⟨sIn, gIn, htoken⟩ := hs.runs_token ho
  obtain ⟨v, y, x, hexec, -⟩ := lastSampleEmitsFrameRecord b (s.tookWord sIn gIn (.s b)) hs.cfgOk hl.block hs.ready hl.closed
    (show s.wp + 1 = s.cfg.npix by rw [hl.wp, hlen])
  have hpack : pack s.cfg (s.writeCell s.wp (thr s.cfg.thresh b)).readCell = fe s.cfg (p ++ [b]) :=
    pack_congr fun a ha => hl.read_store b (hlen ▸ ha)
  rw [← hpack]
  exact ⟨_, htoken _ _ hexec hs.st rfl, hl.block, hl.closed, rfl, nofun⟩

/-- The samples of a frame emit the record of the packed frame (rule R188). -/
theorem runs_sampleFrame {d : List Byte} {s : State} {is : List Instr} (hs : s.TakesPort) (hl : s.Loaded [])
    (hlen : d.length = s.cfg.npix) (ho : s.offered = d.map Instr.s ++ is) :
    ∃ t, s.Runs (d.map Instr.s) (encodeFrame (fe s.cfg d)) t ∧ t.Loaded [] := by
  obtain ⟨-, hpos, -⟩ := config_ranges_pos hs.cfgOk
  obtain rfl | ⟨p, b, rfl⟩ := List.eq_nil_or_concat' d
  · rw [← hlen] at hpos; cases hpos
  · rw [List.length_append, List.length_singleton] at hlen
    rw [List.map_append, List.append_assoc] at ho
    rw [List.map_append]
    obtain ⟨t, hruns, hloaded⟩ := runs_samples (p := []) hs hl (by rw [List.length_nil]; omega) ho
    obtain ⟨u, hlast, hbetween⟩ := runs_lastSample (p := p) hruns.takes hloaded (hruns.cfg ▸ hlen) (hruns.rest ho)
    rw [hruns.cfg] at hlast
    exact ⟨u, hruns.trans hlast, hbetween⟩

/-- The samples of whole frames emit the records of the packed frames, one after another. -/
theorem runs_sampleFrames {ds : List (List Byte)} {s : State} {is : List Instr} (hs : s.TakesPort) (hl : s.Loaded [])
    (ho : s.offered = sampleTokens ds ++ is) (hlen : ∀ d ∈ ds, d.length = s.cfg.npix) :
    ∃ t, s.Runs (sampleTokens ds) ((ds.map (fe s.cfg)).flatMap encodeFrame) t ∧ t.Loaded [] := by
  rw [List.flatMap_map]
  refine runs_flatMap (c := s.cfg) (P := State.Loaded []) ?_ rfl hs hl ho
  intro d hd u js hcfg hu hl' ho'
  rw [← hcfg] at hlen ⊢
  exact runs_sampleFrame hu hl' (hlen d hd) ho'

theorem sampleTokens_append_singleton (ds : List (List Byte)) (d : List Byte) :
    sampleTokens (ds ++ [d]) = sampleTokens ds ++ d.map Instr.s := by
  simp [sampleTokens]

/-- Settles O48: frame by frame, then `FIN` between frames, or the samples of a frame not complete. -/
theorem pipeComputesEncodeStream : Obligations.PipeComputesEncodeStream := by
  intro s ds hs hb hp hwp hlen
  have hports : ∀ ws : List (BitVec 9), State.TakesPort { s with sIn := ws } := fun ws => hs.takesPort hp ws s.gIn
  have hbetween : ∀ ws : List (BitVec 9), State.Loaded [] { s with sIn := ws } := fun _ => ⟨hb, hs.closed, hwp, nofun⟩
  refine ⟨fun ws hws => ?_, fun d ws hd hws => ?_⟩
  · have ho := (State.offered_pipe (s := { s with sIn := ws }) hb).trans hws
    rw [← List.length_map (f := decodeST), hws]
    obtain ⟨t, hruns, hl⟩ := runs_sampleFrames (hports ws) (hbetween ws) ho hlen
    obtain ⟨sIn, gIn, hempty, hlast⟩ := hruns.last_token ho
    have hexec := exec_fin_between (s := t.tookWord sIn gIn .fin) hruns.takes.cfgOk hl.block hruns.takes.ready hl.wp hl.closed
    refine ⟨_, hlast _ hexec, State.sIn_eq_nil hl.block hempty, rfl, hruns.takes.fc, hl.wp, ?_⟩
    rw [encodeStream, ← List.append_assoc, ← hruns.out]
    rfl
  · rw [sampleTokens_append_singleton] at hws
    have ho := (State.offered_pipe (s := { s with sIn := ws }) hb).trans hws
    rw [← List.length_map (f := decodeST), hws]
    obtain ⟨t, hruns, hl⟩ := runs_sampleFrames (hports ws) (hbetween ws) ho hlen
    have hrest := (hruns.rest ho).trans (List.append_nil _).symm
    obtain ⟨u, hpart, hl'⟩ := runs_samples hruns.takes hl (by rw [hruns.cfg, List.length_nil, Nat.zero_add]; exact hd) hrest
    have hall := hruns.trans hpart
    rw [List.append_nil] at hall
    exact ⟨u, hall.run, State.sIn_eq_nil hl'.block (hpart.rest hrest), hall.takes.st, hall.takes.fc, hall.out⟩

end Sys2Proof.Machine

/-! ## Proofs: the faults, and a step with no token (O14, O50, O51, O52) -/

namespace Sys2Proof.Machine

/-- Settles O14: such a state is `State.Quiet`, and its decoder has no byte to read and none to miss. -/
theorem noTokenNothingHappens : Obligations.NoTokenNothingHappens := by
  intro s hw hr hp hg hs hinput
  have hquiet : s.Quiet := ⟨hw, rst_of_ready hr, State.ceIdle_iff.2 (State.ready_iff.1 hr).2.2, hp, hg, hs⟩
  have hfetch : fetch s = none := by
    rw [hquiet.fetch_eq, fetchByte_eq_none, hinput]
    exact fun _ _ _ => nofun
  rw [step_idle hw hquiet.rst hfetch, idleStep, if_neg (by simp [hquiet.idle]), if_neg (by simp [hinput])]

/-! ### What raises a fault -/

/-- A state of the invariant that takes tokens shows no fault. -/
theorem State.Inv.fc_of_ready {s : State} (hs : s.Inv) (hr : s.ready = true) : s.fc = .none :=
  hs.fault.2 (by rw [(State.ready_iff.1 hr).2.1]; nofun)

/-- A `PIPE` of the invariant that takes tokens has no open run. -/
theorem State.Inv.closed_of_ready {s : State} (hs : s.Inv) (hr : s.ready = true) (hb : s.cfg.block = .pipe) :
    s.openRun = none :=
  hs.closed hb (State.ready_iff.1 hr).2.1

/-- The fault a token of the block raises in state `s` (rules R200, R206). -/
def State.faultOf (s : State) : Instr → FaultCode
  | .g v =>
    match s.openRun with
    | some r => if v = r.rv then if r.rc = s.cfg.cntMax then .ovf else .none else if isGlyph r.rv then .none else .inv
    | none => .none
  | .eof =>
    match s.openRun with
    | some r => if isGlyph r.rv then .none else .inv
    | none => .none
  | .pair v _ => if isGlyph v then .none else .inv
  | .eos => if s.openRun = none then .none else .proto
  | .fin => if s.wp = 0 then .none else .proto
  | .grsv => .proto
  | .s _ | .meof | .meos | .endByte | .blk _ | .rsv1 | .lit _ | .rsvf0 | .ful _ => .none

/-- `t` ends a token taken in state `s` with fault `f`: `st` and `fc` are written and nothing else (rule R204), or `f` is
`NONE` and no fault shows. -/
def State.EndsWith (s t : State) : FaultCode → Prop
  | .none => t.st ≠ .fault ∧ t.fc = .none
  | f => t = { s with fc := f, st := .fault }

theorem State.EndsWith.fc {s t : State} {f : FaultCode} (h : s.EndsWith t f) : t.fc = f := by
  cases f with
  | none => exact h.2
  | inv | ovf | proto => exact congrArg State.fc h

theorem State.EndsWith.keeps {s t : State} {f : FaultCode} (h : s.EndsWith t f) (hst : t.st = .fault) :
    t = { s with st := .fault, fc := t.fc } ∧ t.fc ≠ .none := by
  rw [h.fc]
  cases f with
  | none => exact absurd hst h.1
  | inv | ovf | proto => exact ⟨h, nofun⟩

section
variable {s t : State} (hs : s.Inv) (hr : s.ready = true)
include hs hr

/-- A token that writes neither `st` nor `fc` ends with no fault. -/
theorem State.Inv.endsWith_none (hst : t.st = s.st) (hfc : t.fc = s.fc) : s.EndsWith t .none :=
  ⟨by rw [hst, (State.ready_iff.1 hr).2.1]; nofun, hfc.trans (hs.fc_of_ready hr)⟩

/-- `G` extends the run, which can overflow, or closes it, which can meet a value of no glyph; never both (rule R206). -/
theorem exec_g_endsWith {v : Byte} (h : exec (.g v) s = .next t) : s.EndsWith t (s.faultOf (.g v)) := by
  have hw := hs.cfgOk
  cases hrun : s.openRun with
  | none =>
    simp only [State.faultOf, hrun]
    cases (exec_g_opens hw hr hrun).symm.trans h
    exact hs.endsWith_none hr rfl rfl
  | some r =>
    simp only [State.faultOf, hrun]
    by_cases hv : v = r.rv
    · subst hv
      rw [if_pos rfl]
      by_cases hc : r.rc = s.cfg.cntMax
      · cases (exec_g_overflows hw hr hrun hc).symm.trans h
        rw [if_pos hc]
        rfl
      · cases (exec_g_extends hw hr hrun hc).symm.trans h
        rw [if_neg hc]
        exact hs.endsWith_none hr rfl rfl
    · rw [if_neg hv]
      cases hg : isGlyph r.rv with
      | true =>
        cases (exec_g_closes hw hr hrun hv hg).symm.trans h
        exact hs.endsWith_none hr rfl rfl
      | false =>
        cases (exec_g_invalid hw hr hrun hv hg).symm.trans h
        rfl

/-- `EOF` closes the run, which can meet a value of no glyph. -/
theorem exec_eof_endsWith (h : exec .eof s = .next t) : s.EndsWith t (s.faultOf .eof) := by
  have hw := hs.cfgOk
  cases hrun : s.openRun with
  | none =>
    simp only [State.faultOf, hrun]
    cases (exec_eof_empty hw hr hrun).symm.trans h
    exact hs.endsWith_none hr rfl rfl
  | some r =>
    simp only [State.faultOf, hrun]
    cases hg : isGlyph r.rv with
    | true =>
      cases (exec_eof_closes hw hr hrun hg).symm.trans h
      exact hs.endsWith_none hr rfl rfl
    | false =>
      cases (exec_eof_invalid hw hr hrun hg).symm.trans h
      rfl

/-- `EOS` ends the stream or meets an open run. -/
theorem exec_eos_endsWith (h : exec .eos s = .next t) : s.EndsWith t (s.faultOf .eos) := by
  have hw := hs.cfgOk
  cases hrun : s.openRun with
  | none =>
    simp only [State.faultOf, hrun]
    cases (exec_eos_ends hw hr hrun).symm.trans h
    exact ⟨nofun, hs.fc_of_ready hr⟩
  | some r =>
    simp only [State.faultOf, hrun]
    cases (exec_eos_open hw hr hrun).symm.trans h
    rfl

/-- `PAIR` can meet a value of no glyph. -/
theorem exec_pair_endsWith {v : Byte} {c : Nat} (h : exec (.pair v c) s = .next t) :
    s.EndsWith t (s.faultOf (.pair v c)) := by
  have hw := hs.cfgOk
  simp only [State.faultOf]
  cases hg : isGlyph v with
  | true =>
    cases (exec_pair_glyph hw hr hg c).symm.trans h
    exact hs.endsWith_none hr rfl rfl
  | false =>
    cases (exec_pair_invalid hw hr hg c).symm.trans h
    rfl

/-- `FIN` tests `wp` first; between frames no run of a `PIPE` is open, so its `EOS` raises nothing (rule R206). -/
theorem exec_fin_endsWith (h : exec .fin s = .next t) : s.EndsWith t (s.faultOf .fin) := by
  obtain ⟨hb, hw, -⟩ := execFin_cases h
  simp only [State.faultOf]
  by_cases hwp : s.wp = 0
  · cases (exec_fin_between hw hb hr hwp (hs.closed_of_ready hr hb)).symm.trans h
    rw [if_pos hwp]
    exact ⟨nofun, hs.fc_of_ready hr⟩
  · cases (exec_fin_inside hw hb hr hwp).symm.trans h
    rw [if_neg hwp]
    rfl

/-- A sample raises nothing: it is stored, and the scan the last one starts sends the whole record (O22, O23). -/
theorem exec_s_endsWith {d : Byte} (h : exec (.s d) s = .next t) : s.EndsWith t (s.faultOf (.s d)) := by
  obtain ⟨hb, hw, -⟩ := execS_cases h
  have hwp := hs.wp
  by_cases hlast : s.wp + 1 = s.cfg.npix
  · obtain ⟨v, y, x, hexec, -⟩ := lastSampleEmitsFrameRecord d s hw hb hr (hs.closed_of_ready hr hb) hlast
    cases hexec.symm.trans h
    exact hs.endsWith_none hr rfl rfl
  · cases (sampleWithinFrame d s hw hb hr (by omega)).symm.trans h
    exact hs.endsWith_none hr rfl rfl

/-- Every token of the block that is taken raises the fault of `State.faultOf` and keeps all else, or raises none. -/
theorem exec_block_endsWith {i : Instr} (hi : blockToken i = true) (h : exec i s = .next t) :
    s.EndsWith t (s.faultOf i) := by
  cases i with
  | s d => exact exec_s_endsWith hs hr h
  | fin => exact exec_fin_endsWith hs hr h
  | g v => exact exec_g_endsWith hs hr h
  | eof => exact exec_eof_endsWith hs hr h
  | eos => exact exec_eos_endsWith hs hr h
  | pair v c => exact exec_pair_endsWith hs hr h
  | grsv =>
    cases (exec_grsv_eq hs.cfgOk hr).symm.trans h
    rfl
  | meof =>
    cases (exec_meof_ready hs.cfgOk hr).symm.trans h
    exact hs.endsWith_none hr rfl rfl
  | meos =>
    cases (exec_meos_ready hs.cfgOk hr).symm.trans h
    exact ⟨nofun, hs.fc_of_ready hr⟩
  | endByte | blk | rsv1 | lit | rsvf0 | ful => cases hi

end

/-- Settles O50: a token ends with the fault of `State.faultOf`, which keeps all but `st` and `fc`. -/
theorem faultKeepsEverythingElse : Obligations.FaultKeepsEverythingElse := fun _ _ _ hs hr hi h =>
  (exec_block_endsWith hs hr hi h).keeps

/-! ### Which token raises which fault -/

/-- `G` over an open run: another value closes it and can raise `INV`, the same value lengthens it and can raise `OVF`. -/
theorem State.faultOf_g_iff (s : State) (v : Byte) :
    (s.faultOf (.g v) = .inv ↔ ∃ r, s.openRun = some r ∧ v ≠ r.rv ∧ isGlyph r.rv = false) ∧
    (s.faultOf (.g v) = .ovf ↔ ∃ r, v = r.rv ∧ s.openRun = some r ∧ r.rc = s.cfg.cntMax) ∧
    s.faultOf (.g v) ≠ .proto := by
  cases hrun : s.openRun with
  | none => simp [State.faultOf, hrun]
  | some r =>
    by_cases hv : v = r.rv
    · by_cases hc : r.rc = s.cfg.cntMax <;> simp [State.faultOf, hrun, hv, hc]
    · cases hg : isGlyph r.rv <;> simp [State.faultOf, hrun, hv, hg]

theorem State.faultOf_eof_iff (s : State) :
    (s.faultOf .eof = .inv ↔ ∃ r, s.openRun = some r ∧ isGlyph r.rv = false) ∧
    s.faultOf .eof ≠ .ovf ∧ s.faultOf .eof ≠ .proto := by
  cases hrun : s.openRun with
  | none => simp [State.faultOf, hrun]
  | some r => cases hg : isGlyph r.rv <;> simp [State.faultOf, hrun, hg]

/-- Which token raises which fault, and when (rule R200). -/
theorem State.faultOf_iff (s : State) (i : Instr) :
    (s.faultOf i = .inv ↔
      (∃ v r, i = .g v ∧ s.openRun = some r ∧ v ≠ r.rv ∧ isGlyph r.rv = false) ∨
      (∃ r, i = .eof ∧ s.openRun = some r ∧ isGlyph r.rv = false) ∨
      (∃ v c, i = .pair v c ∧ isGlyph v = false)) ∧
    (s.faultOf i = .ovf ↔ ∃ r, i = .g r.rv ∧ s.openRun = some r ∧ r.rc = s.cfg.cntMax) ∧
    (s.faultOf i = .proto ↔ (i = .eos ∧ s.openRun ≠ none) ∨ i = .grsv ∨ (i = .fin ∧ s.wp ≠ 0)) := by
  cases i with
  | g v => simp [s.faultOf_g_iff v]
  | eof => simp [s.faultOf_eof_iff]
  | pair | eos | fin => simp [State.faultOf, ite_eq_iff]
  | s | grsv | meof | meos | endByte | blk | rsv1 | lit | rsvf0 | ful => simp [State.faultOf]

/-- The two bits of the output `fault` tell the four codes apart (rules R30, R200). -/
theorem FaultCode.code_iff (f : FaultCode) :
    (f.code = 0 ↔ f = .none) ∧ (f.code = 1 ↔ f = .inv) ∧ (f.code = 2 ↔ f = .ovf) ∧ (f.code = 3 ↔ f = .proto) := by
  cases f <;> decide

/-- Settles O51: `fc` is `State.faultOf` after a token, and that is each code exactly where its rule raises it. -/
theorem faultCodePerToken : Obligations.FaultCodePerToken := by
  refine ⟨fun s => ?_, ⟨rfl, rfl, rfl⟩, fun i s t hs hr hi h => ?_⟩
  · obtain ⟨hnone, hinv, hovf, hproto⟩ := s.fc.code_iff
    exact ⟨hnone, hinv, hovf, hproto, decide_eq_true_iff⟩
  · rw [(exec_block_endsWith hs hr hi h).fc]
    exact s.faultOf_iff i

/-! ### The faults of a `PIPE` -/

/-- Settles O52: a step that takes a word takes one of port `S`, whose fault is `State.faultOf` of a sample or of `FIN`. -/
theorem pipeRaisesOnlyProtoByFin : Obligations.PipeRaisesOnlyProtoByFin := by
  intro s t hs hb hp h
  obtain ⟨hrst, rfl⟩ | ⟨-, -, x, xs, i, hword, -⟩ | ⟨-, -, -, hcore, -⟩ | ⟨-, hr, -, -, w, ws, hsIn, he⟩ |
    ⟨-, -, d, rfl⟩ | ⟨-, -, hbusy, -⟩ := step_outcomes h
  · exact ⟨rfl, .inr (.inl hrst)⟩
  · rw [hp] at hword; cases hword
  · rw [hb] at hcore; cases hcore
  · obtain ⟨-, -, -, -, hpIn, -⟩ := exec_block_frame (blockToken_decodeST w) he
    have hinv : State.Inv { s with sIn := ws, consumed := s.consumed ++ [decodeST w] } := hs.withInputs
    have hfc := (exec_block_endsWith hinv hr (blockToken_decodeST w) he).fc
    refine ⟨hpIn.trans hp, ?_⟩
    obtain ⟨d, hw⟩ | hw := decodeST_cases w <;> rw [hw] at hfc
    · exact .inl (hfc.trans (hs.fc_of_ready hr).symm)
    · by_cases hwp : s.wp = 0
      · exact .inl (hfc.trans ((if_pos hwp).trans (hs.fc_of_ready hr).symm))
      · exact .inr (.inr ⟨hfc.trans (if_neg hwp), hwp, w, ws, hsIn, hw⟩)
  · exact ⟨hp, .inl rfl⟩
  · rw [State.ceIdle_iff.2 ⟨hs.crem, hs.clit⟩] at hbusy; cases hbusy

end Sys2Proof.Machine

/-! ## Proofs: the reset edge (O9) -/

namespace Sys2Proof.Machine

/-- A block held in reset is not ready (rule R192). -/
theorem State.not_ready_of_rst {s : State} (h : s.rst = true) : s.ready = false := by simp [State.ready, h]

/-- A block that is not ready takes the offered token of neither port. -/
theorem State.ports_not_ready {s : State} (h : s.ready = false) : s.gReady = false ∧ s.sReady = false := by
  simp [← Bool.not_eq_true, State.gReady_iff, State.sReady_iff, h]

/-- A reset edge leaves `rst` as the host holds it. -/
theorem State.applyReset_rst (s : State) : s.applyReset.rst = s.rst := rfl

/-- No cell is known after a reset edge: each reads as the free value of the new reset (rule R37). -/
theorem State.readCell_applyReset (s : State) (a : Nat) :
    s.applyReset.readCell a = Config.unwrittenCell (s.epoch + 1) a := rfl

/-- Settles O9: the step is `State.applyReset`, which lists each value but the outputs' and the cells'; `rst` is still 1
after it, so the block is ready for no token. -/
theorem resetEdgeTakesResetState : Obligations.ResetEdgeTakesResetState := by
  intro s hw hrst
  obtain ⟨hg, hs⟩ := State.ports_not_ready (State.not_ready_of_rst (s.applyReset_rst.trans hrst))
  exact ⟨s.applyReset, step_reset hw hrst, rfl, rfl, rfl, rfl, rfl, rfl, rfl, rfl, rfl, rfl, hg, hs,
    rfl, rfl, rfl, rfl, rfl, s.readCell_applyReset⟩

end Sys2Proof.Machine
